-- ==== Sys2Proof/Word.lean ====
section
/-!
DEFINITION. The two sizes of datum of the block (00_scope.md R12): a byte is 8 bits, a word without
qualification is 16 bits, and every value is unsigned. A program word has `W` bits (Config.lean); it
travels in a 16-bit word whose upper bits are 0.
-/

namespace Sys2Proof

/-- 8 bits (R12). -/
abbrev Byte := BitVec 8

/-- 16 bits (R12). -/
abbrev Word := BitVec 16

end Sys2Proof
end

