-- ==== Sys2Proof/Machine/Cells.lean ====
section
/-!
DEFINITION. Sparse storage: a list of (address, element) pairs in one canonical form, addresses strictly rising and no
entry that equals what an unlisted address reads as. The four arrays of the block (`buf`, `pm` and `cfg`, `latch`, `loaded`)
are held so; which element an unlisted address reads as is each array's own (Ops.lean).
-/

namespace Sys2Proof.Machine

/-- The entry at an address, if one is listed. -/
def cellsLookup {α : Type} : List (Nat × α) → Nat → Option α
  | [], _ => none
  | (k, v) :: m, a => if a = k then some v else cellsLookup m a

/-- List `v` at `a`, in place of an entry already there. -/
def cellsInsert {α : Type} : List (Nat × α) → Nat → α → List (Nat × α)
  | [], a, v => [(a, v)]
  | (k, w) :: m, a, v =>
    if a < k then (a, v) :: (k, w) :: m
    else if a = k then (a, v) :: m
    else (k, w) :: cellsInsert m a v

/-- Unlist an address. -/
def cellsErase {α : Type} : List (Nat × α) → Nat → List (Nat × α)
  | [], _ => []
  | (k, w) :: m, a => if a = k then cellsErase m a else (k, w) :: cellsErase m a

/-- The element at an address, where an unlisted address `a` reads as `d a`. -/
def cellsLoad {α : Type} (d : Nat → α) (m : List (Nat × α)) (a : Nat) : α := (cellsLookup m a).getD (d a)

/-- Store an element; storing what an unlisted address reads as unlists it. -/
def cellsStore {α : Type} [DecidableEq α] (d : Nat → α) (m : List (Nat × α)) (a : Nat) (v : α) : List (Nat × α) :=
  if v = d a then cellsErase m a else cellsInsert m a v

/-- Store `f i` at `base + i` for each `i < n` where `f i` is some element. -/
def cellsStoreRange {α : Type} [DecidableEq α] (d : Nat → α) (base : Nat) (f : Nat → Option α) :
    Nat → List (Nat × α) → List (Nat × α)
  | 0, m => m
  | n + 1, m =>
    match f n with
    | none => cellsStoreRange d base f n m
    | some v => cellsStore d (cellsStoreRange d base f n m) (base + n) v

/-- The canonical form of the contents a list of pairs gives at the addresses `ok` allows; an earlier pair wins. -/
def cellsOf {α : Type} [DecidableEq α] (d : Nat → α) (ok : Nat → Bool) : List (Nat × α) → List (Nat × α)
  | [] => []
  | (a, v) :: m => if ok a then cellsStore d (cellsOf d ok m) a v else cellsOf d ok m

/-- The canonical form: addresses strictly rising, every entry one that `ok` allows. -/
def cellsWf {α : Type} (ok : Nat → α → Bool) (m : List (Nat × α)) : Bool :=
  decide (m.Pairwise fun p q => p.1 < q.1) && m.all fun p => ok p.1 p.2

end Sys2Proof.Machine
end

