-- ==== Sys2Proof/Machine/Modes.lean ====
section
/-!
DEFINITION. The small named sets the block's state is made of: the transport phase (10_state.md R27),
whether the block is still in bootloader context (R28), the unlock sequencer (R47), and the names of the
four NVM registers (R40).
-/

namespace Sys2Proof

namespace Machine

/-- The transport phase (R27). `address` is held from reset, or from a re-entry, to the first addressing event. -/
inductive Phase where
  | address
  | receiving
  | replying
deriving DecidableEq, Repr

/-- The 2-bit code of a phase (R27); 3 is never held. -/
def phaseCode : Phase → BitVec 2
  | .address => 0
  | .receiving => 1
  | .replying => 2

/-- Whether the block handles events (`active`), or REBOOT has left for the application (`left`) (R28). -/
inductive Run where
  | active
  | left
deriving DecidableEq, Repr

/-- The unlock sequencer (R47). -/
inductive Unlock where
  | locked
  | key1Seen
  | unlocked
deriving DecidableEq, Repr

/-- The four registers of the NVM controller, at offsets 0 to 3 (R40). -/
inductive NvmReg where
  | adr
  | dat
  | con
  | key
deriving DecidableEq, Repr

/-- Register offsets, in register units; no rule depends on them (R40). -/
def nvmRegOffset : NvmReg → Nat
  | .adr => 0
  | .dat => 1
  | .con => 2
  | .key => 3

end Machine

end Sys2Proof
end

