-- ==== Sys2Proof/Config.lean ====
section
/-!
DEFINITION. What an implementation fixes (00_scope.md R7 to R11, R19) and the free values.

The spec gives most parameters no value: "each is a named parameter the model takes as an argument" (R8).
`Config` holds them as plain data, in a form in which every constraint R8 and R9 state holds by construction. The
argument reaches every operation in the state (`State.dev`, which no step changes), so that a statement about every state
is a statement about every device; of the device of the state after reset, `Config.device`, only the keys are known, which are
R10's defaults (log entries 1 and 3).
-/

namespace Sys2Proof

/-- `CAP_WORDS` (R7). -/
def capWords : Nat := 64

/-- `CAP_BYTES = 2 * CAP_WORDS` (R7, decision D1). -/
def capBytes : Nat := 2 * capWords

/-- `MIN_CMD_BYTES` (R7, decision D2). -/
def minCmdBytes : Nat := 2

/-- `KEY1` and `KEY2` (R10). In `Key1Seen` a write of `KEY1` relocks and a write of `KEY2` does not
(40_nvm_controller.md R131), so the two differ; `gap` is one less than what `KEY2` is above `KEY1` modulo 256 (log entry 3,
DEDUCED). -/
structure Keys where
  key1 : Byte
  gap : Fin 255
deriving DecidableEq, Repr, Inhabited

/-- `KEY2` (R10). -/
def Keys.key2 (k : Keys) : Byte := k.key1 + 1 + BitVec.ofNat 8 k.gap.val

/-- The defaults of R10, 0x55 and 0xAA, which are the words of the table's rows NVMKEY.KEY1 and NVMKEY.KEY2 (R113; log entry 3,
PRESUMED). -/
def defaultKeys : Keys := { key1 := 0x55, gap := 0x54 }

/-- The parameters of one device (R8 to R11). Raw fields; the quantities the rules use are the functions of
Machine/Device.lean. -/
structure Config where
  /-- `PM_WORD_BITS - 1` -/
  widthIdx : Fin 16
  /-- `log2 ROW_WORDS - 1` -/
  rowIdx : Fin 16
  /-- the number of rows less one, taken modulo what 16-bit addresses can hold -/
  flashIdx : Nat
  cfgBase : Word
  cfgWords : Nat
  bootStart : Word
  appEntry : Word
  /-- `BOOT_ROWS`, as row numbers (address divided by `ROW_WORDS`) -/
  bootRows : List Nat
  tagDevType : Word
  tagFlashSize : Word
  tagEraseRow : Word
  tagWriteRow : Word
  tagVersion : Word
  tagBootStart : Word
  tagText : Word
  deviceType : Word
  flashSize : Word
  eraseRowSize : Word
  writeRowSize : Word
  blVersion : Word
  /-- `INFO_TEXT`; only its first 100 bytes are used (`T <= 100`, R9) -/
  infoText : List Byte
  /-- `KEY1` and `KEY2` (R10) -/
  keys : Keys
  settleBefore : Nat
  settleAfter : Nat
  /-- `GIE_RESET` (R11) -/
  gieReset : Bool
  /-- `pm_init`: program memory when the block is first used, an input of the model (10_state.md R48); an address it does
  not name holds `ERASE_VALUE` -/
  pmInit : List (Nat × Word)
  /-- `cfg_init`: the configuration space, an input of the model (10_state.md R49) -/
  cfgInit : List (Nat × Word)
  /-- whether `Prog` on a cell that is not erased is the spec's default, bitwise AND, or any function at all (U10) -/
  progIsAnd : Bool
  /-- whether the bus interface signals the read addressing and the request for the first reply byte as one
  hardware event (43_transport_events.md R240) -/
  combinedRead : Bool
deriving DecidableEq, Repr, Inhabited

/-- `Prog` on a cell that is not erased: the spec requires nothing of it (R8, U10; log entry 1). NO BODY. The default, AND, is
`progIsAnd`'s. -/
opaque Config.progRaw : Word → Word → Word

/-- A device of which nothing is known but the constraints above. NO BODY (log entry 1). -/
opaque Config.anyDevice : Config

/-- The device of the state after reset: any device whose keys are R10's defaults (log entries 1 and 3). -/
def Config.device : Config := { Config.anyDevice with keys := defaultKeys }

/-- FREE VALUE: what byte `i` of the command buffer holds before anything wrote it, in the `epoch`-th period
since a reset or re-entry made the buffer unspecified (93_implementation_defined.md U9; log entry 4). -/
opaque Config.anyByte : Nat → Nat → Byte

/-- FREE VALUE: the `n`-th `any value` drawn: the result of a read outside the populated range
(93_implementation_defined.md U3), a cell of a row that a reset struck while it was erased or programmed (U12); each use
takes its low `W` bits (R42, R132, R48; log entry 5). -/
opaque Config.anyWord : Nat → Word

end Sys2Proof
end

