-- ==== Sys2Proof/Syntax.lean ====
section
/-!
DEFINITION. One constructor for each of the 32 rows of spec/opcode_table.json, in the table's order, with the
row's operands. A field written `r` or `r2` is a reserved bit of `NVMCON` (10_state.md R43): any value is written
and ignored. `s`, `l`, `f`, `e` are `SPACE`, `LATCHONLY`, `ERASE`, `EN` (30_encoding.md R111).
-/

namespace Sys2Proof

/-- The instructions: the commands and the two dispatcher outcomes that are not commands (42_dispatcher_commands.md),
the bus events (43_transport_events.md), the accesses to `NVMCON` and `NVMKEY` (40_nvm_controller.md), and the driver's
operations (41_nvm_driver_ops.md). -/
inductive Instr where
  /-- INCOMPLETE, R201 -/
  | incomplete
  /-- SYNC, R204 -/
  | sync
  /-- INFO, R205 -/
  | info
  /-- BOOT, R207 -/
  | boot
  /-- REBOOT, R208 -/
  | reboot
  /-- WRITE, R209; `data` is as much of the payload `buf_w[3 .. 2+count]` as the buffer has -/
  | write (address count : Word) (data : List Word)
  /-- ERASE, R210 -/
  | erase (address : Word)
  /-- UNKNOWN, R211 -/
  | unknown (opcode : Word)
  /-- AddrWrite, R241 -/
  | addrWrite
  /-- AddrRead, R242 -/
  | addrRead
  /-- DataRx, R243 -/
  | dataRx (b : Byte)
  /-- DataReq, R244 -/
  | dataReq
  /-- DataRx.wrongphase, R245 -/
  | dataRxWrongPhase (b : Byte)
  /-- DataReq.wrongphase, R245 -/
  | dataReqWrongPhase
  /-- NVM.READ.pm, R132 -/
  | nvmReadPm (r l f r2 e : Bool)
  /-- NVM.READ.cfg, R133 -/
  | nvmReadCfg (r l f r2 e : Bool)
  /-- NVM.LATCH, R134 -/
  | nvmLatch (r r2 : Bool)
  /-- NVM.COMMIT, R135 -/
  | nvmCommit (r r2 : Bool)
  /-- NVM.ERASE, R136 -/
  | nvmErase (r l r2 : Bool)
  /-- NVM.NOP, R138 -/
  | nvmNop (r s l f r2 e : Bool)
  /-- NVM.IGNORED, R137; with the `SPACE` bit `s`, since R137 covers both spaces (log entry 8) -/
  | nvmIgnored (r s l f r2 e : Bool)
  /-- NVM.UNDEFINED, R142(a) -/
  | nvmUndefined (r s l f r2 e : Bool)
  /-- NVMKEY.KEY1, R131 -/
  | nvmkeyKey1
  /-- NVMKEY.KEY2, R131 -/
  | nvmkeyKey2
  /-- readWord, R171 -/
  | readWord (address : Word)
  /-- readConfigWord, R172 -/
  | readConfigWord (address : Word)
  /-- readBlock, R173 -/
  | readBlock (address count : Word)
  /-- writeWord.latch, R174 -/
  | writeWordLatch (address data : Word)
  /-- writeWord.commit, R175 -/
  | writeWordCommit (address data : Word)
  /-- eraseRow, R176 -/
  | eraseRow (address : Word)
  /-- RowWrite, R178; `N` is the number of words listed -/
  | rowWrite (address : Word) (words : List Word)
  /-- UnlockAndCommit, R143; its `NVMCON` value is the one the register holds, with `COMMIT` set -/
  | unlockAndCommit
deriving DecidableEq, Repr

end Sys2Proof
end

