-- ==== Sys2Proof/WellFormed.lean ====
section
/-!
DEFINITION. Which terms of `Instr` an encoding stands for: the checks the decoder's results meet and the encoder needs.
-/

namespace Sys2Proof

/-- The six defined opcodes (30_encoding.md R104). -/
def definedOpcodes : List Word := [1, 2, 3, 4, 11, 21]

/-- The most payload words the buffer can hold: `6 + 2*COUNT <= CAP_BYTES` (30_encoding.md R103). -/
def maxPayload : Nat := capWords - 3

/-- A term some encoding stands for.
WRITE carries the payload words that exist in the buffer, `count` of them or the 61 there are (R103);
UNKNOWN carries an opcode outside the defined set (R104); an ignored commit request is one the table's rows
NVM.LATCH, NVM.COMMIT and NVM.ERASE do not match (R111); a driver call names at most 65535 words. -/
def Instr.wellFormed : Instr → Bool
  | .write _ count data => data.length == min count.toNat maxPayload
  | .unknown opcode => !definedOpcodes.contains opcode
  | .nvmIgnored _ s _ _ _ e => s || !e
  | .rowWrite _ words => words.length < 65536
  | .incomplete | .sync | .info | .boot | .reboot | .erase _
  | .addrWrite | .addrRead | .dataRx _ | .dataReq | .dataRxWrongPhase _ | .dataReqWrongPhase
  | .nvmReadPm _ _ _ _ _ | .nvmReadCfg _ _ _ _ _ | .nvmLatch _ _ | .nvmCommit _ _ | .nvmErase _ _ _
  | .nvmNop _ _ _ _ _ _ | .nvmUndefined _ _ _ _ _ _ | .nvmkeyKey1 | .nvmkeyKey2
  | .readWord _ | .readConfigWord _ | .readBlock _ _ | .writeWordLatch _ _ | .writeWordCommit _ _
  | .eraseRow _ | .unlockAndCommit => true

end Sys2Proof
end

