-- ==== Sys2Proof/Decode.lean ====
section
/-!
DEFINITION. The encodings (30_encoding.md), decoder and encoder.

WHERE AN INSTRUCTION STANDS SAYS HOW ITS BITS ARE READ. The table's rows share bit patterns: 0x01 is a write of
`NVMCON` that reads program space, the row of `readWord`, the row of `readBlock`, and the event code of DataReq.
What tells them apart is not in the bits: a command stands in the command buffer when the host addresses the device
for reading, an event on the event lines, an access at the register it writes, a call at the driver's entry.
That place is the decoder's first argument, `Source` (log entry 6).
-/

namespace Sys2Proof

open Machine

/-- Where an instruction stands. -/
inductive Source where
  /-- the command buffer, with `len` bytes held; its bytes from `buf[0]` on (R100) -/
  | buffer (len : Nat)
  /-- the event lines, in this phase: the event code, then the data byte (R112) -/
  | busEvent (phase : Phase)
  /-- a byte written to `NVMCON` (R111) -/
  | nvmcon
  /-- a byte written to `NVMKEY` (R113) -/
  | nvmkey
  /-- a driver call: the table's byte, the entry's number, the operands (log entry 7) -/
  | call
deriving DecidableEq, Repr

/-- Why bytes stand for no instruction, by name. -/
inductive DecodeError where
  /-- no byte where one is needed -/
  | noByte
  /-- an event code is 2 bits (R112) -/
  | noSuchEvent
  /-- a byte written to `NVMKEY` that is neither `KEY1` nor `KEY2`: an access with no row (R131, R140) -/
  | notAKey
  /-- a call's entry number that names no driver operation -/
  | noSuchCall
  /-- a call's first byte is not the table's for that operation -/
  | wrongCallByte
  /-- a call with fewer operand bytes than its operation takes -/
  | missingOperands
deriving DecidableEq, Repr

/-! ### Bytes and words (20_memory.md R71, R89): low byte first -/

/-- `hi ‖ lo`. -/
def wordOf (lo hi : Byte) : Word := hi ++ lo

/-- `v[7:0]`. -/
def loByte (v : Word) : Byte := v.setWidth 8

/-- `v[15:8]`. -/
def hiByte (v : Word) : Byte := (v >>> 8).setWidth 8

/-- A word's two bytes in order on the wire (R89). -/
def wordBytes (v : Word) : List Byte := [loByte v, hiByte v]

/-- The bytes of a list of words. -/
def wordsBytes (ws : List Word) : List Byte := ws.flatMap wordBytes

/-- Word `i` of a frame: bytes `2i` and `2i+1` (R71). -/
def frameWord (bs : List Byte) (i : Nat) : Word := wordOf (bs.getD (2 * i) 0) (bs.getD (2 * i + 1) 0)

/-- `n` words of a frame from word `i` on. -/
def frameWords (bs : List Byte) (i n : Nat) : List Word := (List.range n).map fun k => frameWord bs (i + k)

/-! ### Commands (R100 to R109) -/

/-- What the dispatcher selects: the completeness check first, the opcode second (R105). -/
inductive CommandKind where
  | incomplete
  | sync
  | info
  | boot
  | reboot
  | write
  | erase
  | unknown
deriving DecidableEq, Repr

/-- The selection of R105 and R104; all 16 bits of the opcode are compared (decision D29). -/
def commandKind (len : Nat) (opcode : Word) : CommandKind :=
  if len < minCmdBytes then .incomplete
  else if opcode = 1 then .sync
  else if opcode = 2 then .info
  else if opcode = 3 then .boot
  else if opcode = 4 then .reboot
  else if opcode = 11 then .write
  else if opcode = 21 then .erase
  else .unknown

/-- ADDRESS, frame word 1 (R102, R103). -/
def frameAddress (bs : List Byte) : Word := frameWord bs 1

/-- COUNT, frame word 2 (R103). -/
def frameCount (bs : List Byte) : Word := frameWord bs 2

/-- `DATA[i]`, frame words from 3 on: COUNT of them, or the 61 the buffer has (R103, R106). -/
def framePayload (bs : List Byte) : List Word := frameWords bs 3 (min (frameCount bs).toNat maxPayload)

/-- The command in a buffer that holds `len` bytes. -/
def decodeCommand (len : Nat) (bs : List Byte) : Instr :=
  match commandKind len (frameWord bs 0) with
  | .incomplete => .incomplete
  | .sync => .sync
  | .info => .info
  | .boot => .boot
  | .reboot => .reboot
  | .write => .write (frameAddress bs) (frameCount bs) (framePayload bs)
  | .erase => .erase (frameAddress bs)
  | .unknown => .unknown (frameWord bs 0)

/-! ### Bus events (R112) -/

/-- The event `ev_addr ‖ ev_read` with its byte; a data event in a phase that has no transition for it is a row of its own (R245). -/
def decodeEvent (phase : Phase) (addr read : Bool) (data : Byte) : Instr :=
  match addr, read with
  | true, false => .addrWrite
  | true, true => .addrRead
  | false, false => if phase = .receiving then .dataRx data else .dataRxWrongPhase data
  | false, true => if phase = .replying then .dataReq else .dataReqWrongPhase

/-- The event whose code is the first byte. -/
def decodeEventBytes (phase : Phase) (bs : List Byte) : Except DecodeError Instr :=
  match bs with
  | [] => .error .noByte
  | code :: rest =>
    if code.toNat < 4 then .ok (decodeEvent phase (code.getLsbD 1) (code.getLsbD 0) (rest.getD 0 0))
    else .error .noSuchEvent

/-! ### Accesses to `NVMCON` and `NVMKEY` (R111, R113) -/

/-- The byte `b7 b6 … b0`. -/
def byteOfBits (b7 b6 b5 b4 b3 b2 b1 b0 : Bool) : Byte :=
  BitVec.ofBool b7 ++ BitVec.ofBool b6 ++ BitVec.ofBool b5 ++ BitVec.ofBool b4 ++
    BitVec.ofBool b3 ++ BitVec.ofBool b2 ++ BitVec.ofBool b1 ++ BitVec.ofBool b0

/-- The row of a write of `v` to `NVMCON` (R111); every byte has one. Whether a commit request is performed also
depends on the sequencer, which the rows' meanings read. -/
def decodeNvmcon (v : Byte) : Instr :=
  let r := v.getLsbD 7
  let s := v.getLsbD 6
  let l := v.getLsbD 5
  let f := v.getLsbD 4
  let r2 := v.getLsbD 3
  let e := v.getLsbD 2
  match v.getLsbD 1, v.getLsbD 0 with
  | false, false => .nvmNop r s l f r2 e
  | false, true => if s then .nvmReadCfg r l f r2 e else .nvmReadPm r l f r2 e
  | true, true => .nvmUndefined r s l f r2 e
  | true, false =>
    if s || !e then .nvmIgnored r s l f r2 e
    else if f then .nvmErase r l r2
    else if l then .nvmLatch r r2
    else .nvmCommit r r2

/-- The row of a write of `v` to `NVMKEY` of a device with the unlock values `k` (R10, R113). -/
def decodeNvmkey (k : Keys) (v : Byte) : Except DecodeError Instr :=
  if v = k.key1 then .ok .nvmkeyKey1
  else if v = k.key2 then .ok .nvmkeyKey2
  else .error .notAKey

/-! ### Driver calls (log entry 7) -/

/-- A call whose first byte must be `want` and whose operands are `need` words. -/
def callOf (code want : Byte) (args : List Byte) (need : Nat) (i : Instr) : Except DecodeError Instr :=
  if code ≠ want then .error .wrongCallByte
  else if args.length < 2 * need then .error .missingOperands
  else .ok i

/-- The driver call in these bytes. -/
def decodeCall (bs : List Byte) : Except DecodeError Instr :=
  match bs with
  | code :: entry :: args =>
    if entry = 0 then callOf code 0x01 args 1 (.readWord (frameWord args 0))
    else if entry = 1 then callOf code 0x41 args 1 (.readConfigWord (frameWord args 0))
    else if entry = 2 then callOf code 0x01 args 2 (.readBlock (frameWord args 0) (frameWord args 1))
    else if entry = 3 then callOf code 0x26 args 2 (.writeWordLatch (frameWord args 0) (frameWord args 1))
    else if entry = 4 then callOf code 0x06 args 2 (.writeWordCommit (frameWord args 0) (frameWord args 1))
    else if entry = 5 then callOf code 0x16 args 1 (.eraseRow (frameWord args 0))
    else if entry = 6 then
      callOf code 0x06 args (2 + (frameWord args 1).toNat)
        (.rowWrite (frameWord args 0) (frameWords args 2 (frameWord args 1).toNat))
    else if entry = 7 then callOf (code &&& 0x03) 0x02 args 0 .unlockAndCommit
    else .error .noSuchCall
  | _ => .error .noByte

/-! ### The decoder and the encoder -/

/-- The instruction the bytes at a place stand for, on a device with the unlock values `k` (R10); total, rejecting by name.
Bytes past the instruction are not read. -/
def decode (k : Keys) (src : Source) (bs : List Byte) : Except DecodeError Instr :=
  match src with
  | .buffer len => .ok (decodeCommand len bs)
  | .busEvent phase => decodeEventBytes phase bs
  | .nvmcon => match bs with | [] => .error .noByte | v :: _ => .ok (decodeNvmcon v)
  | .nvmkey => match bs with | [] => .error .noByte | v :: _ => decodeNvmkey k v
  | .call => decodeCall bs

/-- The bytes of an instruction on a device with the unlock values `k`, from the same tables. -/
def encode (k : Keys) (i : Instr) : List Byte :=
  match i with
  | .incomplete => []
  | .sync => wordBytes 1
  | .info => wordBytes 2
  | .boot => wordBytes 3
  | .reboot => wordBytes 4
  | .write address count data => wordBytes 11 ++ wordBytes address ++ wordBytes count ++ wordsBytes data
  | .erase address => wordBytes 21 ++ wordBytes address
  | .unknown opcode => wordBytes opcode
  | .addrWrite => [2]
  | .addrRead => [3]
  | .dataRx b => [0, b]
  | .dataReq => [1]
  | .dataRxWrongPhase b => [0, b]
  | .dataReqWrongPhase => [1]
  | .nvmReadPm r l f r2 e => [byteOfBits r false l f r2 e false true]
  | .nvmReadCfg r l f r2 e => [byteOfBits r true l f r2 e false true]
  | .nvmLatch r r2 => [byteOfBits r false true false r2 true true false]
  | .nvmCommit r r2 => [byteOfBits r false false false r2 true true false]
  | .nvmErase r l r2 => [byteOfBits r false l true r2 true true false]
  | .nvmNop r s l f r2 e => [byteOfBits r s l f r2 e false false]
  | .nvmIgnored r s l f r2 e => [byteOfBits r s l f r2 e true false]
  | .nvmUndefined r s l f r2 e => [byteOfBits r s l f r2 e true true]
  | .nvmkeyKey1 => [k.key1]
  | .nvmkeyKey2 => [k.key2]
  | .readWord address => [0x01, 0] ++ wordBytes address
  | .readConfigWord address => [0x41, 1] ++ wordBytes address
  | .readBlock address count => [0x01, 2] ++ wordBytes address ++ wordBytes count
  | .writeWordLatch address data => [0x26, 3] ++ wordBytes address ++ wordBytes data
  | .writeWordCommit address data => [0x06, 4] ++ wordBytes address ++ wordBytes data
  | .eraseRow address => [0x16, 5] ++ wordBytes address
  | .rowWrite address words =>
    [0x06, 6] ++ wordBytes address ++ wordBytes (BitVec.ofNat 16 words.length) ++ wordsBytes words
  | .unlockAndCommit => [0x02, 7]

/-- The places an instruction can stand at: its row's format, with the row's condition on `len` or `phase`. -/
def Instr.standsAt (i : Instr) (src : Source) : Prop :=
  match i with
  | .incomplete => ∃ len, len < minCmdBytes ∧ src = .buffer len
  | .sync | .info | .boot | .reboot | .write _ _ _ | .erase _ | .unknown _ =>
    ∃ len, minCmdBytes ≤ len ∧ src = .buffer len
  | .addrWrite | .addrRead => ∃ phase, src = .busEvent phase
  | .dataRx _ => src = .busEvent .receiving
  | .dataReq => src = .busEvent .replying
  | .dataRxWrongPhase _ => ∃ phase, phase ≠ .receiving ∧ src = .busEvent phase
  | .dataReqWrongPhase => ∃ phase, phase ≠ .replying ∧ src = .busEvent phase
  | .nvmReadPm _ _ _ _ _ | .nvmReadCfg _ _ _ _ _ | .nvmLatch _ _ | .nvmCommit _ _ | .nvmErase _ _ _
  | .nvmNop _ _ _ _ _ _ | .nvmIgnored _ _ _ _ _ _ | .nvmUndefined _ _ _ _ _ _ => src = .nvmcon
  | .nvmkeyKey1 | .nvmkeyKey2 => src = .nvmkey
  | .readWord _ | .readConfigWord _ | .readBlock _ _ | .writeWordLatch _ _ | .writeWordCommit _ _
  | .eraseRow _ | .rowWrite _ _ | .unlockAndCommit => src = .call

/-! ### The table's words -/

/-- The `n` bytes of a word numbered as the table numbers its bits: bits 7..0 first. -/
def tableBytes : Nat → Nat → List Byte
  | 0, _ => []
  | n + 1, w => BitVec.ofNat 8 w :: tableBytes n (w / 256)

/-- Where a table word of `nbits` bits stands (log entry 6): a command word in the buffer, with as many bytes held as
the word has (at most the opcode's two); a byte at `NVMKEY` if it is one of the table's two keys, else at `NVMCON`. -/
def tableSource (nbits w : Nat) : Source :=
  if nbits = 0 then .buffer 0
  else if 16 ≤ nbits then .buffer minCmdBytes
  else if BitVec.ofNat 8 w = defaultKeys.key1 ∨ BitVec.ofNat 8 w = defaultKeys.key2 then .nvmkey
  else .nvmcon

/-- The bytes of a table word, zeros after them up to the longest instruction. -/
def tableFrame (nbits w : Nat) : List Byte := tableBytes capBytes (w % 2 ^ nbits)

/-- The instruction the decoder reads from a table word. -/
def decodeTableWord (nbits w : Nat) : Option Instr :=
  match decode defaultKeys (tableSource nbits w) (tableFrame nbits w) with
  | .ok i => some i
  | .error _ => none

end Sys2Proof
end

