-- ==== Sys2Proof/Machine/Device.lean ====
section
/-!
DEFINITION. The quantities the rules use, computed from a device's parameters (00_scope.md R8, R9), and what the
non-volatile arrays hold when the block is first used (10_state.md R48, R49).
-/

namespace Sys2Proof

/-- `W = PM_WORD_BITS`, 1 to 16 (R8). -/
def Config.wordBits (c : Config) : Nat := c.widthIdx.val + 1

/-- `ROW_WORDS`, a power of two, at least 2 (R8). -/
def Config.rowWords (c : Config) : Nat := 2 ^ (c.rowIdx.val + 1)

/-- `FLASH_WORDS`, a positive multiple of `ROW_WORDS`, at most 65536 (R8). -/
def Config.flashWords (c : Config) : Nat := c.rowWords * (c.flashIdx % (65536 / c.rowWords) + 1)

/-- A word cut to the `W` bits of a program word and extended with zeros again (decision D4; log entry 20, DESIGN CHOICE). -/
def Config.trunc (c : Config) (v : Word) : Word := (v.setWidth c.wordBits).setWidth 16

/-- `ERASE_VALUE = 2^W - 1` (R8). -/
def Config.eraseValue (c : Config) : Word := c.trunc (BitVec.allOnes 16)

/-- `Prog(old, v)`: a `W`-bit result, and `Prog(ERASE_VALUE, v) = v` (R8, decision D10). -/
def Config.prog (c : Config) (old v : Word) : Word :=
  c.trunc (if old = c.eraseValue then v else if c.progIsAnd then old &&& v else Config.progRaw old v)

/-- `INFO_TEXT`, at most 100 bytes (R9). -/
def Config.text (c : Config) : List Byte := c.infoText.take 100

/-- `TEXT_WORDS = ceil(T / 2)` (R9). -/
def Config.textWords (c : Config) : Nat := (c.text.length + 1) / 2

/-- `INFO_WORDS = 14 + TEXT_WORDS` (R9). -/
def Config.infoWords (c : Config) : Nat := 14 + c.textWords

/-- `INFO_SIZE = 2 * INFO_WORDS` (R9). -/
def Config.infoSize (c : Config) : Nat := 2 * c.infoWords

namespace Machine

/-- One program word at an address (20_memory.md R70: the element of `PM`, `CFG` and of the write latches). -/
abbrev WordCell := Nat × Word

/-- What an unlisted program address reads as: the erased word. -/
def pmDefault (c : Config) (_a : Nat) : Word := c.eraseValue

/-- What an unlisted configuration address reads as. -/
def cfgDefault (c : Config) (_a : Nat) : Word := c.eraseValue

/-- Whether a configuration address is populated (20_memory.md R75). -/
def inCfg (c : Config) (a : Nat) : Bool := c.cfgBase.toNat ≤ a && a < c.cfgBase.toNat + c.cfgWords

/-- `pm_init` in canonical form, program words of `W` bits (R48). -/
def initialPm (c : Config) : List WordCell :=
  cellsOf (pmDefault c) (fun a => a < c.flashWords) (c.pmInit.map fun p => (p.1, c.trunc p.2))

/-- `cfg_init` in canonical form (R49). -/
def initialCfg (c : Config) : List WordCell :=
  cellsOf (cfgDefault c) (inCfg c) (c.cfgInit.map fun p => (p.1, c.trunc p.2))

end Machine

end Sys2Proof
end

