-- ==== Sys2Proof/Machine/State.lean ====
section
/-!
DEFINITION. The state of the block (10_state.md R20 to R52, 70_reset_and_hazards.md R311), what the outside world
does to it, the reasons a step can stop, and the state after reset.
-/

namespace Sys2Proof.Machine

/-- One bit at an index (`loaded[i]`, R46). -/
abbrev FlagCell := Nat × Bool

/-- One access to the controller (40_nvm_controller.md R130), or an idle slot. -/
inductive Access where
  /-- `RegWrite(NVMADR, v)` -/
  | writeAdr (v : Word)
  /-- `RegWrite(NVMDAT, v)` -/
  | writeDat (v : Word)
  /-- `RegWrite(NVMCON, v)` -/
  | writeCon (v : Byte)
  /-- `RegWrite(NVMKEY, v)` -/
  | writeKey (v : Byte)
  /-- `RegRead(r)` -/
  | read (r : NvmReg)
  /-- `Idle()` -/
  | idle
deriving DecidableEq, Repr

/-- One thing the outside world does (log entry 9). The spec's inputs are the bus events and their bytes (R19);
its register-level and driver-level programs (95_test_vectors.md 2.1, 2.2) are accesses and calls by the software of the
surrounding processor, which also owns `GIE` (R44), and a reset ends any run (R28). -/
inductive Input where
  /-- the bus interface signals an event (60_exceptions.md R286) -/
  | event (addr read : Bool) (data : Byte)
  /-- software makes one access to the controller -/
  | access (a : Access)
  /-- software calls a driver operation, in the bytes Decode.lean reads -/
  | call (bytes : List Byte)
  /-- the surrounding processor sets the global interrupt enable (R15, R44) -/
  | setGie (b : Bool)
  /-- a hardware reset; `struck` is an address of the row that was being erased or programmed, if one was (R312) -/
  | reset (struck : Option Word)
deriving DecidableEq, Repr

/-- Why the machine stops. -/
inductive Fault where
  /-- `run = Left`: REBOOT has left for the application and "the block takes no further step" (R250, R333).
  Raised by `step` alone. Safe: the spec gives no step here, and the model takes none (log entry 10, DESIGN CHOICE). -/
  | runEnded
  /-- A byte access to `BUF` at a cursor above 127, an address the spec says does not exist (20_memory.md R72).
  Raised by DataRx and DataReq. Safe: no state a run from reset reaches has such a cursor (R26; log entry 13, DESIGN CHOICE). -/
  | bufferBounds
deriving DecidableEq, Repr

/-- Why an instruction is given no meaning. Each but the first is a `refuse` of 93_implementation_defined.md, and safe:
a claim about such a case cannot be proved. -/
inductive Refusal where
  /-- An instruction whose meaning is not written yet. No arm of `exec` answers it. -/
  | notModelled (mnemonic : String)
  /-- U1: a row write whose addresses are not all in one row (R178(b), R212(b)). Raised by RowWrite and WRITE. -/
  | rowCrossing
  /-- U2: an erase or write at an address outside program memory (R142(c)), or, by the commands WRITE and ERASE and by
  RowWrite, of a row that holds the bootloader (R82). -/
  | invalidTarget
  /-- U4: `NVMCON` written with `READ` and `COMMIT` both 1 (R142(a)). Raised by NVM.UNDEFINED. -/
  | readWithCommit
  /-- U4: a commit request that would be performed on the configuration space (R142(b)). Raised by NVM.IGNORED's pattern
  with `SPACE = 1` when unlocked and enabled. -/
  | commitToConfig
  /-- U5: WRITE with a count above 61 (R212(a)). -/
  | payloadPastBuffer
  /-- U6: the handshake performed with `GIE = 1` (R143). Raised by UnlockAndCommit. -/
  | preemptibleHandshake
  /-- The bytes of a call stand for no driver operation; the spec has no such call. Raised by `step` alone. -/
  | notACall
deriving DecidableEq, Repr

/-- The state. A line names the rule that gives the element. -/
structure State where
  /-- MODEL's own: the parameters of the device, the argument the model takes (00_scope.md R8); no step changes it -/
  dev : Config
  /-- `buf[0..127]` (R21): the bytes written since the buffer was last unspecified; one that is not listed has no
  value the spec gives, and reads as the free value `Config.anyByte bufEpoch i` (U9) -/
  buf : List Host.Cell
  /-- MODEL's own: how often the buffer became unspecified (R21, R277) -/
  bufEpoch : Nat
  /-- R23 -/
  wrPtr : BitVec 8
  /-- R24 -/
  rdPtr : BitVec 8
  /-- R25 -/
  len : BitVec 8
  /-- R27 -/
  phase : Phase
  /-- R28 -/
  run : Run
  /-- R31 -/
  evtPending : Bool
  /-- R32 -/
  clkHold : Bool
  /-- input signal, R33; after the handler it holds the last event's value (log entry 27, DESIGN CHOICE) -/
  evAddr : Bool
  /-- input signal, R33; as `evAddr` -/
  evRead : Bool
  /-- input signal, R33; as `evAddr` -/
  evData : Byte
  /-- output signal, R33: the byte supplied by the last step, `none` where it drove none -/
  txData : Option Byte
  /-- output pulse of the last step, R34 -/
  goApp : Bool
  /-- output pulse of the last step, R34 -/
  goBoot : Bool
  /-- the target of `pc <- …` in the last step, an output to the surrounding processor (R14, R34) -/
  pcOut : Option Word
  /-- R41 -/
  nvmadr : Word
  /-- R42 -/
  nvmdat : Word
  /-- R43: `SPACE`, `LATCHONLY`, `ERASE`, `EN` at bits 6, 5, 4, 2; the other bits hold 0 -/
  nvmcon : Byte
  /-- `latch[0..ROW_WORDS-1]`, R46; an index not listed holds 0 -/
  latch : List WordCell
  /-- `loaded[0..ROW_WORDS-1]`, R46; an index not listed holds 0 -/
  loaded : List FlagCell
  /-- R47 -/
  unlock : Unlock
  /-- `pm[0..FLASH_WORDS-1]`, R48; an address not listed holds `ERASE_VALUE` -/
  pm : List WordCell
  /-- `cfg[CFG_BASE..]`, R49; an address not listed holds `ERASE_VALUE` -/
  cfg : List WordCell
  /-- R44 -/
  gie : Bool
  /-- R50 (log entry 21, DESIGN CHOICE) -/
  gieSaved : Bool
  /-- MODEL's own: how many free words have been drawn -/
  draws : Nat
  /-- MODEL's own: what the last step returned to the software that made an access or a call (R171 to R173, R139) -/
  result : List Word
  /-- MODEL's own: what the outside world does next, oldest first (R19) -/
  inputs : List Input
deriving DecidableEq, Repr

/-- What a step or a meaning answers. -/
abbrev Result := Host.Outcome State Fault Refusal

/-- The state after reset of a device with parameters `c` (R311). `buf` is unspecified: nothing is listed.
`pm` and `cfg` are the inputs `pm_init` and `cfg_init` (log entry 12). `NVMADR`,
`NVMDAT`, the latches, the event inputs and the outputs have no reset value in the spec; log entry 2 names the ones here. -/
def State.resetOf (c : Config) : State where
  dev := c
  buf := []
  bufEpoch := 0
  wrPtr := 0
  rdPtr := 0
  len := 0
  phase := .address
  run := .active
  evtPending := false
  clkHold := false
  evAddr := false
  evRead := false
  evData := 0
  txData := none
  goApp := false
  goBoot := false
  pcOut := none
  nvmadr := 0
  nvmdat := 0
  nvmcon := 0
  latch := []
  loaded := []
  unlock := .locked
  pm := initialPm c
  cfg := initialCfg c
  gie := c.gieReset
  gieSaved := false
  draws := 0
  result := []
  inputs := []

/-- The machine right after reset (R311). -/
def State.reset : State := State.resetOf Config.device

end Sys2Proof.Machine
end

