-- ==== Sys2Proof/Machine/Flags.lean ====
section
/-!
DEFINITION. The block has no condition flags (10_state.md R35). What stands here is what plays their part: the fields of
`NVMCON` (R43) and the unlock sequencer's moves (40_nvm_controller.md R131).
-/

namespace Sys2Proof.Machine

/-- The bits of `NVMCON` that hold state: `SPACE`, `LATCHONLY`, `ERASE`, `EN` (R43). -/
def nvmconMask : Byte := 0x74

/-- What `NVMCON` holds after a write of `v`: bits 7 and 3 are ignored, `COMMIT` and `READ` read 0 (R43, R138). -/
def nvmconHeld (v : Byte) : Byte := v &&& nvmconMask

/-- `SPACE`, bit 6. -/
def conSpace (v : Byte) : Bool := v.getLsbD 6
/-- `LATCHONLY`, bit 5. -/
def conLatchOnly (v : Byte) : Bool := v.getLsbD 5
/-- `ERASE`, bit 4. -/
def conErase (v : Byte) : Bool := v.getLsbD 4
/-- `EN`, bit 2. -/
def conEn (v : Byte) : Bool := v.getLsbD 2
/-- `COMMIT`, bit 1. -/
def conCommit (v : Byte) : Bool := v.getLsbD 1
/-- `READ`, bit 0. -/
def conRead (v : Byte) : Bool := v.getLsbD 0

/-- `v` with `COMMIT = 1` (R15, R143). -/
def withCommit (v : Byte) : Byte := v ||| 0x02

/-- `v` with `EN = 0` (41_nvm_driver_ops.md R177 step 4). -/
def withoutEn (v : Byte) : Byte := v &&& 0xFB

/-- The sequencer on a write of `v` to `NVMKEY`, the unlock values being `k` (R131). Every other access but `Idle()` leaves it `Locked`. -/
def unlockOnKey (k : Keys) (u : Unlock) (v : Byte) : Unlock :=
  match u with
  | .locked => if v = k.key1 then .key1Seen else .locked
  | .key1Seen => if v = k.key2 then .unlocked else .locked
  | .unlocked => .locked

end Sys2Proof.Machine
end

