-- ==== Sys2Proof/Machine/Ops.lean ====
section
/-!
DEFINITION. The named operations over the block's storage, the reply primitive, the error classes with what raising
one does, and the two control transfers. The operations of the NVM controller are in Nvm.lean.
-/

namespace Sys2Proof.Machine

/-- Continue with `f` from a next state; a stop stays a stop. -/
def andThen (r : Result) (f : State → Result) : Result :=
  match r with
  | .next s => f s
  | .fault x => .fault x
  | .refused x => .refused x

/-! ### The command buffer (10_state.md R21, 20_memory.md R70 to R73) -/

/-- `buf[i]`. -/
def bufByte (s : State) (i : Nat) : Byte := cellsLoad (Config.anyByte s.bufEpoch) s.buf i

/-- `buf[i] <- b`. -/
def setBufByte (i : Nat) (b : Byte) (s : State) : State := { s with buf := cellsInsert s.buf i b }

/-- `buf_w[i]` (R71). -/
def bufWord (s : State) (i : Nat) : Word := wordOf (bufByte s (2 * i)) (bufByte s (2 * i + 1))

/-- The entries of the buffer after `buf_w[i], buf_w[i+1], … <- ws`, each word's low byte at the even offset (R71). -/
def insertWords (i : Nat) : List Word → List Host.Cell → List Host.Cell
  | [], m => m
  | v :: ws, m => insertWords (i + 1) ws (cellsInsert (cellsInsert m (2 * i) (loByte v)) (2 * i + 1) (hiByte v))

/-- `buf_w[i], buf_w[i+1], … <- ws`. -/
def setBufWords (i : Nat) (ws : List Word) (s : State) : State := { s with buf := insertWords i ws s.buf }

/-- `buf_w[i] <- v` (R71). -/
def setBufWord (i : Nat) (v : Word) (s : State) : State := setBufWords i [v] s

/-- All 128 bytes of the buffer, from `buf[0]` on. -/
def bufBytes (s : State) : List Byte := (List.range capBytes).map (bufByte s)

/-! ### Program memory and configuration space (20_memory.md R74, R75, R78) -/

/-- `pm[a]`, zero-extended to 16 bits. -/
def pmWord (s : State) (a : Nat) : Word := s.dev.trunc (cellsLoad (pmDefault s.dev) s.pm a)

/-- `cfg[a]`, zero-extended to 16 bits. -/
def cfgWord (s : State) (a : Nat) : Word := s.dev.trunc (cellsLoad (cfgDefault s.dev) s.cfg a)

/-- The latch index of an address (R78). -/
def latchIndex (c : Config) (a : Nat) : Nat := a % c.rowWords

/-- `rowbase(a)` (R78). -/
def rowBase (c : Config) (a : Nat) : Nat := a - a % c.rowWords

/-- Change cells of the row that begins at `base`: cell `base+i` takes `f i` where that is some word. One indivisible
change of `pm` (20_memory.md R79): every `f i` is fixed beforehand. -/
def setPmRow (base : Nat) (f : Nat → Option Word) (s : State) : State :=
  { s with pm := cellsStoreRange (pmDefault s.dev) base (fun i => (f i).map s.dev.trunc) s.dev.rowWords s.pm }

/-- Whether `n` words from `address` lie in program memory and their first one's row is not the bootloader's (R82; log entry 17, DEDUCED). -/
def validTarget (c : Config) (address : Word) (n : Nat) : Bool :=
  address.toNat + n ≤ c.flashWords && !c.bootRows.contains (address.toNat / c.rowWords)

/-- Whether `n` words from `address` lie in one row (41_nvm_driver_ops.md R178(b)). -/
def inOneRow (c : Config) (address : Word) (n : Nat) : Bool := latchIndex c address.toNat + n ≤ c.rowWords

/-! ### The write latches (R46) -/

/-- `latch[i]`, a program word. -/
def latchWord (s : State) (i : Nat) : Word := s.dev.trunc (cellsLoad (fun _ => 0) s.latch i)

/-- `loaded[i]`. -/
def isLoaded (s : State) (i : Nat) : Bool := cellsLoad (fun _ => false) s.loaded i

/-- `latch[i] <- v[W-1:0]; loaded[i] <- 1`. -/
def loadLatch (i : Nat) (v : Word) (s : State) : State :=
  { s with
    latch := cellsStore (fun _ => 0) s.latch i (s.dev.trunc v)
    loaded := cellsStore (fun _ => false) s.loaded i true }

/-- `pm[base+i] <- Prog(pm[base+i], latch[i])` for every loaded `i` at once, then every `loaded[i] <- 0` (R135). -/
def commitRow (base : Nat) (s : State) : State :=
  { setPmRow base (fun i => if isLoaded s i then some (s.dev.prog (pmWord s (base + i)) (latchWord s i)) else none) s with
    loaded := [] }

/-! ### The canonical form of what the state stores sparsely -/

/-- `buf`, `pm`, `cfg`, `latch` and `loaded` are each in canonical form: addresses that exist, strictly rising; program words
of `W` bits; no entry equal to what an unlisted address reads as. (An unlisted byte of `buf` has no value of its own.) -/
def Memory.wf (s : State) : Bool :=
  cellsWf (fun a _ => a < capBytes) s.buf &&
  cellsWf (fun a v => a < s.dev.flashWords && s.dev.trunc v == v && v != pmDefault s.dev a) s.pm &&
  cellsWf (fun a v => inCfg s.dev a && s.dev.trunc v == v && v != cfgDefault s.dev a) s.cfg &&
  cellsWf (fun a v => a < s.dev.rowWords && s.dev.trunc v == v && v != 0) s.latch &&
  cellsWf (fun a v => a < s.dev.rowWords && v) s.loaded

/-! ### Replies (42_dispatcher_commands.md R202, R205) -/

/-- `Reply(v)` (R202). -/
def reply (v : Word) (s : State) : State := { setBufWord 0 v s with rdPtr := 0, len := 2 }

/-! ### The control transfers and the error classes (60_exceptions.md R270 to R277) -/

/-- `transferControlToApplication()` (R276): nothing is saved; the clock hold is not released here (log entry 24, DEDUCED). -/
def leaveForApplication (s : State) : State :=
  { s with run := .left, goApp := true, pcOut := some s.dev.appEntry }

/-- `transferControlToBootloaderEntry()` and the re-initialisation it leads to (R277): nothing is saved; the NVM
registers, the latches, the sequencer, `pm` and `cfg` stay; the buffer becomes unspecified (log entry 25, DEDUCED).
The event inputs, not valid now (R33), keep the last event's values (log entry 27, DESIGN CHOICE). -/
def reenterBootloader (s : State) : State :=
  { s with
    buf := [], bufEpoch := s.bufEpoch + 1
    len := 0, wrPtr := 0, rdPtr := 0
    phase := .address, run := .active
    evtPending := false, clkHold := false
    gie := s.dev.gieReset
    goBoot := true, pcOut := some s.dev.bootStart }

/-- The error classes the block detects (R270); operands out of range are the fourth class and are not detected (R274). -/
inductive ErrorClass where
  /-- R271 -/
  | incompleteCommand
  /-- R272 -/
  | bufferOverflow
  /-- R273; the opcode is not recorded anywhere -/
  | unknownOpcode (opcode : Word)
deriving DecidableEq, Repr

/-- `raise` (R14): exactly the actions R270 gives the class. There is no return from one (R282). -/
def raise (e : ErrorClass) (s : State) : State :=
  match e with
  | .incompleteCommand => reply 0x0000 s
  | .bufferOverflow => s
  | .unknownOpcode _ => reenterBootloader s

end Sys2Proof.Machine
end

