-- ==== Sys2Proof/Machine/Nvm.lean ====
section
/-!
DEFINITION. The NVM controller (40_nvm_controller.md): what each access to its registers does, and the meanings of the
ten rows that are accesses to `NVMCON` and `NVMKEY`. Every one of those rows is a register write of a byte of its pattern;
what the write starts is decided once, in `regWriteCon`.
-/

namespace Sys2Proof.Machine

/-! ### Accesses (R130, R138 to R141) -/

/-- `RegWrite(NVMADR, v)` (R139). -/
def regWriteAdr (v : Word) (s : State) : State := { s with nvmadr := v, unlock := .locked }

/-- `RegWrite(NVMDAT, v)` (R139). -/
def regWriteDat (v : Word) (s : State) : State := { s with nvmdat := v, unlock := .locked }

/-- `RegWrite(NVMKEY, v)`: stores nothing, moves the sequencer (R131, R140). -/
def regWriteKey (v : Byte) (s : State) : State := { s with unlock := unlockOnKey s.dev.keys s.unlock v }

/-- What `RegRead(r)` returns, extended to 16 bits (R138 to R140): of `NVMCON` the four fields, of `NVMKEY` 0. -/
def regValue (s : State) : NvmReg → Word
  | .adr => s.nvmadr
  | .dat => s.nvmdat
  | .con => (nvmconHeld s.nvmcon).setWidth 16
  | .key => 0

/-- `RegRead(r)` as an access: an "other register access" for the sequencer (R131). -/
def regRead (_r : NvmReg) (s : State) : State := { s with unlock := .locked }

/-- `Idle()` changes no state of the controller (R141; log entry 23). -/
def idle (s : State) : State := s

/-- `Idle() x n`. -/
def idleFor : Nat → State → State
  | 0, s => s
  | n + 1, s => idleFor n (idle s)

/-- The update of `NVMCON`'s fields that every write of it makes, and the sequencer's relock (R131, R138). -/
def updateFields (v : Byte) (s : State) : State := { s with nvmcon := nvmconHeld v, unlock := .locked }

/-! ### Operations (R132 to R136) -/

/-- `NVMDAT <- v`. -/
def setDat (v : Word) (s : State) : State := { s with nvmdat := v }

/-- `NVMDAT <- any value` (U3): any program word of `W` bits, zero-extended as every read result is (R42, R132; log entry 5). -/
def setDatAny (s : State) : State :=
  { s with nvmdat := s.dev.trunc (Config.anyWord s.draws), draws := s.draws + 1 }

/-- NVM.READ of program space (R132). -/
def readPm (s : State) : State :=
  if s.nvmadr.toNat < s.dev.flashWords then setDat (pmWord s s.nvmadr.toNat) s else setDatAny s

/-- NVM.READ of configuration space (R133). -/
def readCfg (s : State) : State :=
  if inCfg s.dev s.nvmadr.toNat then setDat (cfgWord s s.nvmadr.toNat) s else setDatAny s

/-- NVM.LATCH (R134). -/
def doLatch (s : State) : State := loadLatch (latchIndex s.dev s.nvmadr.toNat) s.nvmdat s

/-- NVM.COMMIT (R135), refused outside program memory (R142(c)). -/
def doCommit (s : State) : Result :=
  if s.nvmadr.toNat < s.dev.flashWords then .next (commitRow (rowBase s.dev s.nvmadr.toNat) (doLatch s))
  else .refused .invalidTarget

/-- NVM.ERASE (R136), refused outside program memory (R142(c)). -/
def doErase (s : State) : Result :=
  if s.nvmadr.toNat < s.dev.flashWords then
    .next (setPmRow (rowBase s.dev s.nvmadr.toNat) (fun _ => some s.dev.eraseValue) s)
  else .refused .invalidTarget

/-- The operation a performed commit request selects by its fields (30_encoding.md R111): none on the configuration space
(R142(b)); `ERASE` before `LATCHONLY` (R136). -/
def commitOperation (v : Byte) (s : State) : Result :=
  if conSpace v then .refused .commitToConfig
  else if conErase v then doErase s
  else if conLatchOnly v then .next (doLatch s)
  else doCommit s

/-- `RegWrite(NVMCON, v)` (R131 to R138, R142). A commit request is performed if the sequencer was `Unlocked` and the
written `EN` is 1, else ignored (R137). DESIGN CHOICE (log entry 28): `GIE` is not looked at, so a handshake that software makes
access by access with `GIE = 1` is performed, as R131's table has it, where U6 taken for these accesses too would refuse it. -/
def regWriteCon (v : Byte) (s : State) : Result :=
  match conCommit v, conRead v with
  | true, true => .refused .readWithCommit
  | false, false => .next (updateFields v s)
  | false, true =>
    .next (if conSpace v then readCfg (updateFields v s) else readPm (updateFields v s))
  | true, false =>
    if s.unlock = .unlocked ∧ conEn v = true then commitOperation v (updateFields v s)
    else .next (updateFields v s)

/-- One access by software (R130); a register read returns its value. -/
def access (a : Access) (s : State) : Result :=
  match a with
  | .writeAdr v => .next (regWriteAdr v s)
  | .writeDat v => .next (regWriteDat v s)
  | .writeCon v => regWriteCon v s
  | .writeKey v => .next (regWriteKey v s)
  | .read r => .next { regRead r s with result := [regValue s r] }
  | .idle => .next (idle s)

/-! ### The rows -/

/-- NVM.READ.pm (R132). -/
def execNvmReadPm (r l f r2 e : Bool) (s : State) : Result :=
  regWriteCon (byteOfBits r false l f r2 e false true) s

/-- NVM.READ.cfg (R133). -/
def execNvmReadCfg (r l f r2 e : Bool) (s : State) : Result :=
  regWriteCon (byteOfBits r true l f r2 e false true) s

/-- NVM.LATCH (R134): while not `Unlocked`, the request is ignored (R137). -/
def execNvmLatch (r r2 : Bool) (s : State) : Result :=
  regWriteCon (byteOfBits r false true false r2 true true false) s

/-- NVM.COMMIT (R135): while not `Unlocked`, the request is ignored (R137). -/
def execNvmCommit (r r2 : Bool) (s : State) : Result :=
  regWriteCon (byteOfBits r false false false r2 true true false) s

/-- NVM.ERASE (R136): while not `Unlocked`, the request is ignored (R137). -/
def execNvmErase (r l r2 : Bool) (s : State) : Result :=
  regWriteCon (byteOfBits r false l true r2 true true false) s

/-- NVM.NOP (R138). -/
def execNvmNop (r sp l f r2 e : Bool) (s : State) : Result :=
  regWriteCon (byteOfBits r sp l f r2 e false false) s

/-- NVM.IGNORED (R137). -/
def execNvmIgnored (r sp l f r2 e : Bool) (s : State) : Result :=
  regWriteCon (byteOfBits r sp l f r2 e true false) s

/-- NVM.UNDEFINED (R142(a)). -/
def execNvmUndefined (r sp l f r2 e : Bool) (s : State) : Result :=
  regWriteCon (byteOfBits r sp l f r2 e true true) s

/-- NVMKEY.KEY1 (R131). -/
def execNvmkeyKey1 (s : State) : Result := .next (regWriteKey s.dev.keys.key1 s)

/-- NVMKEY.KEY2 (R131). -/
def execNvmkeyKey2 (s : State) : Result := .next (regWriteKey s.dev.keys.key2 s)

end Sys2Proof.Machine
end

