-- ==== Sys2Proof/Machine/Driver.lean ====
section
/-!
DEFINITION. The memory driver (41_nvm_driver_ops.md), each operation as the sequence of accesses the spec lists; their net
effects follow from the sequences. Results go to `result`.
-/

namespace Sys2Proof.Machine

/-! ### Interrupts (00_scope.md R15) -/

/-- Step 1 of the discipline: `gie_saved <- IntSave(); IntDisable()` (R177). -/
def saveAndDisable (s : State) : State := { s with gieSaved := s.gie, gie := false }

/-- Step 5: `IntRestore(gie_saved)` (R177). -/
def restoreInterrupts (s : State) : State := { s with gie := s.gieSaved }

/-! ### The handshake and the discipline -/

/-- `UnlockAndCommit()` (40_nvm_controller.md R143): refused where interrupts are enabled (U6). The same accesses made by software one
by one are not refused (log entry 28, DESIGN CHOICE). -/
def unlockThenCommit (s : State) : Result :=
  if s.gie then .refused .preemptibleHandshake
  else
    let s1 := idleFor s.dev.settleBefore (regWriteKey s.dev.keys.key2 (regWriteKey s.dev.keys.key1 s))
    andThen (regWriteCon (withCommit (nvmconHeld s1.nvmcon)) s1) fun s2 => .next (idleFor s.dev.settleAfter s2)

/-- Step 4: `RegWrite(NVMCON, RegRead(NVMCON) with EN = 0)` (R177). -/
def closeWindow (s : State) : Result :=
  regWriteCon (withoutEn (nvmconHeld s.nvmcon)) (regRead .con s)

/-- The unlock discipline (R177): `load` writes `NVMADR`, and `NVMDAT` for a write, between steps 1 and 2; `con` is step 2's
`NVMCON` value; `close` asks for step 4. -/
def discipline (load : State → State) (con : Byte) (close : Bool) (s : State) : Result :=
  andThen (regWriteCon con (load (saveAndDisable s))) fun s2 =>
  andThen (unlockThenCommit s2) fun s3 =>
  andThen (if close then closeWindow s3 else .next s3) fun s4 =>
  .next (restoreInterrupts s4)

/-! ### The operations -/

/-- The accesses of `readWord` (R171): the word read is left in `NVMDAT`. -/
def readWordAccesses (address : Word) (s : State) : Result :=
  andThen (regWriteCon 0x01 (regWriteAdr address s)) fun s1 => .next (regRead .dat s1)

/-- `readWord(address)` (R171). -/
def readWord (address : Word) (s : State) : Result :=
  andThen (readWordAccesses address s) fun s1 => .next { s1 with result := [s1.nvmdat] }

/-- `readConfigWord(address)` (R172). -/
def readConfigWord (address : Word) (s : State) : Result :=
  andThen (regWriteCon 0x41 (regWriteAdr address s)) fun s1 =>
  .next { regRead .dat s1 with result := [s1.nvmdat] }

/-- The loop of `readBlock` (R173) for the `n` words still to read from `address` on, after the words `out`. -/
def readBlockLoop : Nat → Word → List Word → State → Result
  | 0, _, out, s => .next { s with result := out }
  | n + 1, address, out, s =>
    andThen (readWordAccesses address s) fun s1 => readBlockLoop n (address + 1) (out ++ [s1.nvmdat]) s1

/-- `readBlock(address, count)` (R173). -/
def readBlock (address count : Word) (s : State) : Result :=
  readBlockLoop count.toNat address [] s

/-- `writeWord(address, data, latchOnly = true)` (R174). -/
def writeWordLatch (address data : Word) (s : State) : Result :=
  discipline (fun t => regWriteDat data (regWriteAdr address t)) 0x24 false s

/-- `writeWord(address, data, latchOnly = false)` (R175). -/
def writeWordCommit (address data : Word) (s : State) : Result :=
  discipline (fun t => regWriteDat data (regWriteAdr address t)) 0x04 false s

/-- `eraseRow(address)` (R176). -/
def eraseRow (address : Word) (s : State) : Result :=
  discipline (regWriteAdr address) 0x14 true s

/-- The loop of `RowWrite` (R178): the last word commits, the others are latched; nothing for no word (decision D14). -/
def rowWriteLoop : Word → List Word → State → Result
  | _, [], s => .next s
  | address, [w], s => writeWordCommit address w s
  | address, w :: w' :: ws, s =>
    andThen (writeWordLatch address w s) fun s1 => rowWriteLoop (address + 1) (w' :: ws) s1

/-- `RowWrite(address, N, w)` (R178), refused where its words are not in one row (U1) or not in a valid target (U2). -/
def rowWrite (address : Word) (ws : List Word) (s : State) : Result :=
  if ws = [] then .next s
  else if !inOneRow s.dev address ws.length then .refused .rowCrossing
  else if !validTarget s.dev address ws.length then .refused .invalidTarget
  else rowWriteLoop address ws s

/-! ### The rows -/

/-- readWord (R171). -/
def execReadWord (address : Word) (s : State) : Result := readWord address s

/-- readConfigWord (R172). -/
def execReadConfigWord (address : Word) (s : State) : Result := readConfigWord address s

/-- readBlock (R173). -/
def execReadBlock (address count : Word) (s : State) : Result := readBlock address count s

/-- writeWord.latch (R174). -/
def execWriteWordLatch (address data : Word) (s : State) : Result := writeWordLatch address data s

/-- writeWord.commit (R175). -/
def execWriteWordCommit (address data : Word) (s : State) : Result := writeWordCommit address data s

/-- eraseRow (R176). -/
def execEraseRow (address : Word) (s : State) : Result := eraseRow address s

/-- RowWrite (R178). -/
def execRowWrite (address : Word) (ws : List Word) (s : State) : Result := rowWrite address ws s

/-- UnlockAndCommit (R143). -/
def execUnlockAndCommit (s : State) : Result := unlockThenCommit s

end Sys2Proof.Machine
end

