-- ==== Sys2Proof/Machine/Operands.lean ====
section
/-!
DEFINITION. Where operands come from. The word view of the command buffer plays the part of operand registers
(10_state.md R29): opcode, address, count and payload are frame words 0, 1, 2 and 3.. of the buffer as it stands,
whoever wrote them (42_dispatcher_commands.md R214). An event's operands are the event inputs (R33).
-/

namespace Sys2Proof.Machine

/-- What the dispatcher selects in this state (30_encoding.md R105). -/
def selectedCommand (s : State) : CommandKind := commandKind s.len.toNat (frameWord (bufBytes s) 0)

/-- The command in the buffer, with its operands. -/
def fetchCommand (s : State) : Instr := decodeCommand s.len.toNat (bufBytes s)

/-- The event on the event lines, in the phase the transport is in (30_encoding.md R112). -/
def fetchEvent (s : State) : Instr := decodeEvent s.phase s.evAddr s.evRead s.evData

end Sys2Proof.Machine
end

