-- ==== Sys2Proof/Machine/Command.lean ====
section
/-!
DEFINITION. The dispatcher and the command set (42_dispatcher_commands.md).
-/

namespace Sys2Proof.Machine

/-! ### The INFO record (R206) -/

/-- The text packed two bytes a word, first character in the low byte, an odd length padded with 0x00. -/
def packText : List Byte → List Word
  | [] => []
  | [a] => [wordOf a 0]
  | a :: b :: rest => wordOf a b :: packText rest

/-- `InfoWord(0), InfoWord(1), …` (R206). -/
def infoRecord (c : Config) : List Word :=
  [BitVec.ofNat 16 c.infoSize,
   c.tagDevType, c.deviceType,
   c.tagFlashSize, c.flashSize,
   c.tagEraseRow, c.eraseRowSize,
   c.tagWriteRow, c.writeRowSize,
   c.tagVersion, c.blVersion,
   c.tagBootStart, c.bootStart,
   c.tagText] ++ packText c.text

/-! ### The commands -/

/-- INCOMPLETE (R201): the error-ack, and no command. -/
def incompleteCommand (s : State) : Result := .next (raise .incompleteCommand s)

/-- SYNC (R204). -/
def syncCommand (s : State) : Result := .next (reply 0x0001 s)

/-- INFO (R205). -/
def infoCommand (s : State) : Result :=
  .next { setBufWords 0 (infoRecord s.dev) s with rdPtr := 0, len := BitVec.ofNat 8 s.dev.infoSize }

/-- BOOT (R207). -/
def bootCommand (s : State) : Result := .next (reply 0x0003 s)

/-- REBOOT (R208). -/
def rebootCommand (s : State) : Result := .next (leaveForApplication s)

/-- WRITE (R209), with the obligations of R212: a count above 61 is refused (U5); the rest is RowWrite's
(log entries 18, DEDUCED, and 19). -/
def writeCommand (address count : Word) (data : List Word) (s : State) : Result :=
  if maxPayload < count.toNat then .refused .payloadPastBuffer
  else andThen (rowWrite address data s) fun s1 => .next (reply 0x000B s1)

/-- ERASE (R210), with the obligation of R213 (U2). -/
def eraseCommand (address : Word) (s : State) : Result :=
  if !validTarget s.dev address 1 then .refused .invalidTarget
  else andThen (eraseRow address s) fun s1 => .next (reply 0x0015 s1)

/-- UNKNOWN (R211). -/
def unknownCommand (opcode : Word) (s : State) : Result := .next (raise (.unknownOpcode opcode) s)

/-- `Dispatch()` (R200, R201, R203): the command in the buffer, run to completion. -/
def dispatch (s : State) : Result :=
  let bs := bufBytes s
  match selectedCommand s with
  | .incomplete => incompleteCommand s
  | .sync => syncCommand s
  | .info => infoCommand s
  | .boot => bootCommand s
  | .reboot => rebootCommand s
  | .write => writeCommand (frameAddress bs) (frameCount bs) (framePayload bs) s
  | .erase => eraseCommand (frameAddress bs) s
  | .unknown => unknownCommand (frameWord bs 0) s

/-! ### The rows -/

/-- INCOMPLETE (R201). -/
def execIncomplete (s : State) : Result := incompleteCommand s

/-- SYNC (R204). -/
def execSync (s : State) : Result := syncCommand s

/-- INFO (R205). -/
def execInfo (s : State) : Result := infoCommand s

/-- BOOT (R207). -/
def execBoot (s : State) : Result := bootCommand s

/-- REBOOT (R208). -/
def execReboot (s : State) : Result := rebootCommand s

/-- WRITE (R209). -/
def execWrite (address count : Word) (data : List Word) (s : State) : Result :=
  writeCommand address count data s

/-- ERASE (R210). -/
def execErase (address : Word) (s : State) : Result := eraseCommand address s

/-- UNKNOWN (R211). -/
def execUnknown (opcode : Word) (s : State) : Result := unknownCommand opcode s

end Sys2Proof.Machine
end

