-- ==== Sys2Proof/Machine/Transport.lean ====
section
/-!
DEFINITION. The transport state machine (43_transport_events.md): what each bus event does, the end of a handler
invocation, and the bus interface (60_exceptions.md R286).
-/

namespace Sys2Proof.Machine

/-! ### The events -/

/-- AddrWrite (R241): the only event that resets the buffer's cursors and counter (R247). -/
def addrWriteEvent (s : State) : Result :=
  .next { s with phase := .receiving, len := 0, wrPtr := 0, rdPtr := 0 }

/-- AddrRead (R242): the dispatcher runs once. -/
def addrReadEvent (s : State) : Result := dispatch { s with phase := .replying }

/-- DataRx in `ReceivingPhase` (R243): the byte is stored, or dropped when the buffer is full. -/
def dataRxEvent (b : Byte) (s : State) : Result :=
  if s.len.toNat < capBytes then
    if s.wrPtr.toNat < capBytes then
      .next { setBufByte s.wrPtr.toNat b s with wrPtr := s.wrPtr + 1, len := s.len + 1 }
    else .fault .bufferBounds
  else .next (raise .bufferOverflow s)

/-- DataReq in `ReplyingPhase` (R244): the next byte of the reply, or 0x00. -/
def dataReqEvent (s : State) : Result :=
  if 0 < s.len.toNat then
    if s.rdPtr.toNat < capBytes then
      .next { s with txData := some (bufByte s s.rdPtr.toNat), rdPtr := s.rdPtr + 1, len := s.len - 1 }
    else .fault .bufferBounds
  else .next { s with txData := some 0x00 }

/-- DataRx in another phase (R245, decision D17; log entry 19): the byte is dropped. -/
def dataRxWrongPhaseEvent (_b : Byte) (s : State) : Result := .next s

/-- DataReq in another phase (R245): 0x00, and nothing changes. -/
def dataReqWrongPhaseEvent (s : State) : Result := .next { s with txData := some 0x00 }

/-! ### A handler invocation's ends (R240, R246) -/

/-- Whether the event's rule returned to the handler: not by REBOOT, not by UNKNOWN (R246). -/
def returned (s : State) : Bool := s.run == .active && !s.goBoot

/-- `evt_pending <- 0; clk_hold <- 0` (R240). The event inputs, which R33 calls valid only while `evt_pending = 1`, keep the last
event's values (log entry 27, DESIGN CHOICE). -/
def releaseClock (s : State) : State := { s with evtPending := false, clkHold := false }

/-- The request for the first reply byte that a bus interface may combine with the read addressing (R240). A reply starts
at `rd_ptr = 0`, where DataReq has no fault to answer (log entry 11, DESIGN CHOICE). -/
def firstReplyByte (s : State) : State :=
  match dataReqEvent s with
  | .next t => t
  | .fault _ => s
  | .refused _ => s

/-- The end of the invocation that handled `i` (R240): nothing where the rule did not return; else, where the bus
interface combines the read addressing with the first byte's request, that request; then the release (log entry 24). -/
def finishHandler (i : Instr) (s : State) : Result :=
  if returned s then
    .next (releaseClock (if s.dev.combinedRead && decide (i = .addrRead) then firstReplyByte s else s))
  else .next s

/-! ### The bus interface -/

/-- An event occurs: the flag and the hold are set and the inputs presented (R286). -/
def presentEvent (addr read : Bool) (data : Byte) (s : State) : State :=
  { s with evtPending := true, clkHold := true, evAddr := addr, evRead := read, evData := data }

/-! ### The rows -/

/-- AddrWrite (R241). -/
def execAddrWrite (s : State) : Result := addrWriteEvent s

/-- AddrRead (R242). -/
def execAddrRead (s : State) : Result := addrReadEvent s

/-- DataRx (R243); in any phase but `ReceivingPhase`, R245. -/
def execDataRx (b : Byte) (s : State) : Result :=
  if s.phase = .receiving then dataRxEvent b s else dataRxWrongPhaseEvent b s

/-- DataReq (R244); in any phase but `ReplyingPhase`, R245. -/
def execDataReq (s : State) : Result :=
  if s.phase = .replying then dataReqEvent s else dataReqWrongPhaseEvent s

/-- DataRx.wrongphase (R245). -/
def execDataRxWrongPhase (b : Byte) (s : State) : Result := dataRxWrongPhaseEvent b s

/-- DataReq.wrongphase (R245). -/
def execDataReqWrongPhase (s : State) : Result := dataReqWrongPhaseEvent s

end Sys2Proof.Machine
end

