-- ==== Sys2Proof/Machine/Dispatch.lean ====
section
/-! DEFINITION. One arm for each constructor of Instr: a direct call of its meaning. -/

namespace Sys2Proof.Machine

def exec (i : Instr) (s : State) : Host.Outcome State Fault Refusal :=
  match i with
  -- the commands, 42_dispatcher_commands.md
  | .incomplete => Sys2Proof.Machine.execIncomplete s
  | .sync => Sys2Proof.Machine.execSync s
  | .info => Sys2Proof.Machine.execInfo s
  | .boot => Sys2Proof.Machine.execBoot s
  | .reboot => Sys2Proof.Machine.execReboot s
  | .write address count data => Sys2Proof.Machine.execWrite address count data s
  | .erase address => Sys2Proof.Machine.execErase address s
  | .unknown opcode => Sys2Proof.Machine.execUnknown opcode s
  -- the bus events, 43_transport_events.md
  | .addrWrite => Sys2Proof.Machine.execAddrWrite s
  | .addrRead => Sys2Proof.Machine.execAddrRead s
  | .dataRx b => Sys2Proof.Machine.execDataRx b s
  | .dataReq => Sys2Proof.Machine.execDataReq s
  | .dataRxWrongPhase b => Sys2Proof.Machine.execDataRxWrongPhase b s
  | .dataReqWrongPhase => Sys2Proof.Machine.execDataReqWrongPhase s
  -- the accesses, 40_nvm_controller.md
  | .nvmReadPm r l f r2 e => Sys2Proof.Machine.execNvmReadPm r l f r2 e s
  | .nvmReadCfg r l f r2 e => Sys2Proof.Machine.execNvmReadCfg r l f r2 e s
  | .nvmLatch r r2 => Sys2Proof.Machine.execNvmLatch r r2 s
  | .nvmCommit r r2 => Sys2Proof.Machine.execNvmCommit r r2 s
  | .nvmErase r l r2 => Sys2Proof.Machine.execNvmErase r l r2 s
  | .nvmNop r sp l f r2 e => Sys2Proof.Machine.execNvmNop r sp l f r2 e s
  | .nvmIgnored r sp l f r2 e => Sys2Proof.Machine.execNvmIgnored r sp l f r2 e s
  | .nvmUndefined r sp l f r2 e => Sys2Proof.Machine.execNvmUndefined r sp l f r2 e s
  | .nvmkeyKey1 => Sys2Proof.Machine.execNvmkeyKey1 s
  | .nvmkeyKey2 => Sys2Proof.Machine.execNvmkeyKey2 s
  -- the driver's operations, 41_nvm_driver_ops.md
  | .readWord address => Sys2Proof.Machine.execReadWord address s
  | .readConfigWord address => Sys2Proof.Machine.execReadConfigWord address s
  | .readBlock address count => Sys2Proof.Machine.execReadBlock address count s
  | .writeWordLatch address data => Sys2Proof.Machine.execWriteWordLatch address data s
  | .writeWordCommit address data => Sys2Proof.Machine.execWriteWordCommit address data s
  | .eraseRow address => Sys2Proof.Machine.execEraseRow address s
  | .rowWrite address words => Sys2Proof.Machine.execRowWrite address words s
  | .unlockAndCommit => Sys2Proof.Machine.execUnlockAndCommit s

end Sys2Proof.Machine
end

