-- ==== Sys2Proof/Machine/Inputs.lean ====
section
/-!
DEFINITION. What the machine does next, and the steps that are no instruction: the poll loop with nothing pending, an
event's arrival, a hardware reset, and the accesses that have no row of the table.
-/

namespace Sys2Proof.Machine

/-- What a step does. -/
inductive Job where
  /-- the handler handles the pending event, which is this row's (R240) -/
  | handle (i : Instr)
  /-- software's access or call, which is this row's -/
  | run (i : Instr)
  /-- software's access, one that is no row's (R130) -/
  | plain (a : Access)
  /-- the bus interface presents an event (R286) -/
  | present (addr read : Bool) (data : Byte)
  /-- the surrounding processor sets `GIE` (R44) -/
  | setGie (b : Bool)
  /-- a hardware reset (R310(a)) -/
  | reset (struck : Option Word)
  /-- the poll loop finds nothing pending (R278, R294), or the bus is held and the host can produce no event (R32)
  (log entry 15, DESIGN CHOICE) -/
  | idle
  /-- a call in bytes that stand for none -/
  | notACall
  /-- `run = Left` (R250) -/
  | ended
deriving DecidableEq, Repr

/-- The row of an access, if it has one, on a device with the unlock values `k`. -/
def accessRow (k : Keys) : Access → Option Instr
  | .writeCon v => some (decodeNvmcon v)
  | .writeKey v => match decodeNvmkey k v with | .ok i => some i | .error _ => none
  | .writeAdr _ | .writeDat _ | .read _ | .idle => none

/-- What the next step does. A reset comes before everything. In `Left` nothing else happens. A pending event is handled
before anything further arrives; software's accesses and calls run between handler invocations, never inside one (R170, R249). -/
def nextJob (s : State) : Job :=
  match s.inputs with
  | .reset struck :: _ => .reset struck
  | rest =>
    match s.run with
    | .left => .ended
    | .active =>
      if s.evtPending then .handle (fetchEvent s)
      else
        match rest with
        | [] => .idle
        | .event addr read data :: _ => if s.clkHold then .idle else .present addr read data
        | .access a :: _ => match accessRow s.dev.keys a with | some i => .run i | none => .plain a
        | .call bytes :: _ => match decodeCall bytes with | .ok i => .run i | .error _ => .notACall
        | .setGie b :: _ => .setGie b
        | .reset struck :: _ => .reset struck

/-- The outputs of the previous step are over: `tx_data`, the pulses `go_app` and `go_boot`, and what a call returned are not
stored state (R33, R34; log entry 14, DESIGN CHOICE). -/
def clearOutputs (s : State) : State :=
  { s with txData := none, goApp := false, goBoot := false, pcOut := none, result := [] }

/-- The oldest input is taken. -/
def takeInput (s : State) : State := { s with inputs := s.inputs.tail }

/-- The row that holds `a` was being erased or programmed when a reset struck: each of its words is any value (R312, U12). -/
def scrambleRow (a : Word) (s : State) : State :=
  if a.toNat < s.dev.flashWords then
    { setPmRow (rowBase s.dev a.toNat) (fun i => some (Config.anyWord (s.draws + i))) s with draws := s.draws + s.dev.rowWords }
  else s

/-- A hardware reset (R311, R312): the state after reset, with `pm` and `cfg` kept, but for a row it struck. The model's
counters of free values go on, so that what is unspecified is so anew (log entry 16, DESIGN CHOICE). -/
def hardReset (struck : Option Word) (s : State) : State :=
  let t := match struck with | none => s | some a => scrambleRow a s
  { State.resetOf s.dev with pm := t.pm, cfg := t.cfg, bufEpoch := t.bufEpoch + 1, draws := t.draws, inputs := t.inputs.tail }

end Sys2Proof.Machine
end

