-- ==== Sys2Proof/Machine/Fetch.lean ====
section
/-!
DEFINITION. Placing one instruction where the next step fetches it, for `State.withFetchWord`.
-/

namespace Sys2Proof.Machine

/-- The bytes as entries of the command buffer from `buf[i]` on. -/
def frameCells (i : Nat) : List Byte → List Host.Cell
  | [] => []
  | b :: bs => (i, b) :: frameCells (i + 1) bs

/-- The frame `bs` fills the buffer, `len` bytes are held, and a read addressing is pending. -/
def placeCommand (len : BitVec 8) (bs : List Byte) (s : State) : State :=
  { presentEvent true true 0 s with buf := frameCells 0 bs, len := len, run := .active, inputs := [] }

/-- The access is software's next, and no event is pending. -/
def placeAccess (a : Access) (s : State) : State :=
  { s with inputs := [.access a], run := .active, evtPending := false }

/-- The device's key where the byte is the table's for it (log entry 3). -/
def deviceKey (k : Keys) (b : Byte) : Byte := if b = defaultKeys.key1 then k.key1 else k.key2

/-- The table word placed at its source (Decode.lean, `tableSource`). -/
def placeTableWord (nbits w : Nat) (s : State) : State :=
  match tableSource nbits w with
  | .buffer len => placeCommand (BitVec.ofNat 8 len) (tableFrame nbits w) s
  | .nvmkey => placeAccess (.writeKey (deviceKey s.dev.keys ((tableFrame nbits w).getD 0 0))) s
  | .nvmcon | .busEvent _ | .call => placeAccess (.writeCon ((tableFrame nbits w).getD 0 0)) s

end Sys2Proof.Machine
end

