-- ==== Sys2Proof/Machine/Step.lean ====
section
/-!
DEFINITION. One step of the machine: one handler invocation (43_transport_events.md R240), one access or call by
software, one arrival of an event, or a turn of the poll loop.
-/

namespace Sys2Proof.Machine

/-- One step (log entry 26, DESIGN CHOICE). -/
def step (s : State) : Host.Outcome State Fault Refusal :=
  match nextJob s with
  | .handle i => andThen (exec i (clearOutputs s)) (finishHandler i)
  | .run i => exec i (takeInput (clearOutputs s))
  | .plain a => access a (takeInput (clearOutputs s))
  | .present addr read data => .next (presentEvent addr read data (takeInput (clearOutputs s)))
  | .setGie b => .next { takeInput (clearOutputs s) with gie := b }
  | .reset struck => .next (hardReset struck s)
  | .idle => .next (clearOutputs s)
  | .notACall => .refused .notACall
  | .ended => .fault .runEnded

/-- `s` with a table word placed where the next step fetches it (log entry 6). -/
def State.withFetchWord (s : State) (nbits w : Nat) : State := placeTableWord nbits w s

end Sys2Proof.Machine
end

