-- ==== Sys2Proof/Safety.lean ====
section
/-!
DEFINITION. What a sound state is, in the terms the statements use.
-/

namespace Sys2Proof.Machine

/-- The cursors and the counter stay in range and agree as 10_state.md R26 says: between a buffer reset and the next
dispatcher run `wr_ptr = len`; while a reply is read, `rd_ptr + len` does not pass the buffer's end. -/
def CursorsSound (s : State) : Prop :=
  s.len.toNat ≤ capBytes ∧ s.wrPtr.toNat ≤ capBytes ∧ s.rdPtr.toNat ≤ capBytes ∧
  (s.phase = .address → s.len = 0 ∧ s.wrPtr = 0 ∧ s.rdPtr = 0) ∧
  (s.phase = .receiving → s.wrPtr = s.len ∧ s.rdPtr = 0) ∧
  (s.phase = .replying → s.rdPtr.toNat + s.len.toNat ≤ capBytes)

/-- `NVMCON`'s reserved bits and its two request bits hold 0 (10_state.md R43). -/
def NvmconSound (s : State) : Prop := nvmconHeld s.nvmcon = s.nvmcon

/-- The machine's invariant: sparse storage in canonical form, cursors in range, `NVMCON` legal. -/
def Sound (s : State) : Prop := Memory.wf s = true ∧ CursorsSound s ∧ NvmconSound s

/-- No latch is loaded and the sequencer is locked: what holds between handler invocations (70_reset_and_hazards.md R328). -/
def LatchesQuiet (s : State) : Prop := s.unlock = .locked ∧ ∀ i, isLoaded s i = false

/-- The next step is the handler's: an event is pending, the block is active and no reset arrives (43_transport_events.md R240). -/
def HandlerRuns (s : State) : Prop :=
  s.run = .active ∧ s.evtPending = true ∧ ∀ struck, s.inputs.head? ≠ some (.reset struck)

/-- The handler's event is a read addressing (R242). -/
def HandlesAddrRead (s : State) : Prop := HandlerRuns s ∧ s.evAddr = true ∧ s.evRead = true

/-- The next step takes an input: no event is pending and the block is active (R170, R249). -/
def TakesInput (s : State) (x : Input) : Prop :=
  s.run = .active ∧ s.evtPending = false ∧ s.inputs.head? = some x

/-- The obligations on a row write of `n` words (41_nvm_driver_ops.md R178 (a) to (c)). -/
def RowWriteAllowed (s : State) (address : Word) (n : Nat) : Prop :=
  1 ≤ n ∧ inOneRow s.dev address n = true ∧ validTarget s.dev address n = true

/-- `u` is `s` with `GIE` saved and cleared, as the unlock discipline leaves it for the handshake (41_nvm_driver_ops.md R177, R50);
apart from that only the controller's registers and its sequencer can differ. -/
def InterruptsSavedAndOff (s u : State) : Prop :=
  u.gie = false ∧ u.gieSaved = s.gie ∧
  u = { s with
    gie := u.gie, gieSaved := u.gieSaved, nvmadr := u.nvmadr, nvmdat := u.nvmdat, nvmcon := u.nvmcon, unlock := u.unlock }

/-- Address `x` lies in the row that holds `a` (20_memory.md R78). -/
abbrev InRowOf (c : Config) (a x : Nat) : Prop := rowBase c a ≤ x ∧ x < rowBase c a + c.rowWords

/-- `t` holds the single-word reply `v` (42_dispatcher_commands.md R202), and no other byte of the buffer differs from `s`. -/
def RepliesWith (v : Word) (s t : State) : Prop :=
  bufWord t 0 = v ∧ (∀ i, 2 ≤ i → bufByte t i = bufByte s i) ∧ t.rdPtr = 0 ∧ t.len = 2

/-- The bytes received one after another. -/
def receiveAll (bs : List Byte) (s : State) : Result :=
  match bs with
  | [] => .next s
  | b :: rest => andThen (exec (.dataRx b) s) (receiveAll rest)

end Sys2Proof.Machine
end

