-- ==== Sys2Proof/Certificates/Slice0/Obligations.lean ====
section
/-!
DEFINITION. The statements for the provers. `s` is any state, of any device (`s.dev`), reachable or not, unless a
statement says otherwise. A next state written `t = { s with … }` says that every field not listed is unchanged; where a
sparse array is listed as `t.buf`, `t.pm`, `t.latch`, another clause says of every address what reading it gives. `gieSaved := t.gieSaved` leaves `gie_saved` open: it is
no state between operations (R50).
-/

open Sys2Proof Sys2Proof.Machine

/-! ### Encodings (30_encoding.md) -/

/-- Decoding an encoded well-formed instruction gives it back, at every place its row stands, whatever bytes follow and whatever
the device's unlock values (R10, R100 to R103, R108, R111 to R113; that the place is an argument of the decoder, and the bytes of a
driver call, are the model's own: log entries 6 and 7). -/
def Obligations.DecodeEncodeRoundTrip : Prop :=
  ∀ (k : Keys) (i : Instr) (src : Source) (rest : List Byte),
    i.wellFormed = true → i.standsAt src → decode k src (encode k i ++ rest) = .ok i

/-- Whatever bytes the decoder accepts, it gives a well-formed instruction of a row that stands at that place. That the place is an
argument of the decoder is the model's choice (log entry 6), and so is all of a driver call but its first byte: the entry number, the
layout of the operands, at most 65535 words (log entry 7). -/
def Obligations.DecodedInstructionFits : Prop :=
  ∀ (k : Keys) (src : Source) (bs : List Byte) (i : Instr),
    decode k src bs = .ok i → i.wellFormed = true ∧ i.standsAt src

/-- Every byte written to `NVMCON` has one row, and no bit of it is dropped (R111; that NVM.IGNORED's row carries the `SPACE` bit is
log entry 8, DEDUCED). -/
def Obligations.NvmconByteIsItsRow : Prop :=
  ∀ (k : Keys) (v : Byte), encode k (decodeNvmcon v) = [v] ∧ (decodeNvmcon v).standsAt .nvmcon

/-- A few words written out from the tables (R104, R111, R112, R113) decode to their rows. The last two are at `NVMKEY` of a device
with the defaults of R10, which the table's rows take (log entry 3, PRESUMED); the place is the model's argument (log entry 6). -/
def Obligations.TableWordsDecode : Prop :=
  decode defaultKeys (.buffer 2) [0x01, 0x00] = .ok .sync ∧
  decode defaultKeys (.buffer 4) [0x15, 0x00, 0x10, 0x0E] = .ok (.erase 0x0E10) ∧
  decode defaultKeys (.buffer 10) [0x0B, 0x00, 0x00, 0x0E, 0x02, 0x00, 0x34, 0x12, 0xBC, 0x0A] =
    .ok (.write 0x0E00 2 [0x1234, 0x0ABC]) ∧
  decode defaultKeys (.buffer 2) [0x01, 0x01] = .ok (.unknown 0x0101) ∧
  decode defaultKeys (.busEvent .receiving) [0x00, 0x77] = .ok (.dataRx 0x77) ∧
  decode defaultKeys .nvmcon [0b00100110] = .ok (.nvmLatch false false) ∧
  decode defaultKeys .nvmcon [0b01000001] = .ok (.nvmReadCfg false false false false false) ∧
  decode defaultKeys .nvmkey [0x55] = .ok .nvmkeyKey1 ∧
  decode defaultKeys .nvmkey [0xAA] = .ok .nvmkeyKey2

/-- R105: the completeness check first, whatever the buffer holds; only then the opcode, all 16 bits of it, against the
six defined values, with the operands at words 1, 2 and 3 on (R104, R106). The threshold of 2 bytes is the spec's decision (D2), and so
is the comparison of all 16 bits (D29). -/
def Obligations.CompletenessBeforeOpcode : Prop :=
  ∀ (len : Nat) (bs : List Byte),
    (len < 2 → decodeCommand len bs = .incomplete) ∧
    (2 ≤ len →
      (frameWord bs 0 = 1 → decodeCommand len bs = .sync) ∧
      (frameWord bs 0 = 2 → decodeCommand len bs = .info) ∧
      (frameWord bs 0 = 3 → decodeCommand len bs = .boot) ∧
      (frameWord bs 0 = 4 → decodeCommand len bs = .reboot) ∧
      (frameWord bs 0 = 11 → decodeCommand len bs =
        .write (frameWord bs 1) (frameWord bs 2) (frameWords bs 3 (min (frameWord bs 2).toNat 61))) ∧
      (frameWord bs 0 = 21 → decodeCommand len bs = .erase (frameWord bs 1)) ∧
      (frameWord bs 0 ∉ ([1, 2, 3, 4, 11, 21] : List Word) → decodeCommand len bs = .unknown (frameWord bs 0)))

/-! ### A step -/

/-- When the event lines decode to `i`, the step is `exec i` on the state with the last step's outputs over, and then the
end of the handler invocation (R240, R246). Where the event's rule returned, and no byte is supplied with a read addressing, that end
clears the flag and the hold and nothing else; after REBOOT and UNKNOWN, which do not return, nothing follows. -/
def Obligations.StepRunsPendingEvent : Prop :=
  ∀ (s : State) (i : Instr), HandlerRuns s →
    decode s.dev.keys (.busEvent s.phase)
      [byteOfBits false false false false false false s.evAddr s.evRead, s.evData] = .ok i →
    step s = andThen (exec i (clearOutputs s)) (finishHandler i) ∧
    ∀ u, exec i (clearOutputs s) = .next u →
      (i = .addrRead ∧ (selectedCommand s = .reboot ∨ selectedCommand s = .unknown) → step s = .next u) ∧
      (¬(i = .addrRead ∧ (selectedCommand s = .reboot ∨ selectedCommand s = .unknown)) →
        i ≠ .addrRead ∨ s.dev.combinedRead = false →
        step s = .next { u with evtPending := false, clkHold := false })

/-- When a read addressing is pending and the buffer decodes to the command `i`, the step is `exec i` in `ReplyingPhase`,
and then the end of the handler invocation (R240, R242, R246). After REBOOT and UNKNOWN nothing follows. After any other command
the flag and the hold are cleared; and where the bus interface signals the read addressing and the request for the first reply byte
as one event, that byte is supplied first, in the same invocation, as R244 says. Which of the two an interface does is a parameter of
the device (log entry 11, DESIGN CHOICE). -/
def Obligations.StepRunsBufferedCommand : Prop :=
  ∀ (s : State) (i : Instr), HandlesAddrRead s →
    decode s.dev.keys (.buffer s.len.toNat) (bufBytes s) = .ok i →
    step s = andThen (exec i { clearOutputs s with phase := .replying }) (finishHandler .addrRead) ∧
    ∀ u, exec i { clearOutputs s with phase := .replying } = .next u →
      (i = .reboot ∨ (∃ opcode, i = .unknown opcode) → step s = .next u) ∧
      (i ≠ .reboot → (∀ opcode, i ≠ .unknown opcode) →
        (s.dev.combinedRead = false → step s = .next { u with evtPending := false, clkHold := false }) ∧
        (s.dev.combinedRead = true →
          step s = .next { u with
            txData := some (bufByte u 0), rdPtr := 1, len := u.len - 1, evtPending := false, clkHold := false }))

/-- When software's next access or call decodes to `i`, the step is `exec i` with that input taken. That these are inputs, and the
bytes of a call, are the model's choice (log entries 9 and 7). -/
def Obligations.StepRunsSoftwareInstruction : Prop :=
  ∀ (s : State) (i : Instr),
    (∀ v, TakesInput s (.access (.writeCon v)) → decode s.dev.keys .nvmcon [v] = .ok i →
      step s = exec i (takeInput (clearOutputs s))) ∧
    (∀ v, TakesInput s (.access (.writeKey v)) → decode s.dev.keys .nvmkey [v] = .ok i →
      step s = exec i (takeInput (clearOutputs s))) ∧
    (∀ bytes, TakesInput s (.call bytes) → decode s.dev.keys .call bytes = .ok i →
      step s = exec i (takeInput (clearOutputs s)))

/-- The accesses to `NVMADR` and `NVMDAT` and the idle slot (R139, R141): the registers hold what was written and read as they
stand; each access relocks the sequencer and does nothing else, and `Idle()` changes nothing at all. A change of `GIE` by the surrounding
processor, which owns it (R44), changes `GIE` alone. That each of these is a step of its own is the model's form (log entry 9). -/
def Obligations.PlainAccesses : Prop :=
  ∀ s : State,
    (∀ v, TakesInput s (.access (.writeAdr v)) →
      step s = .next { takeInput (clearOutputs s) with nvmadr := v, unlock := .locked }) ∧
    (∀ v, TakesInput s (.access (.writeDat v)) →
      step s = .next { takeInput (clearOutputs s) with nvmdat := v, unlock := .locked }) ∧
    (TakesInput s (.access (.read .adr)) →
      step s = .next { takeInput (clearOutputs s) with result := [s.nvmadr], unlock := .locked }) ∧
    (TakesInput s (.access (.read .dat)) →
      step s = .next { takeInput (clearOutputs s) with result := [s.nvmdat], unlock := .locked }) ∧
    (TakesInput s (.access .idle) → step s = .next (takeInput (clearOutputs s))) ∧
    (∀ b, TakesInput s (.setGie b) → step s = .next { takeInput (clearOutputs s) with gie := b })

/-- After REBOOT no event, access or call is handled (R250); that the machine stops with a fault is the model's way of taking
no step (log entry 10). -/
def Obligations.LeftBlockTakesNoStep : Prop :=
  ∀ s : State, s.run = .left → (∀ struck, s.inputs.head? ≠ some (.reset struck)) → step s = .fault .runEnded

/-- R246, R240: every handler invocation that answers a next state ends with the flag and the hold cleared and the block active,
but the one that handles REBOOT, which leaves both as they were and drives `go_app` and the application's entry (R276). The source's
sentence excepts no path: that REBOOT's hold stays is the spec's own decision (D19, 90_conflicts.md C4), read by log entry 24
(DEDUCED); that UNKNOWN's release, which the re-initialisation makes (R277), lies inside the step is log entry 25 (DEDUCED). -/
def Obligations.HandlerReleasesTheClock : Prop :=
  ∀ s t : State, HandlerRuns s → step s = .next t →
    (HandlesAddrRead s ∧ selectedCommand s = .reboot →
      t.run = .left ∧ t.clkHold = s.clkHold ∧ t.evtPending = true ∧ t.goApp = true ∧ t.pcOut = some s.dev.appEntry) ∧
    (¬(HandlesAddrRead s ∧ selectedCommand s = .reboot) →
      t.run = .active ∧ t.clkHold = false ∧ t.evtPending = false)

/-- The bus interface (R286, R32): with no event pending and the clock free, the host's next event is presented and the clock
held; while the clock is held none arrives; and with nothing to do the poll loop only ends the last step's outputs. The list of
inputs, and the step that only waits while the clock is held, are the model's form (log entry 9, DESIGN CHOICE); that a poll with
nothing to do is a step with a next state is log entry 15 (DESIGN CHOICE). -/
def Obligations.BusPresentsOneEventAtATime : Prop :=
  ∀ (s : State) (a r : Bool) (d : Byte),
    (TakesInput s (.event a r d) → s.clkHold = false →
      step s = .next { takeInput (clearOutputs s) with
        evtPending := true, clkHold := true, evAddr := a, evRead := r, evData := d }) ∧
    (TakesInput s (.event a r d) → s.clkHold = true → step s = .next (clearOutputs s)) ∧
    (s.run = .active → s.evtPending = false → s.inputs = [] → step s = .next (clearOutputs s))

/-- R311, R312: a hardware reset gives every element of the reset state that has a value there, whatever the block was doing,
and changes neither `pm` nor `cfg`, but for the row, if any, that it struck. `pm` and `cfg` are R312's; every other value is R311's,
which the spec marks as its own decision (R310, D20). That a reset is an input between steps is the model's form (log entries 9 and
16). -/
def Obligations.HardResetKeepsFlash : Prop :=
  ∀ (s : State) (struck : Option Word), s.inputs.head? = some (.reset struck) →
    ∃ t, step s = .next t ∧
      t.len = 0 ∧ t.wrPtr = 0 ∧ t.rdPtr = 0 ∧ t.phase = .address ∧ t.run = .active ∧
      t.evtPending = false ∧ t.clkHold = false ∧ t.nvmcon = 0 ∧ t.unlock = .locked ∧
      (∀ i, isLoaded t i = false) ∧ t.gie = s.dev.gieReset ∧ t.dev = s.dev ∧
      t.txData = none ∧ t.goApp = false ∧ t.goBoot = false ∧
      (∀ x, cfgWord t x = cfgWord s x) ∧
      (∀ x, (∀ a, struck = some a → ¬InRowOf s.dev a.toNat x) → pmWord t x = pmWord s x)

/-- The values R311 gives the state after reset, for every device; the spec marks each of them as its own
decision (R310, D20). That the state after reset is the device `Config.device`'s is log entry 1 (DESIGN CHOICE), and that `pm` and
`cfg` hold lists `pm_init` and `cfg_init`, cut to program words, is log entry 12 (DESIGN CHOICE). -/
def Obligations.ResetStateValues : Prop :=
  State.reset = State.resetOf Config.device ∧
  ∀ c : Config,
    (State.resetOf c).wrPtr = 0 ∧ (State.resetOf c).rdPtr = 0 ∧ (State.resetOf c).len = 0 ∧
    (State.resetOf c).phase = .address ∧ (State.resetOf c).run = .active ∧
    (State.resetOf c).evtPending = false ∧ (State.resetOf c).clkHold = false ∧
    (State.resetOf c).nvmcon = 0 ∧ (State.resetOf c).unlock = .locked ∧
    (∀ i, isLoaded (State.resetOf c) i = false) ∧ (State.resetOf c).gie = c.gieReset ∧
    (State.resetOf c).txData = none ∧ (State.resetOf c).goApp = false ∧ (State.resetOf c).goBoot = false ∧
    (∀ a v, a < c.flashWords → c.pmInit.lookup a = some v → pmWord (State.resetOf c) a = c.trunc v) ∧
    (∀ a v, inCfg c a = true → c.cfgInit.lookup a = some v → cfgWord (State.resetOf c) a = c.trunc v)

/-! ### Commands (42_dispatcher_commands.md) -/

/-- SYNC (R204) and BOOT (R207) reply with their own opcode and change nothing else. That a single-word reply resets `rd_ptr` and sets
`len` to 2 is the spec's decision (R202, D13). -/
def Obligations.SyncAndBootEcho : Prop :=
  ∀ s : State,
    (∃ t, exec .sync s = .next t ∧ RepliesWith 0x0001 s t ∧ t = { s with buf := t.buf, rdPtr := 0, len := 2 }) ∧
    (∃ t, exec .boot s = .next t ∧ RepliesWith 0x0003 s t ∧ t = { s with buf := t.buf, rdPtr := 0, len := 2 })

/-- INCOMPLETE (R201, R271): the reply is one zero word, nothing else changes, and a read addressing with fewer than 2 bytes
held does exactly this in `ReplyingPhase`, whatever the buffer holds. The threshold of 2 bytes, where the source says "2 words", is
the spec's decision (R201, D2, 90_conflicts.md C1), and so are `rd_ptr` and `len` after a single-word reply (R202, D13). -/
def Obligations.IncompleteRepliesZero : Prop :=
  ∀ s : State,
    (∃ t, exec .incomplete s = .next t ∧ RepliesWith 0x0000 s t ∧ t = { s with buf := t.buf, rdPtr := 0, len := 2 }) ∧
    (s.len.toNat < 2 → exec .addrRead s = exec .incomplete { s with phase := .replying })

/-- INFO (R205, R206): every word of the record, the rest of the buffer as before, `rd_ptr = 0`, `len = INFO_SIZE`, nothing
else changed. How the text is packed and padded is the spec's decision (D15). -/
def Obligations.InfoBuildsTheRecord : Prop :=
  ∀ s : State, ∃ t, exec .info s = .next t ∧
    bufWord t 0 = BitVec.ofNat 16 s.dev.infoSize ∧
    bufWord t 1 = s.dev.tagDevType ∧ bufWord t 2 = s.dev.deviceType ∧
    bufWord t 3 = s.dev.tagFlashSize ∧ bufWord t 4 = s.dev.flashSize ∧
    bufWord t 5 = s.dev.tagEraseRow ∧ bufWord t 6 = s.dev.eraseRowSize ∧
    bufWord t 7 = s.dev.tagWriteRow ∧ bufWord t 8 = s.dev.writeRowSize ∧
    bufWord t 9 = s.dev.tagVersion ∧ bufWord t 10 = s.dev.blVersion ∧
    bufWord t 11 = s.dev.tagBootStart ∧ bufWord t 12 = s.dev.bootStart ∧
    bufWord t 13 = s.dev.tagText ∧
    (∀ j, j < s.dev.textWords →
      bufWord t (14 + j) = wordOf (s.dev.text.getD (2 * j) 0) (s.dev.text.getD (2 * j + 1) 0)) ∧
    (∀ i, s.dev.infoSize ≤ i → bufByte t i = bufByte s i) ∧
    t.len.toNat = s.dev.infoSize ∧
    t = { s with buf := t.buf, rdPtr := 0, len := t.len }

/-- REBOOT (R208, R276) changes `run` and drives the transfer; buffer, cursors, NVM registers and `pm` stay, and so do the
hold and the pending flag. That those two stay is the spec's own decision (D19), read as a next state that keeps them by log entry 24
(DEDUCED). -/
def Obligations.RebootLeavesForApplication : Prop :=
  ∀ s : State, exec .reboot s = .next { s with run := .left, goApp := true, pcOut := some s.dev.appEntry }

/-- UNKNOWN (R211, R273, R277): the re-entry. Every byte of the buffer becomes a free value (U9), in the model's form
(log entry 4, DESIGN CHOICE); that the step goes at once to the state after the re-initialisation is log entry 25 (DEDUCED). -/
def Obligations.UnknownReentersBootloader : Prop :=
  ∀ (s : State) (opcode : Word), ∃ t, exec (.unknown opcode) s = .next t ∧
    t = { s with
      buf := t.buf, bufEpoch := s.bufEpoch + 1, len := 0, wrPtr := 0, rdPtr := 0, phase := .address, run := .active,
      evtPending := false, clkHold := false, gie := s.dev.gieReset, goBoot := true, pcOut := some s.dev.bootStart } ∧
    ∀ i, bufByte t i = Config.anyByte (s.bufEpoch + 1) i

/-- WRITE (R209) under the obligations of R212 (a) to (c), from a state in which no latch is loaded (R328): exactly the
addressed cells take `Prog(old, word)`, their latches keep the staged words, and the reply is the echo. -/
def Obligations.WriteProgramsTheWords : Prop :=
  ∀ (s : State) (address count : Word) (data : List Word),
    data.length = count.toNat → count.toNat ≤ 61 → RowWriteAllowed s address count.toNat →
    (∀ i, isLoaded s i = false) →
    ∃ t, exec (.write address count data) s = .next t ∧ RepliesWith 0x000B s t ∧
      (∀ x, pmWord t x =
        if address.toNat ≤ x ∧ x < address.toNat + data.length then
          s.dev.prog (pmWord s x) (s.dev.trunc (data.getD (x - address.toNat) 0))
        else pmWord s x) ∧
      (∀ i, latchWord t i =
        if latchIndex s.dev address.toNat ≤ i ∧ i < latchIndex s.dev address.toNat + data.length then
          s.dev.trunc (data.getD (i - latchIndex s.dev address.toNat) 0)
        else latchWord s i) ∧
      t = { s with
        buf := t.buf, rdPtr := 0, len := 2, pm := t.pm, latch := t.latch, loaded := [],
        nvmadr := address + (count - 1), nvmdat := data.getD (data.length - 1) 0, nvmcon := 0x04,
        unlock := .locked, gieSaved := t.gieSaved }

/-- WRITE with `count = 0` calls no driver operation and replies with the echo (R212(e)): the spec's decision D14 where
its source is silent (log entry 19). -/
def Obligations.WriteOfNoWordsOnlyReplies : Prop :=
  ∀ (s : State) (address : Word),
    ∃ t, exec (.write address 0 []) s = .next t ∧ RepliesWith 0x000B s t ∧
      t = { s with buf := t.buf, rdPtr := 0, len := 2 }

/-- ERASE (R210) under the obligation of R213(a): every cell of the row that holds the address becomes `ERASE_VALUE`, every
other cell stays, and the reply is the echo. -/
def Obligations.EraseErasesTheRow : Prop :=
  ∀ (s : State) (address : Word), validTarget s.dev address 1 = true →
    ∃ t, exec (.erase address) s = .next t ∧ RepliesWith 0x0015 s t ∧
      (∀ x, pmWord t x = if InRowOf s.dev address.toNat x then s.dev.eraseValue else pmWord s x) ∧
      t = { s with
        buf := t.buf, rdPtr := 0, len := 2, pm := t.pm, nvmadr := address, nvmcon := 0x10, unlock := .locked,
        gieSaved := t.gieSaved }

/-- Where the obligations of R212 and R213 fail, WRITE and ERASE are given no meaning (U1, U2, U5): a count past the buffer,
words in two rows, a target outside program memory or in the bootloader's rows. Operand violations have no priority in the spec
(R280(d)): which name a WRITE that breaks several gets (the count, then the rows, then the target) is log entry 18 (DEDUCED), and that
`BOOT_ROWS` is looked up for these commands is log entry 17 (DEDUCED). -/
def Obligations.UndefinedTargetsAreRefused : Prop :=
  ∀ (s : State) (address count : Word) (data : List Word),
    (61 < count.toNat → exec (.write address count data) s = .refused .payloadPastBuffer) ∧
    (1 ≤ count.toNat → count.toNat ≤ 61 → data.length = count.toNat →
      inOneRow s.dev address count.toNat = false → exec (.write address count data) s = .refused .rowCrossing) ∧
    (1 ≤ count.toNat → count.toNat ≤ 61 → data.length = count.toNat →
      inOneRow s.dev address count.toNat = true → validTarget s.dev address count.toNat = false →
      exec (.write address count data) s = .refused .invalidTarget) ∧
    (validTarget s.dev address 1 = false → exec (.erase address) s = .refused .invalidTarget)

/-- AddrRead (R242, R200): `ReplyingPhase`, then the command in the buffer, once. It answers a next state for every command
but a WRITE or ERASE whose obligations fail; the phase is then `ReplyingPhase`, or `AddressPhase` after a re-entry. -/
def Obligations.AddrReadRunsTheCommand : Prop :=
  ∀ s : State,
    exec .addrRead s = exec (fetchCommand s) { s with phase := .replying } ∧
    (selectedCommand s ≠ .write → selectedCommand s ≠ .erase →
      ∃ t, exec .addrRead s = .next t ∧ t.phase = if selectedCommand s = .unknown then .address else .replying) ∧
    (selectedCommand s = .erase → validTarget s.dev (bufWord s 1) 1 = true →
      ∃ t, exec .addrRead s = .next t ∧ t.phase = .replying ∧ RepliesWith 0x0015 s t) ∧
    (selectedCommand s = .write → (bufWord s 2).toNat ≤ 61 → RowWriteAllowed s (bufWord s 1) (bufWord s 2).toNat →
      ∃ t, exec .addrRead s = .next t ∧ t.phase = .replying ∧ RepliesWith 0x000B s t)

/-- R251: on the buffer as a reply left it, with `n` bytes of it not yet read, a further read addressing finds INCOMPLETE for
`n < 2`; else the same command again after an echo, opcode 0 (unknown) after the error-ack, and an unknown opcode after INFO. The
spec marks R251 as derived from R242, R201 and R203. -/
def Obligations.RepeatedAddrReadRedispatches : Prop :=
  ∀ (s t : State) (n : BitVec 8),
    (n.toNat < 2 → fetchCommand { t with len := n } = .incomplete) ∧
    (2 ≤ n.toNat →
      (selectedCommand s = .sync ∨ selectedCommand s = .boot ∨ selectedCommand s = .write ∨ selectedCommand s = .erase →
        exec (fetchCommand s) s = .next t → fetchCommand { t with len := n } = fetchCommand s) ∧
      (exec .incomplete s = .next t → fetchCommand { t with len := n } = .unknown 0) ∧
      (exec .info s = .next t → fetchCommand { t with len := n } = .unknown (BitVec.ofNat 16 s.dev.infoSize)))

/-! ### Bus events (43_transport_events.md) -/

/-- AddrWrite (R241), in every phase. -/
def Obligations.AddrWriteResetsTheCursors : Prop :=
  ∀ s : State, exec .addrWrite s = .next { s with phase := .receiving, len := 0, wrPtr := 0, rdPtr := 0 }

/-- DataRx in `ReceivingPhase` (R243, R272): below capacity the byte is stored at `wr_ptr` and both counts advance; at capacity
nothing changes. The capacity of 128 bytes in every clause is the spec's own decision (D1, R7, 90_conflicts.md C2). Room left with `wr_ptr`
past the buffer, which R26 rules out, stops with a fault (log entry 13, DESIGN CHOICE). -/
def Obligations.DataRxStoresOrDrops : Prop :=
  ∀ (s : State) (b : Byte), s.phase = .receiving →
    (s.len.toNat < 128 → s.wrPtr.toNat < 128 →
      ∃ t, exec (.dataRx b) s = .next t ∧
        (∀ i, bufByte t i = if i = s.wrPtr.toNat then b else bufByte s i) ∧
        t = { s with buf := t.buf, wrPtr := s.wrPtr + 1, len := s.len + 1 }) ∧
    (s.len.toNat < 128 → 128 ≤ s.wrPtr.toNat → exec (.dataRx b) s = .fault .bufferBounds) ∧
    (128 ≤ s.len.toNat → exec (.dataRx b) s = .next s)

/-- DataReq in `ReplyingPhase` (R244): the byte at `rd_ptr` while bytes are left, 0x00 and no change afterwards. That `rd_ptr` is a byte
index and `len` the remaining count is the spec's own decision (D13, R24, R25), the 128 bytes of the buffer D1. Bytes left with `rd_ptr` past
the buffer, which R26 rules out, stops with a fault (log entry 13, DESIGN CHOICE). -/
def Obligations.DataReqStreamsTheReply : Prop :=
  ∀ s : State, s.phase = .replying →
    (0 < s.len.toNat → s.rdPtr.toNat < 128 →
      exec .dataReq s =
        .next { s with txData := some (bufByte s s.rdPtr.toNat), rdPtr := s.rdPtr + 1, len := s.len - 1 }) ∧
    (0 < s.len.toNat → 128 ≤ s.rdPtr.toNat → exec .dataReq s = .fault .bufferBounds) ∧
    (s.len = 0 → exec .dataReq s = .next { s with txData := some 0x00 })

/-- Data events in a phase that has no transition for them (R245): the byte is dropped, a request is answered 0x00, nothing
else changes, and the invocation ends as every one does: the spec's decision where its source is silent (log entry 19). -/
def Obligations.WrongPhaseEventsChangeNothing : Prop :=
  ∀ (s : State) (b : Byte),
    exec (.dataRxWrongPhase b) s = .next s ∧
    exec .dataReqWrongPhase s = .next { s with txData := some 0x00 } ∧
    (s.phase ≠ .receiving → exec (.dataRx b) s = .next s) ∧
    (s.phase ≠ .replying → exec .dataReq s = .next { s with txData := some 0x00 }) ∧
    (HandlerRuns s → s.evAddr = false → s.evRead = false → s.phase ≠ .receiving →
      step s = .next { clearOutputs s with evtPending := false, clkHold := false }) ∧
    (HandlerRuns s → s.evAddr = false → s.evRead = true → s.phase ≠ .replying →
      step s = .next { clearOutputs s with txData := some 0x00, evtPending := false, clkHold := false })

/-- R100: frame byte `k` is stored at `buf[k]`. After AddrWrite and the bytes of a frame that fits, the buffer holds the frame
from offset 0, and every later byte is as before. -/
def Obligations.FrameBytesLandInOrder : Prop :=
  ∀ (s : State) (bs : List Byte), bs.length ≤ 128 →
    ∃ t, andThen (exec .addrWrite s) (receiveAll bs) = .next t ∧
      t.len.toNat = bs.length ∧ t.wrPtr = t.len ∧ t.rdPtr = 0 ∧ t.phase = .receiving ∧
      (∀ k, k < bs.length → bufByte t k = bs.getD k 0) ∧
      (∀ k, bs.length ≤ k → bufByte t k = bufByte s k) ∧
      t = { s with buf := t.buf, phase := .receiving, len := t.len, wrPtr := t.wrPtr, rdPtr := 0 }

/-- A command sent over the bus is the command that runs: after AddrWrite and the bytes of a well-formed command, the buffer
decodes to it, and the read addressing runs it (R100 to R108, R242, R248), whatever the device's unlock values. -/
def Obligations.SentFrameIsTheCommandRun : Prop :=
  ∀ (k : Keys) (s : State) (i : Instr), i.wellFormed = true → (∃ len, i.standsAt (.buffer len)) →
    ∃ t, andThen (exec .addrWrite s) (receiveAll (encode k i)) = .next t ∧
      fetchCommand t = i ∧ exec .addrRead t = exec i { t with phase := .replying }

/-! ### Accesses to the controller (40_nvm_controller.md) -/

/-- NVM.READ of program space (R132): in range the word at `NVMADR`; fields updated, sequencer relocked, nothing else changed.
Out of range the result is a free value (U3) of `W` bits, zero-extended as R42 and R132 say (the spec's decision D4); that it is drawn
in turn is the model's form (log entry 5, DESIGN CHOICE). -/
def Obligations.NvmReadsProgramSpace : Prop :=
  ∀ (s : State) (r l f r2 e : Bool),
    (s.nvmadr.toNat < s.dev.flashWords →
      exec (.nvmReadPm r l f r2 e) s = .next { s with
        nvmcon := byteOfBits false false l f false e false false, unlock := .locked,
        nvmdat := pmWord s s.nvmadr.toNat }) ∧
    (s.dev.flashWords ≤ s.nvmadr.toNat →
      exec (.nvmReadPm r l f r2 e) s = .next { s with
        nvmcon := byteOfBits false false l f false e false false, unlock := .locked,
        nvmdat := s.dev.trunc (Config.anyWord s.draws), draws := s.draws + 1 })

/-- NVM.READ of configuration space (R133): in the populated range the word at `NVMADR`; `SPACE` stays 1. Outside it the result is a
free value (U3) of `W` bits, zero-extended (R42; decision D4); that it is drawn in turn is the model's form (log entry 5, DESIGN
CHOICE). -/
def Obligations.NvmReadsConfigurationSpace : Prop :=
  ∀ (s : State) (r l f r2 e : Bool),
    (inCfg s.dev s.nvmadr.toNat = true →
      exec (.nvmReadCfg r l f r2 e) s = .next { s with
        nvmcon := byteOfBits false true l f false e false false, unlock := .locked,
        nvmdat := cfgWord s s.nvmadr.toNat }) ∧
    (inCfg s.dev s.nvmadr.toNat = false →
      exec (.nvmReadCfg r l f r2 e) s = .next { s with
        nvmcon := byteOfBits false true l f false e false false, unlock := .locked,
        nvmdat := s.dev.trunc (Config.anyWord s.draws), draws := s.draws + 1 })

/-- NVM.LATCH while `Unlocked` (R134): one latch is loaded with the low `W` bits of `NVMDAT`; no cell of `pm` changes.
That the upper bits are dropped is the spec's decision (D4); that the request is performed with `GIE = 1` too is log entry 28 (DESIGN
CHOICE). -/
def Obligations.NvmLatchLoadsOneLatch : Prop :=
  ∀ (s : State) (r r2 : Bool), s.unlock = .unlocked →
    ∃ t, exec (.nvmLatch r r2) s = .next t ∧
      (∀ i, latchWord t i = if i = s.nvmadr.toNat % s.dev.rowWords then s.dev.trunc s.nvmdat else latchWord s i) ∧
      (∀ i, isLoaded t i = if i = s.nvmadr.toNat % s.dev.rowWords then true else isLoaded s i) ∧
      t = { s with nvmcon := 0x24, unlock := .locked, latch := t.latch, loaded := t.loaded }

/-- NVM.COMMIT while `Unlocked`, in range (R135): the addressed latch is loaded, then every loaded cell of the row is programmed
and no latch stays loaded; cells that are not loaded and every other row keep their value.
That cells whose latch is not loaded stay, that programming is `Prog` and that the loaded bits are cleared is the spec's own decision
(D10), and so is dropping the upper bits of `NVMDAT` (D4). That a bootloader row is not excepted is log entry 17 (DEDUCED), that the
request is performed with `GIE = 1` too log entry 28 (DESIGN CHOICE). -/
def Obligations.NvmCommitProgramsTheRow : Prop :=
  ∀ (s : State) (r r2 : Bool), s.unlock = .unlocked → s.nvmadr.toNat < s.dev.flashWords →
    ∃ t, exec (.nvmCommit r r2) s = .next t ∧
      (∀ x, pmWord t x =
        if x = s.nvmadr.toNat then s.dev.prog (pmWord s x) (s.dev.trunc s.nvmdat)
        else if InRowOf s.dev s.nvmadr.toNat x ∧ isLoaded s (x - rowBase s.dev s.nvmadr.toNat) = true then
          s.dev.prog (pmWord s x) (latchWord s (x - rowBase s.dev s.nvmadr.toNat))
        else pmWord s x) ∧
      (∀ i, latchWord t i = if i = s.nvmadr.toNat % s.dev.rowWords then s.dev.trunc s.nvmdat else latchWord s i) ∧
      t = { s with nvmcon := 0x04, unlock := .locked, pm := t.pm, latch := t.latch, loaded := [] }

/-- NVM.ERASE while `Unlocked`, in range (R136): the row that holds `NVMADR` is erased, every other row stays, and so do
`NVMDAT`, the latches and `ERASE` and `EN`. That the latches stay, and that `ERASE` goes before `LATCHONLY`, is the spec's decision (D10),
that the fields stay D7. That a bootloader row is not excepted is log entry 17 (DEDUCED), that the request is performed with `GIE = 1`
too log entry 28 (DESIGN CHOICE). -/
def Obligations.NvmEraseErasesTheRow : Prop :=
  ∀ (s : State) (r l r2 : Bool), s.unlock = .unlocked → s.nvmadr.toNat < s.dev.flashWords →
    ∃ t, exec (.nvmErase r l r2) s = .next t ∧
      (∀ x, pmWord t x = if InRowOf s.dev s.nvmadr.toNat x then s.dev.eraseValue else pmWord s x) ∧
      t = { s with nvmcon := byteOfBits false false l true false true false false, unlock := .locked, pm := t.pm }

/-- A commit request while not `Unlocked`, or with `EN = 0`, updates the fields, relocks, and changes nothing else (R137).
That NVM.IGNORED carries the `SPACE` bit is log entry 8 (DEDUCED). -/
def Obligations.CommitRequestIgnored : Prop :=
  ∀ (s : State) (r sp l f r2 e : Bool),
    (s.unlock ≠ .unlocked →
      exec (.nvmLatch r r2) s = .next { s with nvmcon := 0x24, unlock := .locked } ∧
      exec (.nvmCommit r r2) s = .next { s with nvmcon := 0x04, unlock := .locked } ∧
      exec (.nvmErase r l r2) s =
        .next { s with nvmcon := byteOfBits false false l true false true false false, unlock := .locked }) ∧
    (s.unlock ≠ .unlocked ∨ e = false →
      exec (.nvmIgnored r sp l f r2 e) s =
        .next { s with nvmcon := byteOfBits false sp l f false e false false, unlock := .locked })

/-- A write of `NVMCON` with no request only updates the fields and relocks; reading `NVMCON` returns the four fields, the
other bits 0, and relocks (R138). That a read is a step of its own is the model's form (log entry 9). -/
def Obligations.NvmconFieldsAreWrittenAndRead : Prop :=
  ∀ (s : State) (r sp l f r2 e : Bool),
    exec (.nvmNop r sp l f r2 e) s =
      .next { s with nvmcon := byteOfBits false sp l f false e false false, unlock := .locked } ∧
    (TakesInput s (.access (.read .con)) →
      step s = .next { takeInput (clearOutputs s) with
        result := [(byteOfBits false (conSpace s.nvmcon) (conLatchOnly s.nvmcon) (conErase s.nvmcon) false
          (conEn s.nvmcon) false false).setWidth 16],
        unlock := .locked })

/-- R142: `READ` and `COMMIT` both 1 have no defined result, nor has a performed commit request on the configuration space or
outside program memory. Two readings of it are log entry 8 (DEDUCED): the first is refused in every state of the sequencer, although
R137 taken alone would ignore the request while not `Unlocked`; and `SPACE = 1` is refused before `ERASE` or the address is looked
at. -/
def Obligations.UndefinedRequestsAreRefused : Prop :=
  ∀ (s : State) (r sp l f r2 e : Bool),
    exec (.nvmUndefined r sp l f r2 e) s = .refused .readWithCommit ∧
    (s.unlock = .unlocked →
      exec (.nvmIgnored r true l f r2 true) s = .refused .commitToConfig ∧
      (s.dev.flashWords ≤ s.nvmadr.toNat →
        exec (.nvmCommit r r2) s = .refused .invalidTarget ∧ exec (.nvmErase r l r2) s = .refused .invalidTarget))

/-- A write of `NVMKEY` stores nothing and only moves the sequencer, from each of its states as R131 says: the two keys, any
other byte; a read returns 0 and relocks (R140). The keys are the device's (R10); that they differ is log entry 3 (DEDUCED), and
that an access is a step of its own is the model's form (log entry 9). -/
def Obligations.KeysOnlyMoveTheSequencer : Prop :=
  ∀ s : State,
    exec .nvmkeyKey1 s = .next { s with unlock := if s.unlock = .locked then .key1Seen else .locked } ∧
    exec .nvmkeyKey2 s = .next { s with unlock := if s.unlock = .key1Seen then .unlocked else .locked } ∧
    (∀ v, TakesInput s (.access (.writeKey v)) → v ≠ s.dev.keys.key1 → v ≠ s.dev.keys.key2 →
      step s = .next { takeInput (clearOutputs s) with unlock := .locked }) ∧
    (TakesInput s (.access (.read .key)) →
      step s = .next { takeInput (clearOutputs s) with result := [0], unlock := .locked })

/-- No write of `NVMCON` changes program memory or a latch unless the sequencer is `Unlocked` and `EN` is written 1 (R83, R131). -/
def Obligations.FlashNeedsUnlockAndEnable : Prop :=
  ∀ (s t : State) (v : Byte), s.unlock ≠ .unlocked ∨ conEn v = false → exec (decodeNvmcon v) s = .next t →
    t.pm = s.pm ∧ t.latch = s.latch ∧ t.loaded = s.loaded ∧ t.unlock = .locked

/-! ### Driver operations (41_nvm_driver_ops.md): the net effect of each sequence of accesses -/

/-- readWord (R171). Out of range the result is a free value (U3) of `W` bits, zero-extended (R42, R132; decision D4); that it
is drawn in turn is the model's form (log entry 5, DESIGN CHOICE). -/
def Obligations.ReadWordNetEffect : Prop :=
  ∀ (s : State) (address : Word),
    (address.toNat < s.dev.flashWords →
      exec (.readWord address) s = .next { s with
        nvmadr := address, nvmdat := pmWord s address.toNat, nvmcon := 0x00, unlock := .locked,
        result := [pmWord s address.toNat] }) ∧
    (s.dev.flashWords ≤ address.toNat →
      exec (.readWord address) s = .next { s with
        nvmadr := address, nvmdat := s.dev.trunc (Config.anyWord s.draws), draws := s.draws + 1, nvmcon := 0x00, unlock := .locked,
        result := [s.dev.trunc (Config.anyWord s.draws)] })

/-- readConfigWord (R172). Outside the populated range the result is a free value (U3) of `W` bits, zero-extended (R42; decision D4);
that it is drawn in turn is the model's form (log entry 5, DESIGN CHOICE). -/
def Obligations.ReadConfigWordNetEffect : Prop :=
  ∀ (s : State) (address : Word),
    (inCfg s.dev address.toNat = true →
      exec (.readConfigWord address) s = .next { s with
        nvmadr := address, nvmdat := cfgWord s address.toNat, nvmcon := 0x40, unlock := .locked,
        result := [cfgWord s address.toNat] }) ∧
    (inCfg s.dev address.toNat = false →
      exec (.readConfigWord address) s = .next { s with
        nvmadr := address, nvmdat := s.dev.trunc (Config.anyWord s.draws), draws := s.draws + 1, nvmcon := 0x40, unlock := .locked,
        result := [s.dev.trunc (Config.anyWord s.draws)] })

/-- readBlock (R173): exactly `count` words, each the word at its address where that is populated, and of `W` bits everywhere (R42);
for `count = 0` no register is accessed, as the spec derives from R171. That an address wraps modulo 2^16 is the spec's decision D6, that
a read word is zero-extended D4. -/
def Obligations.ReadBlockReadsCountWords : Prop :=
  ∀ (s : State) (address count : Word),
    (count = 0 → exec (.readBlock address count) s = .next { s with result := [] }) ∧
    ∃ t, exec (.readBlock address count) s = .next t ∧
      t.result.length = count.toNat ∧
      (∀ i, i < count.toNat → (address + BitVec.ofNat 16 i).toNat < s.dev.flashWords →
        t.result.getD i 0 = pmWord s (address + BitVec.ofNat 16 i).toNat) ∧
      (∀ i, i < count.toNat → s.dev.trunc (t.result.getD i 0) = t.result.getD i 0) ∧
      (count ≠ 0 →
        t.nvmadr = address + (count - 1) ∧ t.nvmdat = t.result.getD (count.toNat - 1) 0 ∧ t.nvmcon = 0x00 ∧
        t.unlock = .locked) ∧
      t = { s with
        nvmadr := t.nvmadr, nvmdat := t.nvmdat, nvmcon := t.nvmcon, unlock := t.unlock, draws := t.draws,
        result := t.result }

/-- writeWord, latch only (R174): from any state, one latch is staged, `pm` and `GIE` stay. That the data is cut to `W` bits is the
spec's decision (D4), that the discipline is applied on this path D9. -/
def Obligations.WriteWordLatchNetEffect : Prop :=
  ∀ (s : State) (address data : Word),
    ∃ t, exec (.writeWordLatch address data) s = .next t ∧
      (∀ i, latchWord t i = if i = address.toNat % s.dev.rowWords then s.dev.trunc data else latchWord s i) ∧
      (∀ i, isLoaded t i = if i = address.toNat % s.dev.rowWords then true else isLoaded s i) ∧
      t = { s with
        nvmadr := address, nvmdat := data, nvmcon := 0x24, unlock := .locked, gieSaved := t.gieSaved, latch := t.latch,
        loaded := t.loaded }

/-- writeWord with commit (R175): in range, the staged row is programmed at once; `EN` stays 1 and `GIE` is as on entry. Out
of range it has no meaning (R142(c)). The spec marks as its own decisions that `EN` stays 1 and `NVMCON`'s values (D12, R177, R329), `Prog`,
the cells not loaded and the cleared loaded bits (D10, R135), and the cut to `W` bits (D4). That bootloader rows are not checked is log
entry 17 (DEDUCED). -/
def Obligations.WriteWordCommitNetEffect : Prop :=
  ∀ (s : State) (address data : Word),
    (address.toNat < s.dev.flashWords →
      ∃ t, exec (.writeWordCommit address data) s = .next t ∧
        (∀ x, pmWord t x =
          if x = address.toNat then s.dev.prog (pmWord s x) (s.dev.trunc data)
          else if InRowOf s.dev address.toNat x ∧ isLoaded s (x - rowBase s.dev address.toNat) = true then
            s.dev.prog (pmWord s x) (latchWord s (x - rowBase s.dev address.toNat))
          else pmWord s x) ∧
        (∀ i, latchWord t i = if i = address.toNat % s.dev.rowWords then s.dev.trunc data else latchWord s i) ∧
        t = { s with
          nvmadr := address, nvmdat := data, nvmcon := 0x04, unlock := .locked, gieSaved := t.gieSaved, pm := t.pm,
          latch := t.latch, loaded := [] }) ∧
    (s.dev.flashWords ≤ address.toNat → exec (.writeWordCommit address data) s = .refused .invalidTarget)

/-- eraseRow (R176): in range, the row is erased, `EN` is closed and `GIE` is as on entry. Out of range it has no meaning
(R142(c)). The spec marks as its own decisions that the latches and the loaded bits stay (D10, R136) and `NVMCON`'s value, with `ERASE`
still 1 (D7, D12). That bootloader rows are not checked is log entry 17 (DEDUCED). -/
def Obligations.EraseRowNetEffect : Prop :=
  ∀ (s : State) (address : Word),
    (address.toNat < s.dev.flashWords →
      ∃ t, exec (.eraseRow address) s = .next t ∧
        (∀ x, pmWord t x = if InRowOf s.dev address.toNat x then s.dev.eraseValue else pmWord s x) ∧
        t = { s with nvmadr := address, nvmcon := 0x10, unlock := .locked, gieSaved := t.gieSaved, pm := t.pm }) ∧
    (s.dev.flashWords ≤ address.toNat → exec (.eraseRow address) s = .refused .invalidTarget)

/-- RowWrite (R178) under its obligations, with no latch loaded on entry: exactly the addressed cells take `Prog(old, word)` at
once, their latches hold the staged words and none stays loaded, `GIE` is as on entry. For no words no register is accessed: the
spec's decision D14 (log entry 19). Words in two rows, and a target that is not valid, are refused (U1, U2); that the rows come
before the target where both fail is log entry 18 (DEDUCED). -/
def Obligations.RowWriteNetEffect : Prop :=
  ∀ (s : State) (address : Word) (words : List Word),
    (words = [] → exec (.rowWrite address words) s = .next s) ∧
    (RowWriteAllowed s address words.length → (∀ i, isLoaded s i = false) →
      ∃ t, exec (.rowWrite address words) s = .next t ∧
        (∀ x, pmWord t x =
          if address.toNat ≤ x ∧ x < address.toNat + words.length then
            s.dev.prog (pmWord s x) (s.dev.trunc (words.getD (x - address.toNat) 0))
          else pmWord s x) ∧
        (∀ i, latchWord t i =
          if latchIndex s.dev address.toNat ≤ i ∧ i < latchIndex s.dev address.toNat + words.length then
            s.dev.trunc (words.getD (i - latchIndex s.dev address.toNat) 0)
          else latchWord s i) ∧
        t = { s with
          nvmadr := address + BitVec.ofNat 16 (words.length - 1), nvmdat := words.getD (words.length - 1) 0,
          nvmcon := 0x04, unlock := .locked, gieSaved := t.gieSaved, pm := t.pm, latch := t.latch, loaded := [] }) ∧
    (words ≠ [] → inOneRow s.dev address words.length = false →
      exec (.rowWrite address words) s = .refused .rowCrossing) ∧
    (words ≠ [] → inOneRow s.dev address words.length = true → validTarget s.dev address words.length = false →
      exec (.rowWrite address words) s = .refused .invalidTarget)

/-- UnlockAndCommit (R143): with interrupts disabled and the sequencer `Locked`, the handshake unlocks and the request selected
by the fields held is performed, as the row of that byte says; from another state of the sequencer it fails; with interrupts
enabled it has no meaning (U6). The spec marks this net effect as derived from R131. -/
def Obligations.HandshakePerformsTheRequest : Prop :=
  ∀ s : State,
    (s.gie = true → exec .unlockAndCommit s = .refused .preemptibleHandshake) ∧
    (s.gie = false → s.unlock ≠ .locked →
      exec .unlockAndCommit s = .next { s with nvmcon := nvmconHeld s.nvmcon, unlock := .locked }) ∧
    (s.gie = false → s.unlock = .locked →
      exec .unlockAndCommit s = exec (decodeNvmcon (nvmconHeld s.nvmcon ||| 0x02)) { s with unlock := .unlocked } ∧
      (conEn s.nvmcon = false →
        exec .unlockAndCommit s = .next { s with nvmcon := nvmconHeld s.nvmcon, unlock := .locked }) ∧
      (nvmconHeld s.nvmcon = 0x24 →
        ∃ t, exec .unlockAndCommit s = .next t ∧
          (∀ i, latchWord t i = if i = s.nvmadr.toNat % s.dev.rowWords then s.dev.trunc s.nvmdat else latchWord s i) ∧
          (∀ i, isLoaded t i = if i = s.nvmadr.toNat % s.dev.rowWords then true else isLoaded s i) ∧
          t = { s with nvmcon := 0x24, latch := t.latch, loaded := t.loaded }) ∧
      (nvmconHeld s.nvmcon = 0x04 → s.nvmadr.toNat < s.dev.flashWords →
        ∃ t, exec .unlockAndCommit s = .next t ∧
          (∀ x, pmWord t x =
            if x = s.nvmadr.toNat then s.dev.prog (pmWord s x) (s.dev.trunc s.nvmdat)
            else if InRowOf s.dev s.nvmadr.toNat x ∧ isLoaded s (x - rowBase s.dev s.nvmadr.toNat) = true then
              s.dev.prog (pmWord s x) (latchWord s (x - rowBase s.dev s.nvmadr.toNat))
            else pmWord s x) ∧
          (∀ i, latchWord t i = if i = s.nvmadr.toNat % s.dev.rowWords then s.dev.trunc s.nvmdat else latchWord s i) ∧
          t = { s with nvmcon := 0x04, pm := t.pm, latch := t.latch, loaded := [] }) ∧
      (nvmconHeld s.nvmcon = 0x14 → s.nvmadr.toNat < s.dev.flashWords →
        ∃ t, exec .unlockAndCommit s = .next t ∧
          (∀ x, pmWord t x = if InRowOf s.dev s.nvmadr.toNat x then s.dev.eraseValue else pmWord s x) ∧
          t = { s with nvmcon := 0x14, pm := t.pm }))

/-- `GIE` after is `GIE` before, for both values, through every instruction but a re-entry, which sets `GIE_RESET` (R177, R216,
R277, R321). -/
def Obligations.InterruptEnableIsRestored : Prop :=
  ∀ (i : Instr) (s t : State), exec i s = .next t →
    (∀ opcode, i ≠ .unknown opcode) → (i = .addrRead → selectedCommand s ≠ .unknown) → t.gie = s.gie

/-! ### The machine -/

/-- Every step keeps the machine's invariant: sparse storage in canonical form, the cursors as R26 says, `NVMCON`'s reserved
bits 0 (R43). -/
def Obligations.StepKeepsSound : Prop :=
  ∀ s t : State, Sound s → step s = .next t → Sound t

/-- The state after reset meets the invariant, for every device. -/
def Obligations.ResetIsSound : Prop := Sound State.reset ∧ ∀ c : Config, Sound (State.resetOf c)

/-- R328: every handler invocation that starts with no latch loaded and the sequencer locked ends so. -/
def Obligations.HandlerKeepsLatchesQuiet : Prop :=
  ∀ s t : State, HandlerRuns s → LatchesQuiet s → step s = .next t → LatchesQuiet t

/-- No step, a hardware reset included, changes the configuration space (R49) or the device's parameters, which R19 says are
configuration and no state (R8, R9). That they are a field of the state, which no step changes, is the model's form (log entry 1, DESIGN
CHOICE). -/
def Obligations.StepKeepsConfigurationSpace : Prop :=
  ∀ s t : State, step s = .next t → t.cfg = s.cfg ∧ t.dev = s.dev

/-- R28: `run` goes from `Active` to `Left` only by REBOOT. -/
def Obligations.OnlyRebootLeaves : Prop :=
  ∀ s t : State, step s = .next t → s.run = .active → t.run = .left →
    HandlesAddrRead s ∧ selectedCommand s = .reboot

/-- The host reaches program memory only through the commands WRITE and ERASE (R70): a handler invocation for anything else
leaves all of it. -/
def Obligations.OnlyWriteAndEraseChangeFlash : Prop :=
  ∀ s t : State, HandlerRuns s → step s = .next t →
    ¬(HandlesAddrRead s ∧ (selectedCommand s = .write ∨ selectedCommand s = .erase)) → t.pm = s.pm

/-! ### The hazards the driver guards (70_reset_and_hazards.md) -/

/-- R321: in the two operations the source applies the discipline to, the handshake runs on a state with `GIE` saved and cleared, `GIE`
is 0 up to its end, and what follows it ends by writing the saved value back; and `GIE` after is `GIE` before, for both values, through
every operation of the driver. -/
def Obligations.HandshakeRunsWithInterruptsOff : Prop :=
  ∀ (s : State) (address data : Word),
    (∃ u, InterruptsSavedAndOff s u ∧
      exec (.writeWordCommit address data) s =
        andThen (exec .unlockAndCommit u) (fun t => .next { t with gie := t.gieSaved }) ∧
      ∀ t, exec .unlockAndCommit u = .next t → t.gie = false ∧ t.gieSaved = s.gie) ∧
    (∃ u, InterruptsSavedAndOff s u ∧
      exec (.eraseRow address) s =
        andThen (exec .unlockAndCommit u) (fun t =>
        andThen (closeWindow t) fun v => .next { v with gie := v.gieSaved }) ∧
      ∀ t, exec .unlockAndCommit u = .next t → t.gie = false ∧ t.gieSaved = s.gie) ∧
    ∀ (words : List Word) (i : Instr) (t : State),
      i ∈ [.readWord address, .readConfigWord address, .readBlock address data, .writeWordLatch address data,
        .writeWordCommit address data, .eraseRow address, .rowWrite address words] →
      exec i s = .next t → t.gie = s.gie

/-- R322: in an erase, what comes right after the handshake, whatever state that left, is the close of the enable window, before
interrupts are restored; the close always completes and changes nothing but `NVMCON` and the sequencer; and an erase in program memory
completes, with `EN = 0`. -/
def Obligations.EraseClosesTheWindowAtOnce : Prop :=
  ∀ (s : State) (address : Word),
    (∃ u, InterruptsSavedAndOff s u ∧
      exec (.eraseRow address) s =
        andThen (exec .unlockAndCommit u) (fun t =>
        andThen (closeWindow t) fun v => .next { v with gie := v.gieSaved })) ∧
    (∀ t, ∃ v, closeWindow t = .next v ∧ conEn v.nvmcon = false ∧
      v = { t with nvmcon := v.nvmcon, unlock := v.unlock }) ∧
    (address.toNat < s.dev.flashWords → ∃ t, exec (.eraseRow address) s = .next t ∧ conEn t.nvmcon = false)

/-- R324: on every path on which the event's rule returns, the invocation completes and ends with the clock released. -/
def Obligations.ReturningHandlerReleasesTheClock : Prop :=
  ∀ (s u : State) (i : Instr), HandlerRuns s →
    decode s.dev.keys (.busEvent s.phase)
      [byteOfBits false false false false false false s.evAddr s.evRead, s.evData] = .ok i →
    exec i (clearOutputs s) = .next u →
    ¬(i = .addrRead ∧ (selectedCommand s = .reboot ∨ selectedCommand s = .unknown)) →
    ∃ t, step s = .next t ∧ t.clkHold = false
end

