-- ==== Sys2Proof/Laws/Cells.lean ====
section
/-! SUPPORT. What sparse storage does: reading after a write, and the canonical form. No law needs the list to be sorted
but those about the form itself. -/

namespace Sys2Proof.Machine

variable {α : Type}

theorem cellsLookup_insert (m : List (Nat × α)) (a b : Nat) (v : α) :
    cellsLookup (cellsInsert m a v) b = if b = a then some v else cellsLookup m b := by
  induction m with
  | nil => simp [cellsInsert, cellsLookup]
  | cons p m ih =>
    obtain ⟨k, w⟩ := p
    simp only [cellsInsert]
    split
    · simp [cellsLookup]
    · split
      · subst_vars; simp only [cellsLookup]; split <;> simp_all
      · next h1 h2 => simp only [cellsLookup, ih]; grind

theorem cellsLookup_erase (m : List (Nat × α)) (a b : Nat) :
    cellsLookup (cellsErase m a) b = if b = a then none else cellsLookup m b := by
  induction m with
  | nil => simp [cellsErase, cellsLookup]
  | cons p m ih =>
    obtain ⟨k, w⟩ := p
    simp only [cellsErase]
    split
    · subst_vars; rw [ih]; simp only [cellsLookup]; split <;> simp_all
    · simp only [cellsLookup, ih]; grind

/-- Read after write, at any address: the write's value there, the old value elsewhere. -/
theorem cellsLoad_store [DecidableEq α] (d : Nat → α) (m : List (Nat × α)) (a b : Nat) (v : α) :
    cellsLoad d (cellsStore d m a v) b = if b = a then v else cellsLoad d m b := by
  unfold cellsLoad cellsStore
  split
  · rw [cellsLookup_erase]; split <;> simp_all
  · rw [cellsLookup_insert]; split <;> simp_all

theorem cellsLoad_insert (d : Nat → α) (m : List (Nat × α)) (a b : Nat) (v : α) :
    cellsLoad d (cellsInsert m a v) b = if b = a then v else cellsLoad d m b := by
  unfold cellsLoad
  rw [cellsLookup_insert]; split <;> simp

/-- Read after a range write: `f`'s word inside the range where it has one, the old value elsewhere. -/
theorem cellsLoad_storeRange [DecidableEq α] (d : Nat → α) (base : Nat) (f : Nat → Option α) (n : Nat)
    (m : List (Nat × α)) (b : Nat) :
    cellsLoad d (cellsStoreRange d base f n m) b =
      if base ≤ b ∧ b < base + n then (f (b - base)).getD (cellsLoad d m b) else cellsLoad d m b := by
  induction n with
  | zero => simp only [cellsStoreRange]; split <;> first | omega | rfl
  | succ n ih =>
    simp only [cellsStoreRange]
    by_cases hb : b = base + n
    · subst hb
      have : base + n - base = n := by omega
      simp only [this]
      cases h : f n with
      | none => simp [ih]
      | some v => simp [cellsLoad_store]
    · have key : (base ≤ b ∧ b < base + (n + 1)) ↔ (base ≤ b ∧ b < base + n) := by omega
      cases h : f n with
      | none => simp only [ih, key]
      | some v => simp only [cellsLoad_store, hb, if_false, ih, key]

/-! ### The canonical form -/

theorem mem_cellsInsert {m : List (Nat × α)} {a : Nat} {v : α} {p : Nat × α} (h : p ∈ cellsInsert m a v) :
    p = (a, v) ∨ p ∈ m := by
  induction m with
  | nil => simpa [cellsInsert] using h
  | cons q m ih =>
    obtain ⟨k, w⟩ := q
    simp only [cellsInsert] at h
    split at h
    · simpa using h
    · split at h
      · rcases List.mem_cons.1 h with h | h
        · exact .inl h
        · exact .inr (List.mem_cons_of_mem _ h)
      · rcases List.mem_cons.1 h with h | h
        · exact .inr (h ▸ List.mem_cons_self ..)
        · exact (ih h).imp id (List.mem_cons_of_mem _)

theorem mem_cellsErase {m : List (Nat × α)} {a : Nat} {p : Nat × α} (h : p ∈ cellsErase m a) : p ∈ m := by
  induction m with
  | nil => simp [cellsErase] at h
  | cons q m ih =>
    obtain ⟨k, w⟩ := q
    simp only [cellsErase] at h
    split at h
    · exact List.mem_cons_of_mem _ (ih h)
    · rcases List.mem_cons.1 h with h | h
      · exact h ▸ List.mem_cons_self ..
      · exact List.mem_cons_of_mem _ (ih h)

theorem cellsWf_iff (ok : Nat → α → Bool) (m : List (Nat × α)) :
    cellsWf ok m = true ↔ m.Pairwise (fun p q => p.1 < q.1) ∧ ∀ p ∈ m, ok p.1 p.2 = true := by
  simp [cellsWf]

theorem pairwise_cellsInsert {m : List (Nat × α)} (h : m.Pairwise fun p q => p.1 < q.1) (a : Nat) (v : α) :
    (cellsInsert m a v).Pairwise fun p q => p.1 < q.1 := by
  induction m with
  | nil => simp [cellsInsert]
  | cons q m ih =>
    obtain ⟨k, w⟩ := q
    obtain ⟨hk, hm⟩ := List.pairwise_cons.1 h
    simp only [cellsInsert]
    split
    · next hak =>
      refine List.pairwise_cons.2 ⟨fun p hp => ?_, h⟩
      rcases List.mem_cons.1 hp with rfl | hp
      · exact hak
      · exact Nat.lt_trans hak (hk p hp)
    · split
      · next hak => subst hak; exact List.pairwise_cons.2 ⟨fun p hp => hk p hp, hm⟩
      · next h1 h2 =>
        refine List.pairwise_cons.2 ⟨fun p hp => ?_, ih hm⟩
        rcases mem_cellsInsert hp with rfl | hp
        · show k < a
          omega
        · exact hk p hp

theorem pairwise_cellsErase {m : List (Nat × α)} (h : m.Pairwise fun p q => p.1 < q.1) (a : Nat) :
    (cellsErase m a).Pairwise fun p q => p.1 < q.1 := by
  induction m with
  | nil => simp [cellsErase]
  | cons q m ih =>
    obtain ⟨k, w⟩ := q
    obtain ⟨hk, hm⟩ := List.pairwise_cons.1 h
    simp only [cellsErase]
    split
    · exact ih hm
    · exact List.pairwise_cons.2 ⟨fun p hp => hk p (mem_cellsErase hp), ih hm⟩

/-- Listing an element keeps the form, if the form allows that element there. -/
theorem cellsWf_insert {ok : Nat → α → Bool} {m : List (Nat × α)} (h : cellsWf ok m = true) {a : Nat} {v : α}
    (hv : ok a v = true) : cellsWf ok (cellsInsert m a v) = true := by
  rw [cellsWf_iff] at h ⊢
  refine ⟨pairwise_cellsInsert h.1 a v, fun p hp => ?_⟩
  rcases mem_cellsInsert hp with rfl | hp
  · exact hv
  · exact h.2 p hp

theorem cellsWf_erase {ok : Nat → α → Bool} {m : List (Nat × α)} (h : cellsWf ok m = true) (a : Nat) :
    cellsWf ok (cellsErase m a) = true := by
  rw [cellsWf_iff] at h ⊢
  exact ⟨pairwise_cellsErase h.1 a, fun p hp => h.2 p (mem_cellsErase hp)⟩

/-- A store keeps the form: what it would list must be allowed, unless it is what an unlisted address reads as. -/
theorem cellsWf_store [DecidableEq α] {ok : Nat → α → Bool} {d : Nat → α} {m : List (Nat × α)} (h : cellsWf ok m = true)
    {a : Nat} {v : α} (hv : v ≠ d a → ok a v = true) : cellsWf ok (cellsStore d m a v) = true := by
  unfold cellsStore
  split
  · exact cellsWf_erase h a
  · next hne => exact cellsWf_insert h (hv hne)

theorem cellsWf_storeRange [DecidableEq α] {ok : Nat → α → Bool} {d : Nat → α} {base : Nat} {f : Nat → Option α} {n : Nat}
    {m : List (Nat × α)} (h : cellsWf ok m = true)
    (hf : ∀ i v, i < n → f i = some v → v ≠ d (base + i) → ok (base + i) v = true) :
    cellsWf ok (cellsStoreRange d base f n m) = true := by
  induction n with
  | zero => exact h
  | succ n ih =>
    have ih := ih fun i v hi => hf i v (Nat.lt_succ_of_lt hi)
    simp only [cellsStoreRange]
    split
    · exact ih
    · next v hv => exact cellsWf_store ih (hf n v (Nat.lt_succ_self n) hv)

/-- Contents given by a list are in the form, if each pair at an allowed address is. -/
theorem cellsWf_cellsOf [DecidableEq α] {form : Nat → α → Bool} {d : Nat → α} {ok : Nat → Bool} {m : List (Nat × α)}
    (h : ∀ p ∈ m, ok p.1 = true → p.2 ≠ d p.1 → form p.1 p.2 = true) : cellsWf form (cellsOf d ok m) = true := by
  induction m with
  | nil => simp [cellsOf, cellsWf]
  | cons q m ih =>
    have ih := ih fun p hp => h p (List.mem_cons_of_mem _ hp)
    simp only [cellsOf]
    split
    · next hok => exact cellsWf_store ih fun hne => h q (List.mem_cons_self ..) hok hne
    · exact ih

end Sys2Proof.Machine
end

