-- ==== Sys2Proof/Laws/Config.lean ====
section
/-! SUPPORT. The constraints of 00_scope.md R8 to R10 hold of every `Config`. -/

namespace Sys2Proof

/-- The two unlock values differ. -/
theorem Keys.key1_ne_key2 (k : Keys) : k.key1 ≠ k.key2 := by
  intro h
  have hg := k.gap.isLt
  have : (BitVec.ofNat 8 k.gap.val).toNat = k.gap.val := by simp; omega
  unfold Keys.key2 at h
  bv_omega

@[simp] theorem defaultKeys_key1 : defaultKeys.key1 = 0x55 := rfl
@[simp] theorem defaultKeys_key2 : defaultKeys.key2 = 0xAA := rfl

theorem Config.wordBits_bounds (c : Config) : 1 ≤ c.wordBits ∧ c.wordBits ≤ 16 := by
  unfold Config.wordBits; omega

theorem Config.two_le_rowWords (c : Config) : 2 ≤ c.rowWords := by
  have : 2 ^ 1 ≤ 2 ^ (c.rowIdx.val + 1) := Nat.pow_le_pow_right (by omega) (by omega)
  simpa [Config.rowWords] using this

theorem Config.rowWords_pos (c : Config) : 0 < c.rowWords := by have := c.two_le_rowWords; omega

theorem Config.rowWords_dvd (c : Config) : c.rowWords ∣ 65536 := by
  have : c.rowIdx.val + 1 ≤ 16 := by omega
  show 2 ^ (c.rowIdx.val + 1) ∣ 2 ^ 16
  exact pow_dvd_pow 2 this

theorem Config.rowWords_dvd_flashWords (c : Config) : c.rowWords ∣ c.flashWords := ⟨_, rfl⟩

theorem Config.flashWords_le (c : Config) : c.flashWords ≤ 65536 := by
  have hpos := c.rowWords_pos
  obtain ⟨k, hk⟩ := c.rowWords_dvd
  have hdiv : 65536 / c.rowWords = k := by rw [hk]; exact Nat.mul_div_cancel_left k hpos
  have hk0 : 0 < k := by
    rcases Nat.eq_zero_or_pos k with h | h
    · subst h; simp at hk
    · exact h
  have hlt : c.flashIdx % k < k := Nat.mod_lt _ hk0
  calc c.flashWords = c.rowWords * (c.flashIdx % k + 1) := by rw [Config.flashWords, hdiv]
    _ ≤ c.rowWords * k := Nat.mul_le_mul_left _ hlt
    _ = 65536 := hk.symm

theorem Config.flashWords_pos (c : Config) : 0 < c.flashWords :=
  Nat.mul_pos c.rowWords_pos (Nat.succ_pos _)

/-- A row that begins inside program memory lies inside it. -/
theorem Config.row_in_flash (c : Config) {a : Nat} (ha : a < c.flashWords) {i : Nat} (hi : i < c.rowWords) :
    a - a % c.rowWords + i < c.flashWords := by
  obtain ⟨k, hk⟩ := c.rowWords_dvd_flashWords
  have hmod := Nat.div_add_mod a c.rowWords
  have hlt : a / c.rowWords < k := by
    rw [Nat.div_lt_iff_lt_mul c.rowWords_pos, Nat.mul_comm, ← hk]; exact ha
  have hle : c.rowWords * (a / c.rowWords + 1) ≤ c.rowWords * k := Nat.mul_le_mul_left _ hlt
  rw [Nat.mul_add] at hle
  omega

@[simp] theorem Config.trunc_trunc (c : Config) (v : Word) : c.trunc (c.trunc v) = c.trunc v := by
  have h := c.wordBits_bounds.2
  ext i hi
  simp only [Config.trunc, BitVec.getElem_setWidth, BitVec.getLsbD_setWidth]
  grind

@[simp] theorem Config.trunc_eraseValue (c : Config) : c.trunc c.eraseValue = c.eraseValue := c.trunc_trunc _

@[simp] theorem Config.trunc_prog (c : Config) (old v : Word) : c.trunc (c.prog old v) = c.prog old v := c.trunc_trunc _

/-- `Prog(ERASE_VALUE, v) = v` for a program word `v` (decision D10). -/
theorem Config.prog_erased (c : Config) (v : Word) : c.prog c.eraseValue v = c.trunc v := by simp [Config.prog]

theorem Config.text_length_le (c : Config) : c.text.length ≤ 100 := by simp [Config.text]

/-- `INFO_WORDS <= CAP_WORDS` (R9). -/
theorem Config.infoWords_le (c : Config) : c.infoWords ≤ capWords := by
  have := c.text_length_le
  unfold Config.infoWords Config.textWords capWords; omega

theorem Config.infoSize_le (c : Config) : c.infoSize ≤ capBytes := by
  have := c.infoWords_le
  unfold Config.infoSize capBytes; omega

theorem Config.infoSize_ge (c : Config) : 28 ≤ c.infoSize := by
  unfold Config.infoSize Config.infoWords; omega

end Sys2Proof
end

