-- ==== Sys2Proof/Laws/State.lean ====
section
/-! SUPPORT. One lemma for each field and each named update of the state: what the field holds afterwards. All hold by
definition; with them no proof unfolds an update. -/

namespace Sys2Proof.Machine

variable (s : State)

/-! ### setBufByte -/

@[simp] theorem setBufByte_dev (i : Nat) (b : Byte) : (setBufByte i b s).dev = s.dev := rfl
@[simp] theorem setBufByte_buf (i : Nat) (b : Byte) : (setBufByte i b s).buf = cellsInsert s.buf i b := rfl
@[simp] theorem setBufByte_bufEpoch (i : Nat) (b : Byte) : (setBufByte i b s).bufEpoch = s.bufEpoch := rfl
@[simp] theorem setBufByte_wrPtr (i : Nat) (b : Byte) : (setBufByte i b s).wrPtr = s.wrPtr := rfl
@[simp] theorem setBufByte_rdPtr (i : Nat) (b : Byte) : (setBufByte i b s).rdPtr = s.rdPtr := rfl
@[simp] theorem setBufByte_len (i : Nat) (b : Byte) : (setBufByte i b s).len = s.len := rfl
@[simp] theorem setBufByte_phase (i : Nat) (b : Byte) : (setBufByte i b s).phase = s.phase := rfl
@[simp] theorem setBufByte_run (i : Nat) (b : Byte) : (setBufByte i b s).run = s.run := rfl
@[simp] theorem setBufByte_evtPending (i : Nat) (b : Byte) : (setBufByte i b s).evtPending = s.evtPending := rfl
@[simp] theorem setBufByte_clkHold (i : Nat) (b : Byte) : (setBufByte i b s).clkHold = s.clkHold := rfl
@[simp] theorem setBufByte_evAddr (i : Nat) (b : Byte) : (setBufByte i b s).evAddr = s.evAddr := rfl
@[simp] theorem setBufByte_evRead (i : Nat) (b : Byte) : (setBufByte i b s).evRead = s.evRead := rfl
@[simp] theorem setBufByte_evData (i : Nat) (b : Byte) : (setBufByte i b s).evData = s.evData := rfl
@[simp] theorem setBufByte_txData (i : Nat) (b : Byte) : (setBufByte i b s).txData = s.txData := rfl
@[simp] theorem setBufByte_goApp (i : Nat) (b : Byte) : (setBufByte i b s).goApp = s.goApp := rfl
@[simp] theorem setBufByte_goBoot (i : Nat) (b : Byte) : (setBufByte i b s).goBoot = s.goBoot := rfl
@[simp] theorem setBufByte_pcOut (i : Nat) (b : Byte) : (setBufByte i b s).pcOut = s.pcOut := rfl
@[simp] theorem setBufByte_nvmadr (i : Nat) (b : Byte) : (setBufByte i b s).nvmadr = s.nvmadr := rfl
@[simp] theorem setBufByte_nvmdat (i : Nat) (b : Byte) : (setBufByte i b s).nvmdat = s.nvmdat := rfl
@[simp] theorem setBufByte_nvmcon (i : Nat) (b : Byte) : (setBufByte i b s).nvmcon = s.nvmcon := rfl
@[simp] theorem setBufByte_latch (i : Nat) (b : Byte) : (setBufByte i b s).latch = s.latch := rfl
@[simp] theorem setBufByte_loaded (i : Nat) (b : Byte) : (setBufByte i b s).loaded = s.loaded := rfl
@[simp] theorem setBufByte_unlock (i : Nat) (b : Byte) : (setBufByte i b s).unlock = s.unlock := rfl
@[simp] theorem setBufByte_pm (i : Nat) (b : Byte) : (setBufByte i b s).pm = s.pm := rfl
@[simp] theorem setBufByte_cfg (i : Nat) (b : Byte) : (setBufByte i b s).cfg = s.cfg := rfl
@[simp] theorem setBufByte_gie (i : Nat) (b : Byte) : (setBufByte i b s).gie = s.gie := rfl
@[simp] theorem setBufByte_gieSaved (i : Nat) (b : Byte) : (setBufByte i b s).gieSaved = s.gieSaved := rfl
@[simp] theorem setBufByte_draws (i : Nat) (b : Byte) : (setBufByte i b s).draws = s.draws := rfl
@[simp] theorem setBufByte_result (i : Nat) (b : Byte) : (setBufByte i b s).result = s.result := rfl
@[simp] theorem setBufByte_inputs (i : Nat) (b : Byte) : (setBufByte i b s).inputs = s.inputs := rfl

/-! ### setBufWords -/

@[simp] theorem setBufWords_dev (i : Nat) (ws : List Word) : (setBufWords i ws s).dev = s.dev := rfl
@[simp] theorem setBufWords_buf (i : Nat) (ws : List Word) : (setBufWords i ws s).buf = insertWords i ws s.buf := rfl
@[simp] theorem setBufWords_bufEpoch (i : Nat) (ws : List Word) : (setBufWords i ws s).bufEpoch = s.bufEpoch := rfl
@[simp] theorem setBufWords_wrPtr (i : Nat) (ws : List Word) : (setBufWords i ws s).wrPtr = s.wrPtr := rfl
@[simp] theorem setBufWords_rdPtr (i : Nat) (ws : List Word) : (setBufWords i ws s).rdPtr = s.rdPtr := rfl
@[simp] theorem setBufWords_len (i : Nat) (ws : List Word) : (setBufWords i ws s).len = s.len := rfl
@[simp] theorem setBufWords_phase (i : Nat) (ws : List Word) : (setBufWords i ws s).phase = s.phase := rfl
@[simp] theorem setBufWords_run (i : Nat) (ws : List Word) : (setBufWords i ws s).run = s.run := rfl
@[simp] theorem setBufWords_evtPending (i : Nat) (ws : List Word) : (setBufWords i ws s).evtPending = s.evtPending := rfl
@[simp] theorem setBufWords_clkHold (i : Nat) (ws : List Word) : (setBufWords i ws s).clkHold = s.clkHold := rfl
@[simp] theorem setBufWords_evAddr (i : Nat) (ws : List Word) : (setBufWords i ws s).evAddr = s.evAddr := rfl
@[simp] theorem setBufWords_evRead (i : Nat) (ws : List Word) : (setBufWords i ws s).evRead = s.evRead := rfl
@[simp] theorem setBufWords_evData (i : Nat) (ws : List Word) : (setBufWords i ws s).evData = s.evData := rfl
@[simp] theorem setBufWords_txData (i : Nat) (ws : List Word) : (setBufWords i ws s).txData = s.txData := rfl
@[simp] theorem setBufWords_goApp (i : Nat) (ws : List Word) : (setBufWords i ws s).goApp = s.goApp := rfl
@[simp] theorem setBufWords_goBoot (i : Nat) (ws : List Word) : (setBufWords i ws s).goBoot = s.goBoot := rfl
@[simp] theorem setBufWords_pcOut (i : Nat) (ws : List Word) : (setBufWords i ws s).pcOut = s.pcOut := rfl
@[simp] theorem setBufWords_nvmadr (i : Nat) (ws : List Word) : (setBufWords i ws s).nvmadr = s.nvmadr := rfl
@[simp] theorem setBufWords_nvmdat (i : Nat) (ws : List Word) : (setBufWords i ws s).nvmdat = s.nvmdat := rfl
@[simp] theorem setBufWords_nvmcon (i : Nat) (ws : List Word) : (setBufWords i ws s).nvmcon = s.nvmcon := rfl
@[simp] theorem setBufWords_latch (i : Nat) (ws : List Word) : (setBufWords i ws s).latch = s.latch := rfl
@[simp] theorem setBufWords_loaded (i : Nat) (ws : List Word) : (setBufWords i ws s).loaded = s.loaded := rfl
@[simp] theorem setBufWords_unlock (i : Nat) (ws : List Word) : (setBufWords i ws s).unlock = s.unlock := rfl
@[simp] theorem setBufWords_pm (i : Nat) (ws : List Word) : (setBufWords i ws s).pm = s.pm := rfl
@[simp] theorem setBufWords_cfg (i : Nat) (ws : List Word) : (setBufWords i ws s).cfg = s.cfg := rfl
@[simp] theorem setBufWords_gie (i : Nat) (ws : List Word) : (setBufWords i ws s).gie = s.gie := rfl
@[simp] theorem setBufWords_gieSaved (i : Nat) (ws : List Word) : (setBufWords i ws s).gieSaved = s.gieSaved := rfl
@[simp] theorem setBufWords_draws (i : Nat) (ws : List Word) : (setBufWords i ws s).draws = s.draws := rfl
@[simp] theorem setBufWords_result (i : Nat) (ws : List Word) : (setBufWords i ws s).result = s.result := rfl
@[simp] theorem setBufWords_inputs (i : Nat) (ws : List Word) : (setBufWords i ws s).inputs = s.inputs := rfl

/-! ### reply -/

@[simp] theorem reply_dev (v : Word) : (reply v s).dev = s.dev := rfl
@[simp] theorem reply_buf (v : Word) : (reply v s).buf = insertWords 0 [v] s.buf := rfl
@[simp] theorem reply_bufEpoch (v : Word) : (reply v s).bufEpoch = s.bufEpoch := rfl
@[simp] theorem reply_wrPtr (v : Word) : (reply v s).wrPtr = s.wrPtr := rfl
@[simp] theorem reply_rdPtr (v : Word) : (reply v s).rdPtr = 0 := rfl
@[simp] theorem reply_len (v : Word) : (reply v s).len = 2 := rfl
@[simp] theorem reply_phase (v : Word) : (reply v s).phase = s.phase := rfl
@[simp] theorem reply_run (v : Word) : (reply v s).run = s.run := rfl
@[simp] theorem reply_evtPending (v : Word) : (reply v s).evtPending = s.evtPending := rfl
@[simp] theorem reply_clkHold (v : Word) : (reply v s).clkHold = s.clkHold := rfl
@[simp] theorem reply_evAddr (v : Word) : (reply v s).evAddr = s.evAddr := rfl
@[simp] theorem reply_evRead (v : Word) : (reply v s).evRead = s.evRead := rfl
@[simp] theorem reply_evData (v : Word) : (reply v s).evData = s.evData := rfl
@[simp] theorem reply_txData (v : Word) : (reply v s).txData = s.txData := rfl
@[simp] theorem reply_goApp (v : Word) : (reply v s).goApp = s.goApp := rfl
@[simp] theorem reply_goBoot (v : Word) : (reply v s).goBoot = s.goBoot := rfl
@[simp] theorem reply_pcOut (v : Word) : (reply v s).pcOut = s.pcOut := rfl
@[simp] theorem reply_nvmadr (v : Word) : (reply v s).nvmadr = s.nvmadr := rfl
@[simp] theorem reply_nvmdat (v : Word) : (reply v s).nvmdat = s.nvmdat := rfl
@[simp] theorem reply_nvmcon (v : Word) : (reply v s).nvmcon = s.nvmcon := rfl
@[simp] theorem reply_latch (v : Word) : (reply v s).latch = s.latch := rfl
@[simp] theorem reply_loaded (v : Word) : (reply v s).loaded = s.loaded := rfl
@[simp] theorem reply_unlock (v : Word) : (reply v s).unlock = s.unlock := rfl
@[simp] theorem reply_pm (v : Word) : (reply v s).pm = s.pm := rfl
@[simp] theorem reply_cfg (v : Word) : (reply v s).cfg = s.cfg := rfl
@[simp] theorem reply_gie (v : Word) : (reply v s).gie = s.gie := rfl
@[simp] theorem reply_gieSaved (v : Word) : (reply v s).gieSaved = s.gieSaved := rfl
@[simp] theorem reply_draws (v : Word) : (reply v s).draws = s.draws := rfl
@[simp] theorem reply_result (v : Word) : (reply v s).result = s.result := rfl
@[simp] theorem reply_inputs (v : Word) : (reply v s).inputs = s.inputs := rfl

/-! ### setPmRow -/

@[simp] theorem setPmRow_dev (base : Nat) (f : Nat → Option Word) : (setPmRow base f s).dev = s.dev := rfl
@[simp] theorem setPmRow_buf (base : Nat) (f : Nat → Option Word) : (setPmRow base f s).buf = s.buf := rfl
@[simp] theorem setPmRow_bufEpoch (base : Nat) (f : Nat → Option Word) : (setPmRow base f s).bufEpoch = s.bufEpoch := rfl
@[simp] theorem setPmRow_wrPtr (base : Nat) (f : Nat → Option Word) : (setPmRow base f s).wrPtr = s.wrPtr := rfl
@[simp] theorem setPmRow_rdPtr (base : Nat) (f : Nat → Option Word) : (setPmRow base f s).rdPtr = s.rdPtr := rfl
@[simp] theorem setPmRow_len (base : Nat) (f : Nat → Option Word) : (setPmRow base f s).len = s.len := rfl
@[simp] theorem setPmRow_phase (base : Nat) (f : Nat → Option Word) : (setPmRow base f s).phase = s.phase := rfl
@[simp] theorem setPmRow_run (base : Nat) (f : Nat → Option Word) : (setPmRow base f s).run = s.run := rfl
@[simp] theorem setPmRow_evtPending (base : Nat) (f : Nat → Option Word) : (setPmRow base f s).evtPending = s.evtPending := rfl
@[simp] theorem setPmRow_clkHold (base : Nat) (f : Nat → Option Word) : (setPmRow base f s).clkHold = s.clkHold := rfl
@[simp] theorem setPmRow_evAddr (base : Nat) (f : Nat → Option Word) : (setPmRow base f s).evAddr = s.evAddr := rfl
@[simp] theorem setPmRow_evRead (base : Nat) (f : Nat → Option Word) : (setPmRow base f s).evRead = s.evRead := rfl
@[simp] theorem setPmRow_evData (base : Nat) (f : Nat → Option Word) : (setPmRow base f s).evData = s.evData := rfl
@[simp] theorem setPmRow_txData (base : Nat) (f : Nat → Option Word) : (setPmRow base f s).txData = s.txData := rfl
@[simp] theorem setPmRow_goApp (base : Nat) (f : Nat → Option Word) : (setPmRow base f s).goApp = s.goApp := rfl
@[simp] theorem setPmRow_goBoot (base : Nat) (f : Nat → Option Word) : (setPmRow base f s).goBoot = s.goBoot := rfl
@[simp] theorem setPmRow_pcOut (base : Nat) (f : Nat → Option Word) : (setPmRow base f s).pcOut = s.pcOut := rfl
@[simp] theorem setPmRow_nvmadr (base : Nat) (f : Nat → Option Word) : (setPmRow base f s).nvmadr = s.nvmadr := rfl
@[simp] theorem setPmRow_nvmdat (base : Nat) (f : Nat → Option Word) : (setPmRow base f s).nvmdat = s.nvmdat := rfl
@[simp] theorem setPmRow_nvmcon (base : Nat) (f : Nat → Option Word) : (setPmRow base f s).nvmcon = s.nvmcon := rfl
@[simp] theorem setPmRow_latch (base : Nat) (f : Nat → Option Word) : (setPmRow base f s).latch = s.latch := rfl
@[simp] theorem setPmRow_loaded (base : Nat) (f : Nat → Option Word) : (setPmRow base f s).loaded = s.loaded := rfl
@[simp] theorem setPmRow_unlock (base : Nat) (f : Nat → Option Word) : (setPmRow base f s).unlock = s.unlock := rfl
@[simp] theorem setPmRow_pm (base : Nat) (f : Nat → Option Word) : (setPmRow base f s).pm = cellsStoreRange (pmDefault s.dev) base (fun i => (f i).map s.dev.trunc) s.dev.rowWords s.pm := rfl
@[simp] theorem setPmRow_cfg (base : Nat) (f : Nat → Option Word) : (setPmRow base f s).cfg = s.cfg := rfl
@[simp] theorem setPmRow_gie (base : Nat) (f : Nat → Option Word) : (setPmRow base f s).gie = s.gie := rfl
@[simp] theorem setPmRow_gieSaved (base : Nat) (f : Nat → Option Word) : (setPmRow base f s).gieSaved = s.gieSaved := rfl
@[simp] theorem setPmRow_draws (base : Nat) (f : Nat → Option Word) : (setPmRow base f s).draws = s.draws := rfl
@[simp] theorem setPmRow_result (base : Nat) (f : Nat → Option Word) : (setPmRow base f s).result = s.result := rfl
@[simp] theorem setPmRow_inputs (base : Nat) (f : Nat → Option Word) : (setPmRow base f s).inputs = s.inputs := rfl

/-! ### loadLatch -/

@[simp] theorem loadLatch_dev (i : Nat) (v : Word) : (loadLatch i v s).dev = s.dev := rfl
@[simp] theorem loadLatch_buf (i : Nat) (v : Word) : (loadLatch i v s).buf = s.buf := rfl
@[simp] theorem loadLatch_bufEpoch (i : Nat) (v : Word) : (loadLatch i v s).bufEpoch = s.bufEpoch := rfl
@[simp] theorem loadLatch_wrPtr (i : Nat) (v : Word) : (loadLatch i v s).wrPtr = s.wrPtr := rfl
@[simp] theorem loadLatch_rdPtr (i : Nat) (v : Word) : (loadLatch i v s).rdPtr = s.rdPtr := rfl
@[simp] theorem loadLatch_len (i : Nat) (v : Word) : (loadLatch i v s).len = s.len := rfl
@[simp] theorem loadLatch_phase (i : Nat) (v : Word) : (loadLatch i v s).phase = s.phase := rfl
@[simp] theorem loadLatch_run (i : Nat) (v : Word) : (loadLatch i v s).run = s.run := rfl
@[simp] theorem loadLatch_evtPending (i : Nat) (v : Word) : (loadLatch i v s).evtPending = s.evtPending := rfl
@[simp] theorem loadLatch_clkHold (i : Nat) (v : Word) : (loadLatch i v s).clkHold = s.clkHold := rfl
@[simp] theorem loadLatch_evAddr (i : Nat) (v : Word) : (loadLatch i v s).evAddr = s.evAddr := rfl
@[simp] theorem loadLatch_evRead (i : Nat) (v : Word) : (loadLatch i v s).evRead = s.evRead := rfl
@[simp] theorem loadLatch_evData (i : Nat) (v : Word) : (loadLatch i v s).evData = s.evData := rfl
@[simp] theorem loadLatch_txData (i : Nat) (v : Word) : (loadLatch i v s).txData = s.txData := rfl
@[simp] theorem loadLatch_goApp (i : Nat) (v : Word) : (loadLatch i v s).goApp = s.goApp := rfl
@[simp] theorem loadLatch_goBoot (i : Nat) (v : Word) : (loadLatch i v s).goBoot = s.goBoot := rfl
@[simp] theorem loadLatch_pcOut (i : Nat) (v : Word) : (loadLatch i v s).pcOut = s.pcOut := rfl
@[simp] theorem loadLatch_nvmadr (i : Nat) (v : Word) : (loadLatch i v s).nvmadr = s.nvmadr := rfl
@[simp] theorem loadLatch_nvmdat (i : Nat) (v : Word) : (loadLatch i v s).nvmdat = s.nvmdat := rfl
@[simp] theorem loadLatch_nvmcon (i : Nat) (v : Word) : (loadLatch i v s).nvmcon = s.nvmcon := rfl
@[simp] theorem loadLatch_latch (i : Nat) (v : Word) : (loadLatch i v s).latch = cellsStore (fun _ => 0) s.latch i (s.dev.trunc v) := rfl
@[simp] theorem loadLatch_loaded (i : Nat) (v : Word) : (loadLatch i v s).loaded = cellsStore (fun _ => false) s.loaded i true := rfl
@[simp] theorem loadLatch_unlock (i : Nat) (v : Word) : (loadLatch i v s).unlock = s.unlock := rfl
@[simp] theorem loadLatch_pm (i : Nat) (v : Word) : (loadLatch i v s).pm = s.pm := rfl
@[simp] theorem loadLatch_cfg (i : Nat) (v : Word) : (loadLatch i v s).cfg = s.cfg := rfl
@[simp] theorem loadLatch_gie (i : Nat) (v : Word) : (loadLatch i v s).gie = s.gie := rfl
@[simp] theorem loadLatch_gieSaved (i : Nat) (v : Word) : (loadLatch i v s).gieSaved = s.gieSaved := rfl
@[simp] theorem loadLatch_draws (i : Nat) (v : Word) : (loadLatch i v s).draws = s.draws := rfl
@[simp] theorem loadLatch_result (i : Nat) (v : Word) : (loadLatch i v s).result = s.result := rfl
@[simp] theorem loadLatch_inputs (i : Nat) (v : Word) : (loadLatch i v s).inputs = s.inputs := rfl

/-! ### commitRow -/

@[simp] theorem commitRow_dev (base : Nat) : (commitRow base s).dev = s.dev := rfl
@[simp] theorem commitRow_buf (base : Nat) : (commitRow base s).buf = s.buf := rfl
@[simp] theorem commitRow_bufEpoch (base : Nat) : (commitRow base s).bufEpoch = s.bufEpoch := rfl
@[simp] theorem commitRow_wrPtr (base : Nat) : (commitRow base s).wrPtr = s.wrPtr := rfl
@[simp] theorem commitRow_rdPtr (base : Nat) : (commitRow base s).rdPtr = s.rdPtr := rfl
@[simp] theorem commitRow_len (base : Nat) : (commitRow base s).len = s.len := rfl
@[simp] theorem commitRow_phase (base : Nat) : (commitRow base s).phase = s.phase := rfl
@[simp] theorem commitRow_run (base : Nat) : (commitRow base s).run = s.run := rfl
@[simp] theorem commitRow_evtPending (base : Nat) : (commitRow base s).evtPending = s.evtPending := rfl
@[simp] theorem commitRow_clkHold (base : Nat) : (commitRow base s).clkHold = s.clkHold := rfl
@[simp] theorem commitRow_evAddr (base : Nat) : (commitRow base s).evAddr = s.evAddr := rfl
@[simp] theorem commitRow_evRead (base : Nat) : (commitRow base s).evRead = s.evRead := rfl
@[simp] theorem commitRow_evData (base : Nat) : (commitRow base s).evData = s.evData := rfl
@[simp] theorem commitRow_txData (base : Nat) : (commitRow base s).txData = s.txData := rfl
@[simp] theorem commitRow_goApp (base : Nat) : (commitRow base s).goApp = s.goApp := rfl
@[simp] theorem commitRow_goBoot (base : Nat) : (commitRow base s).goBoot = s.goBoot := rfl
@[simp] theorem commitRow_pcOut (base : Nat) : (commitRow base s).pcOut = s.pcOut := rfl
@[simp] theorem commitRow_nvmadr (base : Nat) : (commitRow base s).nvmadr = s.nvmadr := rfl
@[simp] theorem commitRow_nvmdat (base : Nat) : (commitRow base s).nvmdat = s.nvmdat := rfl
@[simp] theorem commitRow_nvmcon (base : Nat) : (commitRow base s).nvmcon = s.nvmcon := rfl
@[simp] theorem commitRow_latch (base : Nat) : (commitRow base s).latch = s.latch := rfl
@[simp] theorem commitRow_loaded (base : Nat) : (commitRow base s).loaded = [] := rfl
@[simp] theorem commitRow_unlock (base : Nat) : (commitRow base s).unlock = s.unlock := rfl
@[simp] theorem commitRow_cfg (base : Nat) : (commitRow base s).cfg = s.cfg := rfl
@[simp] theorem commitRow_gie (base : Nat) : (commitRow base s).gie = s.gie := rfl
@[simp] theorem commitRow_gieSaved (base : Nat) : (commitRow base s).gieSaved = s.gieSaved := rfl
@[simp] theorem commitRow_draws (base : Nat) : (commitRow base s).draws = s.draws := rfl
@[simp] theorem commitRow_result (base : Nat) : (commitRow base s).result = s.result := rfl
@[simp] theorem commitRow_inputs (base : Nat) : (commitRow base s).inputs = s.inputs := rfl

/-! ### leaveForApplication -/

@[simp] theorem leaveForApplication_dev : (leaveForApplication s).dev = s.dev := rfl
@[simp] theorem leaveForApplication_buf : (leaveForApplication s).buf = s.buf := rfl
@[simp] theorem leaveForApplication_bufEpoch : (leaveForApplication s).bufEpoch = s.bufEpoch := rfl
@[simp] theorem leaveForApplication_wrPtr : (leaveForApplication s).wrPtr = s.wrPtr := rfl
@[simp] theorem leaveForApplication_rdPtr : (leaveForApplication s).rdPtr = s.rdPtr := rfl
@[simp] theorem leaveForApplication_len : (leaveForApplication s).len = s.len := rfl
@[simp] theorem leaveForApplication_phase : (leaveForApplication s).phase = s.phase := rfl
@[simp] theorem leaveForApplication_run : (leaveForApplication s).run = .left := rfl
@[simp] theorem leaveForApplication_evtPending : (leaveForApplication s).evtPending = s.evtPending := rfl
@[simp] theorem leaveForApplication_clkHold : (leaveForApplication s).clkHold = s.clkHold := rfl
@[simp] theorem leaveForApplication_evAddr : (leaveForApplication s).evAddr = s.evAddr := rfl
@[simp] theorem leaveForApplication_evRead : (leaveForApplication s).evRead = s.evRead := rfl
@[simp] theorem leaveForApplication_evData : (leaveForApplication s).evData = s.evData := rfl
@[simp] theorem leaveForApplication_txData : (leaveForApplication s).txData = s.txData := rfl
@[simp] theorem leaveForApplication_goApp : (leaveForApplication s).goApp = true := rfl
@[simp] theorem leaveForApplication_goBoot : (leaveForApplication s).goBoot = s.goBoot := rfl
@[simp] theorem leaveForApplication_pcOut : (leaveForApplication s).pcOut = some s.dev.appEntry := rfl
@[simp] theorem leaveForApplication_nvmadr : (leaveForApplication s).nvmadr = s.nvmadr := rfl
@[simp] theorem leaveForApplication_nvmdat : (leaveForApplication s).nvmdat = s.nvmdat := rfl
@[simp] theorem leaveForApplication_nvmcon : (leaveForApplication s).nvmcon = s.nvmcon := rfl
@[simp] theorem leaveForApplication_latch : (leaveForApplication s).latch = s.latch := rfl
@[simp] theorem leaveForApplication_loaded : (leaveForApplication s).loaded = s.loaded := rfl
@[simp] theorem leaveForApplication_unlock : (leaveForApplication s).unlock = s.unlock := rfl
@[simp] theorem leaveForApplication_pm : (leaveForApplication s).pm = s.pm := rfl
@[simp] theorem leaveForApplication_cfg : (leaveForApplication s).cfg = s.cfg := rfl
@[simp] theorem leaveForApplication_gie : (leaveForApplication s).gie = s.gie := rfl
@[simp] theorem leaveForApplication_gieSaved : (leaveForApplication s).gieSaved = s.gieSaved := rfl
@[simp] theorem leaveForApplication_draws : (leaveForApplication s).draws = s.draws := rfl
@[simp] theorem leaveForApplication_result : (leaveForApplication s).result = s.result := rfl
@[simp] theorem leaveForApplication_inputs : (leaveForApplication s).inputs = s.inputs := rfl

/-! ### reenterBootloader -/

@[simp] theorem reenterBootloader_dev : (reenterBootloader s).dev = s.dev := rfl
@[simp] theorem reenterBootloader_buf : (reenterBootloader s).buf = [] := rfl
@[simp] theorem reenterBootloader_bufEpoch : (reenterBootloader s).bufEpoch = s.bufEpoch + 1 := rfl
@[simp] theorem reenterBootloader_wrPtr : (reenterBootloader s).wrPtr = 0 := rfl
@[simp] theorem reenterBootloader_rdPtr : (reenterBootloader s).rdPtr = 0 := rfl
@[simp] theorem reenterBootloader_len : (reenterBootloader s).len = 0 := rfl
@[simp] theorem reenterBootloader_phase : (reenterBootloader s).phase = .address := rfl
@[simp] theorem reenterBootloader_run : (reenterBootloader s).run = .active := rfl
@[simp] theorem reenterBootloader_evtPending : (reenterBootloader s).evtPending = false := rfl
@[simp] theorem reenterBootloader_clkHold : (reenterBootloader s).clkHold = false := rfl
@[simp] theorem reenterBootloader_evAddr : (reenterBootloader s).evAddr = s.evAddr := rfl
@[simp] theorem reenterBootloader_evRead : (reenterBootloader s).evRead = s.evRead := rfl
@[simp] theorem reenterBootloader_evData : (reenterBootloader s).evData = s.evData := rfl
@[simp] theorem reenterBootloader_txData : (reenterBootloader s).txData = s.txData := rfl
@[simp] theorem reenterBootloader_goApp : (reenterBootloader s).goApp = s.goApp := rfl
@[simp] theorem reenterBootloader_goBoot : (reenterBootloader s).goBoot = true := rfl
@[simp] theorem reenterBootloader_pcOut : (reenterBootloader s).pcOut = some s.dev.bootStart := rfl
@[simp] theorem reenterBootloader_nvmadr : (reenterBootloader s).nvmadr = s.nvmadr := rfl
@[simp] theorem reenterBootloader_nvmdat : (reenterBootloader s).nvmdat = s.nvmdat := rfl
@[simp] theorem reenterBootloader_nvmcon : (reenterBootloader s).nvmcon = s.nvmcon := rfl
@[simp] theorem reenterBootloader_latch : (reenterBootloader s).latch = s.latch := rfl
@[simp] theorem reenterBootloader_loaded : (reenterBootloader s).loaded = s.loaded := rfl
@[simp] theorem reenterBootloader_unlock : (reenterBootloader s).unlock = s.unlock := rfl
@[simp] theorem reenterBootloader_pm : (reenterBootloader s).pm = s.pm := rfl
@[simp] theorem reenterBootloader_cfg : (reenterBootloader s).cfg = s.cfg := rfl
@[simp] theorem reenterBootloader_gie : (reenterBootloader s).gie = s.dev.gieReset := rfl
@[simp] theorem reenterBootloader_gieSaved : (reenterBootloader s).gieSaved = s.gieSaved := rfl
@[simp] theorem reenterBootloader_draws : (reenterBootloader s).draws = s.draws := rfl
@[simp] theorem reenterBootloader_result : (reenterBootloader s).result = s.result := rfl
@[simp] theorem reenterBootloader_inputs : (reenterBootloader s).inputs = s.inputs := rfl

/-! ### regWriteAdr -/

@[simp] theorem regWriteAdr_dev (v : Word) : (regWriteAdr v s).dev = s.dev := rfl
@[simp] theorem regWriteAdr_buf (v : Word) : (regWriteAdr v s).buf = s.buf := rfl
@[simp] theorem regWriteAdr_bufEpoch (v : Word) : (regWriteAdr v s).bufEpoch = s.bufEpoch := rfl
@[simp] theorem regWriteAdr_wrPtr (v : Word) : (regWriteAdr v s).wrPtr = s.wrPtr := rfl
@[simp] theorem regWriteAdr_rdPtr (v : Word) : (regWriteAdr v s).rdPtr = s.rdPtr := rfl
@[simp] theorem regWriteAdr_len (v : Word) : (regWriteAdr v s).len = s.len := rfl
@[simp] theorem regWriteAdr_phase (v : Word) : (regWriteAdr v s).phase = s.phase := rfl
@[simp] theorem regWriteAdr_run (v : Word) : (regWriteAdr v s).run = s.run := rfl
@[simp] theorem regWriteAdr_evtPending (v : Word) : (regWriteAdr v s).evtPending = s.evtPending := rfl
@[simp] theorem regWriteAdr_clkHold (v : Word) : (regWriteAdr v s).clkHold = s.clkHold := rfl
@[simp] theorem regWriteAdr_evAddr (v : Word) : (regWriteAdr v s).evAddr = s.evAddr := rfl
@[simp] theorem regWriteAdr_evRead (v : Word) : (regWriteAdr v s).evRead = s.evRead := rfl
@[simp] theorem regWriteAdr_evData (v : Word) : (regWriteAdr v s).evData = s.evData := rfl
@[simp] theorem regWriteAdr_txData (v : Word) : (regWriteAdr v s).txData = s.txData := rfl
@[simp] theorem regWriteAdr_goApp (v : Word) : (regWriteAdr v s).goApp = s.goApp := rfl
@[simp] theorem regWriteAdr_goBoot (v : Word) : (regWriteAdr v s).goBoot = s.goBoot := rfl
@[simp] theorem regWriteAdr_pcOut (v : Word) : (regWriteAdr v s).pcOut = s.pcOut := rfl
@[simp] theorem regWriteAdr_nvmadr (v : Word) : (regWriteAdr v s).nvmadr = v := rfl
@[simp] theorem regWriteAdr_nvmdat (v : Word) : (regWriteAdr v s).nvmdat = s.nvmdat := rfl
@[simp] theorem regWriteAdr_nvmcon (v : Word) : (regWriteAdr v s).nvmcon = s.nvmcon := rfl
@[simp] theorem regWriteAdr_latch (v : Word) : (regWriteAdr v s).latch = s.latch := rfl
@[simp] theorem regWriteAdr_loaded (v : Word) : (regWriteAdr v s).loaded = s.loaded := rfl
@[simp] theorem regWriteAdr_unlock (v : Word) : (regWriteAdr v s).unlock = .locked := rfl
@[simp] theorem regWriteAdr_pm (v : Word) : (regWriteAdr v s).pm = s.pm := rfl
@[simp] theorem regWriteAdr_cfg (v : Word) : (regWriteAdr v s).cfg = s.cfg := rfl
@[simp] theorem regWriteAdr_gie (v : Word) : (regWriteAdr v s).gie = s.gie := rfl
@[simp] theorem regWriteAdr_gieSaved (v : Word) : (regWriteAdr v s).gieSaved = s.gieSaved := rfl
@[simp] theorem regWriteAdr_draws (v : Word) : (regWriteAdr v s).draws = s.draws := rfl
@[simp] theorem regWriteAdr_result (v : Word) : (regWriteAdr v s).result = s.result := rfl
@[simp] theorem regWriteAdr_inputs (v : Word) : (regWriteAdr v s).inputs = s.inputs := rfl

/-! ### regWriteDat -/

@[simp] theorem regWriteDat_dev (v : Word) : (regWriteDat v s).dev = s.dev := rfl
@[simp] theorem regWriteDat_buf (v : Word) : (regWriteDat v s).buf = s.buf := rfl
@[simp] theorem regWriteDat_bufEpoch (v : Word) : (regWriteDat v s).bufEpoch = s.bufEpoch := rfl
@[simp] theorem regWriteDat_wrPtr (v : Word) : (regWriteDat v s).wrPtr = s.wrPtr := rfl
@[simp] theorem regWriteDat_rdPtr (v : Word) : (regWriteDat v s).rdPtr = s.rdPtr := rfl
@[simp] theorem regWriteDat_len (v : Word) : (regWriteDat v s).len = s.len := rfl
@[simp] theorem regWriteDat_phase (v : Word) : (regWriteDat v s).phase = s.phase := rfl
@[simp] theorem regWriteDat_run (v : Word) : (regWriteDat v s).run = s.run := rfl
@[simp] theorem regWriteDat_evtPending (v : Word) : (regWriteDat v s).evtPending = s.evtPending := rfl
@[simp] theorem regWriteDat_clkHold (v : Word) : (regWriteDat v s).clkHold = s.clkHold := rfl
@[simp] theorem regWriteDat_evAddr (v : Word) : (regWriteDat v s).evAddr = s.evAddr := rfl
@[simp] theorem regWriteDat_evRead (v : Word) : (regWriteDat v s).evRead = s.evRead := rfl
@[simp] theorem regWriteDat_evData (v : Word) : (regWriteDat v s).evData = s.evData := rfl
@[simp] theorem regWriteDat_txData (v : Word) : (regWriteDat v s).txData = s.txData := rfl
@[simp] theorem regWriteDat_goApp (v : Word) : (regWriteDat v s).goApp = s.goApp := rfl
@[simp] theorem regWriteDat_goBoot (v : Word) : (regWriteDat v s).goBoot = s.goBoot := rfl
@[simp] theorem regWriteDat_pcOut (v : Word) : (regWriteDat v s).pcOut = s.pcOut := rfl
@[simp] theorem regWriteDat_nvmadr (v : Word) : (regWriteDat v s).nvmadr = s.nvmadr := rfl
@[simp] theorem regWriteDat_nvmdat (v : Word) : (regWriteDat v s).nvmdat = v := rfl
@[simp] theorem regWriteDat_nvmcon (v : Word) : (regWriteDat v s).nvmcon = s.nvmcon := rfl
@[simp] theorem regWriteDat_latch (v : Word) : (regWriteDat v s).latch = s.latch := rfl
@[simp] theorem regWriteDat_loaded (v : Word) : (regWriteDat v s).loaded = s.loaded := rfl
@[simp] theorem regWriteDat_unlock (v : Word) : (regWriteDat v s).unlock = .locked := rfl
@[simp] theorem regWriteDat_pm (v : Word) : (regWriteDat v s).pm = s.pm := rfl
@[simp] theorem regWriteDat_cfg (v : Word) : (regWriteDat v s).cfg = s.cfg := rfl
@[simp] theorem regWriteDat_gie (v : Word) : (regWriteDat v s).gie = s.gie := rfl
@[simp] theorem regWriteDat_gieSaved (v : Word) : (regWriteDat v s).gieSaved = s.gieSaved := rfl
@[simp] theorem regWriteDat_draws (v : Word) : (regWriteDat v s).draws = s.draws := rfl
@[simp] theorem regWriteDat_result (v : Word) : (regWriteDat v s).result = s.result := rfl
@[simp] theorem regWriteDat_inputs (v : Word) : (regWriteDat v s).inputs = s.inputs := rfl

/-! ### regWriteKey -/

@[simp] theorem regWriteKey_dev (v : Byte) : (regWriteKey v s).dev = s.dev := rfl
@[simp] theorem regWriteKey_buf (v : Byte) : (regWriteKey v s).buf = s.buf := rfl
@[simp] theorem regWriteKey_bufEpoch (v : Byte) : (regWriteKey v s).bufEpoch = s.bufEpoch := rfl
@[simp] theorem regWriteKey_wrPtr (v : Byte) : (regWriteKey v s).wrPtr = s.wrPtr := rfl
@[simp] theorem regWriteKey_rdPtr (v : Byte) : (regWriteKey v s).rdPtr = s.rdPtr := rfl
@[simp] theorem regWriteKey_len (v : Byte) : (regWriteKey v s).len = s.len := rfl
@[simp] theorem regWriteKey_phase (v : Byte) : (regWriteKey v s).phase = s.phase := rfl
@[simp] theorem regWriteKey_run (v : Byte) : (regWriteKey v s).run = s.run := rfl
@[simp] theorem regWriteKey_evtPending (v : Byte) : (regWriteKey v s).evtPending = s.evtPending := rfl
@[simp] theorem regWriteKey_clkHold (v : Byte) : (regWriteKey v s).clkHold = s.clkHold := rfl
@[simp] theorem regWriteKey_evAddr (v : Byte) : (regWriteKey v s).evAddr = s.evAddr := rfl
@[simp] theorem regWriteKey_evRead (v : Byte) : (regWriteKey v s).evRead = s.evRead := rfl
@[simp] theorem regWriteKey_evData (v : Byte) : (regWriteKey v s).evData = s.evData := rfl
@[simp] theorem regWriteKey_txData (v : Byte) : (regWriteKey v s).txData = s.txData := rfl
@[simp] theorem regWriteKey_goApp (v : Byte) : (regWriteKey v s).goApp = s.goApp := rfl
@[simp] theorem regWriteKey_goBoot (v : Byte) : (regWriteKey v s).goBoot = s.goBoot := rfl
@[simp] theorem regWriteKey_pcOut (v : Byte) : (regWriteKey v s).pcOut = s.pcOut := rfl
@[simp] theorem regWriteKey_nvmadr (v : Byte) : (regWriteKey v s).nvmadr = s.nvmadr := rfl
@[simp] theorem regWriteKey_nvmdat (v : Byte) : (regWriteKey v s).nvmdat = s.nvmdat := rfl
@[simp] theorem regWriteKey_nvmcon (v : Byte) : (regWriteKey v s).nvmcon = s.nvmcon := rfl
@[simp] theorem regWriteKey_latch (v : Byte) : (regWriteKey v s).latch = s.latch := rfl
@[simp] theorem regWriteKey_loaded (v : Byte) : (regWriteKey v s).loaded = s.loaded := rfl
@[simp] theorem regWriteKey_unlock (v : Byte) : (regWriteKey v s).unlock = unlockOnKey s.dev.keys s.unlock v := rfl
@[simp] theorem regWriteKey_pm (v : Byte) : (regWriteKey v s).pm = s.pm := rfl
@[simp] theorem regWriteKey_cfg (v : Byte) : (regWriteKey v s).cfg = s.cfg := rfl
@[simp] theorem regWriteKey_gie (v : Byte) : (regWriteKey v s).gie = s.gie := rfl
@[simp] theorem regWriteKey_gieSaved (v : Byte) : (regWriteKey v s).gieSaved = s.gieSaved := rfl
@[simp] theorem regWriteKey_draws (v : Byte) : (regWriteKey v s).draws = s.draws := rfl
@[simp] theorem regWriteKey_result (v : Byte) : (regWriteKey v s).result = s.result := rfl
@[simp] theorem regWriteKey_inputs (v : Byte) : (regWriteKey v s).inputs = s.inputs := rfl

/-! ### regRead -/

@[simp] theorem regRead_dev (r : NvmReg) : (regRead r s).dev = s.dev := rfl
@[simp] theorem regRead_buf (r : NvmReg) : (regRead r s).buf = s.buf := rfl
@[simp] theorem regRead_bufEpoch (r : NvmReg) : (regRead r s).bufEpoch = s.bufEpoch := rfl
@[simp] theorem regRead_wrPtr (r : NvmReg) : (regRead r s).wrPtr = s.wrPtr := rfl
@[simp] theorem regRead_rdPtr (r : NvmReg) : (regRead r s).rdPtr = s.rdPtr := rfl
@[simp] theorem regRead_len (r : NvmReg) : (regRead r s).len = s.len := rfl
@[simp] theorem regRead_phase (r : NvmReg) : (regRead r s).phase = s.phase := rfl
@[simp] theorem regRead_run (r : NvmReg) : (regRead r s).run = s.run := rfl
@[simp] theorem regRead_evtPending (r : NvmReg) : (regRead r s).evtPending = s.evtPending := rfl
@[simp] theorem regRead_clkHold (r : NvmReg) : (regRead r s).clkHold = s.clkHold := rfl
@[simp] theorem regRead_evAddr (r : NvmReg) : (regRead r s).evAddr = s.evAddr := rfl
@[simp] theorem regRead_evRead (r : NvmReg) : (regRead r s).evRead = s.evRead := rfl
@[simp] theorem regRead_evData (r : NvmReg) : (regRead r s).evData = s.evData := rfl
@[simp] theorem regRead_txData (r : NvmReg) : (regRead r s).txData = s.txData := rfl
@[simp] theorem regRead_goApp (r : NvmReg) : (regRead r s).goApp = s.goApp := rfl
@[simp] theorem regRead_goBoot (r : NvmReg) : (regRead r s).goBoot = s.goBoot := rfl
@[simp] theorem regRead_pcOut (r : NvmReg) : (regRead r s).pcOut = s.pcOut := rfl
@[simp] theorem regRead_nvmadr (r : NvmReg) : (regRead r s).nvmadr = s.nvmadr := rfl
@[simp] theorem regRead_nvmdat (r : NvmReg) : (regRead r s).nvmdat = s.nvmdat := rfl
@[simp] theorem regRead_nvmcon (r : NvmReg) : (regRead r s).nvmcon = s.nvmcon := rfl
@[simp] theorem regRead_latch (r : NvmReg) : (regRead r s).latch = s.latch := rfl
@[simp] theorem regRead_loaded (r : NvmReg) : (regRead r s).loaded = s.loaded := rfl
@[simp] theorem regRead_unlock (r : NvmReg) : (regRead r s).unlock = .locked := rfl
@[simp] theorem regRead_pm (r : NvmReg) : (regRead r s).pm = s.pm := rfl
@[simp] theorem regRead_cfg (r : NvmReg) : (regRead r s).cfg = s.cfg := rfl
@[simp] theorem regRead_gie (r : NvmReg) : (regRead r s).gie = s.gie := rfl
@[simp] theorem regRead_gieSaved (r : NvmReg) : (regRead r s).gieSaved = s.gieSaved := rfl
@[simp] theorem regRead_draws (r : NvmReg) : (regRead r s).draws = s.draws := rfl
@[simp] theorem regRead_result (r : NvmReg) : (regRead r s).result = s.result := rfl
@[simp] theorem regRead_inputs (r : NvmReg) : (regRead r s).inputs = s.inputs := rfl

/-! ### updateFields -/

@[simp] theorem updateFields_dev (v : Byte) : (updateFields v s).dev = s.dev := rfl
@[simp] theorem updateFields_buf (v : Byte) : (updateFields v s).buf = s.buf := rfl
@[simp] theorem updateFields_bufEpoch (v : Byte) : (updateFields v s).bufEpoch = s.bufEpoch := rfl
@[simp] theorem updateFields_wrPtr (v : Byte) : (updateFields v s).wrPtr = s.wrPtr := rfl
@[simp] theorem updateFields_rdPtr (v : Byte) : (updateFields v s).rdPtr = s.rdPtr := rfl
@[simp] theorem updateFields_len (v : Byte) : (updateFields v s).len = s.len := rfl
@[simp] theorem updateFields_phase (v : Byte) : (updateFields v s).phase = s.phase := rfl
@[simp] theorem updateFields_run (v : Byte) : (updateFields v s).run = s.run := rfl
@[simp] theorem updateFields_evtPending (v : Byte) : (updateFields v s).evtPending = s.evtPending := rfl
@[simp] theorem updateFields_clkHold (v : Byte) : (updateFields v s).clkHold = s.clkHold := rfl
@[simp] theorem updateFields_evAddr (v : Byte) : (updateFields v s).evAddr = s.evAddr := rfl
@[simp] theorem updateFields_evRead (v : Byte) : (updateFields v s).evRead = s.evRead := rfl
@[simp] theorem updateFields_evData (v : Byte) : (updateFields v s).evData = s.evData := rfl
@[simp] theorem updateFields_txData (v : Byte) : (updateFields v s).txData = s.txData := rfl
@[simp] theorem updateFields_goApp (v : Byte) : (updateFields v s).goApp = s.goApp := rfl
@[simp] theorem updateFields_goBoot (v : Byte) : (updateFields v s).goBoot = s.goBoot := rfl
@[simp] theorem updateFields_pcOut (v : Byte) : (updateFields v s).pcOut = s.pcOut := rfl
@[simp] theorem updateFields_nvmadr (v : Byte) : (updateFields v s).nvmadr = s.nvmadr := rfl
@[simp] theorem updateFields_nvmdat (v : Byte) : (updateFields v s).nvmdat = s.nvmdat := rfl
@[simp] theorem updateFields_nvmcon (v : Byte) : (updateFields v s).nvmcon = nvmconHeld v := rfl
@[simp] theorem updateFields_latch (v : Byte) : (updateFields v s).latch = s.latch := rfl
@[simp] theorem updateFields_loaded (v : Byte) : (updateFields v s).loaded = s.loaded := rfl
@[simp] theorem updateFields_unlock (v : Byte) : (updateFields v s).unlock = .locked := rfl
@[simp] theorem updateFields_pm (v : Byte) : (updateFields v s).pm = s.pm := rfl
@[simp] theorem updateFields_cfg (v : Byte) : (updateFields v s).cfg = s.cfg := rfl
@[simp] theorem updateFields_gie (v : Byte) : (updateFields v s).gie = s.gie := rfl
@[simp] theorem updateFields_gieSaved (v : Byte) : (updateFields v s).gieSaved = s.gieSaved := rfl
@[simp] theorem updateFields_draws (v : Byte) : (updateFields v s).draws = s.draws := rfl
@[simp] theorem updateFields_result (v : Byte) : (updateFields v s).result = s.result := rfl
@[simp] theorem updateFields_inputs (v : Byte) : (updateFields v s).inputs = s.inputs := rfl

/-! ### setDat -/

@[simp] theorem setDat_dev (v : Word) : (setDat v s).dev = s.dev := rfl
@[simp] theorem setDat_buf (v : Word) : (setDat v s).buf = s.buf := rfl
@[simp] theorem setDat_bufEpoch (v : Word) : (setDat v s).bufEpoch = s.bufEpoch := rfl
@[simp] theorem setDat_wrPtr (v : Word) : (setDat v s).wrPtr = s.wrPtr := rfl
@[simp] theorem setDat_rdPtr (v : Word) : (setDat v s).rdPtr = s.rdPtr := rfl
@[simp] theorem setDat_len (v : Word) : (setDat v s).len = s.len := rfl
@[simp] theorem setDat_phase (v : Word) : (setDat v s).phase = s.phase := rfl
@[simp] theorem setDat_run (v : Word) : (setDat v s).run = s.run := rfl
@[simp] theorem setDat_evtPending (v : Word) : (setDat v s).evtPending = s.evtPending := rfl
@[simp] theorem setDat_clkHold (v : Word) : (setDat v s).clkHold = s.clkHold := rfl
@[simp] theorem setDat_evAddr (v : Word) : (setDat v s).evAddr = s.evAddr := rfl
@[simp] theorem setDat_evRead (v : Word) : (setDat v s).evRead = s.evRead := rfl
@[simp] theorem setDat_evData (v : Word) : (setDat v s).evData = s.evData := rfl
@[simp] theorem setDat_txData (v : Word) : (setDat v s).txData = s.txData := rfl
@[simp] theorem setDat_goApp (v : Word) : (setDat v s).goApp = s.goApp := rfl
@[simp] theorem setDat_goBoot (v : Word) : (setDat v s).goBoot = s.goBoot := rfl
@[simp] theorem setDat_pcOut (v : Word) : (setDat v s).pcOut = s.pcOut := rfl
@[simp] theorem setDat_nvmadr (v : Word) : (setDat v s).nvmadr = s.nvmadr := rfl
@[simp] theorem setDat_nvmdat (v : Word) : (setDat v s).nvmdat = v := rfl
@[simp] theorem setDat_nvmcon (v : Word) : (setDat v s).nvmcon = s.nvmcon := rfl
@[simp] theorem setDat_latch (v : Word) : (setDat v s).latch = s.latch := rfl
@[simp] theorem setDat_loaded (v : Word) : (setDat v s).loaded = s.loaded := rfl
@[simp] theorem setDat_unlock (v : Word) : (setDat v s).unlock = s.unlock := rfl
@[simp] theorem setDat_pm (v : Word) : (setDat v s).pm = s.pm := rfl
@[simp] theorem setDat_cfg (v : Word) : (setDat v s).cfg = s.cfg := rfl
@[simp] theorem setDat_gie (v : Word) : (setDat v s).gie = s.gie := rfl
@[simp] theorem setDat_gieSaved (v : Word) : (setDat v s).gieSaved = s.gieSaved := rfl
@[simp] theorem setDat_draws (v : Word) : (setDat v s).draws = s.draws := rfl
@[simp] theorem setDat_result (v : Word) : (setDat v s).result = s.result := rfl
@[simp] theorem setDat_inputs (v : Word) : (setDat v s).inputs = s.inputs := rfl

/-! ### setDatAny -/

@[simp] theorem setDatAny_dev : (setDatAny s).dev = s.dev := rfl
@[simp] theorem setDatAny_buf : (setDatAny s).buf = s.buf := rfl
@[simp] theorem setDatAny_bufEpoch : (setDatAny s).bufEpoch = s.bufEpoch := rfl
@[simp] theorem setDatAny_wrPtr : (setDatAny s).wrPtr = s.wrPtr := rfl
@[simp] theorem setDatAny_rdPtr : (setDatAny s).rdPtr = s.rdPtr := rfl
@[simp] theorem setDatAny_len : (setDatAny s).len = s.len := rfl
@[simp] theorem setDatAny_phase : (setDatAny s).phase = s.phase := rfl
@[simp] theorem setDatAny_run : (setDatAny s).run = s.run := rfl
@[simp] theorem setDatAny_evtPending : (setDatAny s).evtPending = s.evtPending := rfl
@[simp] theorem setDatAny_clkHold : (setDatAny s).clkHold = s.clkHold := rfl
@[simp] theorem setDatAny_evAddr : (setDatAny s).evAddr = s.evAddr := rfl
@[simp] theorem setDatAny_evRead : (setDatAny s).evRead = s.evRead := rfl
@[simp] theorem setDatAny_evData : (setDatAny s).evData = s.evData := rfl
@[simp] theorem setDatAny_txData : (setDatAny s).txData = s.txData := rfl
@[simp] theorem setDatAny_goApp : (setDatAny s).goApp = s.goApp := rfl
@[simp] theorem setDatAny_goBoot : (setDatAny s).goBoot = s.goBoot := rfl
@[simp] theorem setDatAny_pcOut : (setDatAny s).pcOut = s.pcOut := rfl
@[simp] theorem setDatAny_nvmadr : (setDatAny s).nvmadr = s.nvmadr := rfl
@[simp] theorem setDatAny_nvmdat : (setDatAny s).nvmdat = s.dev.trunc (Config.anyWord s.draws) := rfl
@[simp] theorem setDatAny_nvmcon : (setDatAny s).nvmcon = s.nvmcon := rfl
@[simp] theorem setDatAny_latch : (setDatAny s).latch = s.latch := rfl
@[simp] theorem setDatAny_loaded : (setDatAny s).loaded = s.loaded := rfl
@[simp] theorem setDatAny_unlock : (setDatAny s).unlock = s.unlock := rfl
@[simp] theorem setDatAny_pm : (setDatAny s).pm = s.pm := rfl
@[simp] theorem setDatAny_cfg : (setDatAny s).cfg = s.cfg := rfl
@[simp] theorem setDatAny_gie : (setDatAny s).gie = s.gie := rfl
@[simp] theorem setDatAny_gieSaved : (setDatAny s).gieSaved = s.gieSaved := rfl
@[simp] theorem setDatAny_draws : (setDatAny s).draws = s.draws + 1 := rfl
@[simp] theorem setDatAny_result : (setDatAny s).result = s.result := rfl
@[simp] theorem setDatAny_inputs : (setDatAny s).inputs = s.inputs := rfl

/-! ### doLatch -/

@[simp] theorem doLatch_dev : (doLatch s).dev = s.dev := rfl
@[simp] theorem doLatch_buf : (doLatch s).buf = s.buf := rfl
@[simp] theorem doLatch_bufEpoch : (doLatch s).bufEpoch = s.bufEpoch := rfl
@[simp] theorem doLatch_wrPtr : (doLatch s).wrPtr = s.wrPtr := rfl
@[simp] theorem doLatch_rdPtr : (doLatch s).rdPtr = s.rdPtr := rfl
@[simp] theorem doLatch_len : (doLatch s).len = s.len := rfl
@[simp] theorem doLatch_phase : (doLatch s).phase = s.phase := rfl
@[simp] theorem doLatch_run : (doLatch s).run = s.run := rfl
@[simp] theorem doLatch_evtPending : (doLatch s).evtPending = s.evtPending := rfl
@[simp] theorem doLatch_clkHold : (doLatch s).clkHold = s.clkHold := rfl
@[simp] theorem doLatch_evAddr : (doLatch s).evAddr = s.evAddr := rfl
@[simp] theorem doLatch_evRead : (doLatch s).evRead = s.evRead := rfl
@[simp] theorem doLatch_evData : (doLatch s).evData = s.evData := rfl
@[simp] theorem doLatch_txData : (doLatch s).txData = s.txData := rfl
@[simp] theorem doLatch_goApp : (doLatch s).goApp = s.goApp := rfl
@[simp] theorem doLatch_goBoot : (doLatch s).goBoot = s.goBoot := rfl
@[simp] theorem doLatch_pcOut : (doLatch s).pcOut = s.pcOut := rfl
@[simp] theorem doLatch_nvmadr : (doLatch s).nvmadr = s.nvmadr := rfl
@[simp] theorem doLatch_nvmdat : (doLatch s).nvmdat = s.nvmdat := rfl
@[simp] theorem doLatch_nvmcon : (doLatch s).nvmcon = s.nvmcon := rfl
@[simp] theorem doLatch_latch : (doLatch s).latch = cellsStore (fun _ => 0) s.latch (latchIndex s.dev s.nvmadr.toNat) (s.dev.trunc s.nvmdat) := rfl
@[simp] theorem doLatch_loaded : (doLatch s).loaded = cellsStore (fun _ => false) s.loaded (latchIndex s.dev s.nvmadr.toNat) true := rfl
@[simp] theorem doLatch_unlock : (doLatch s).unlock = s.unlock := rfl
@[simp] theorem doLatch_pm : (doLatch s).pm = s.pm := rfl
@[simp] theorem doLatch_cfg : (doLatch s).cfg = s.cfg := rfl
@[simp] theorem doLatch_gie : (doLatch s).gie = s.gie := rfl
@[simp] theorem doLatch_gieSaved : (doLatch s).gieSaved = s.gieSaved := rfl
@[simp] theorem doLatch_draws : (doLatch s).draws = s.draws := rfl
@[simp] theorem doLatch_result : (doLatch s).result = s.result := rfl
@[simp] theorem doLatch_inputs : (doLatch s).inputs = s.inputs := rfl

/-! ### saveAndDisable -/

@[simp] theorem saveAndDisable_dev : (saveAndDisable s).dev = s.dev := rfl
@[simp] theorem saveAndDisable_buf : (saveAndDisable s).buf = s.buf := rfl
@[simp] theorem saveAndDisable_bufEpoch : (saveAndDisable s).bufEpoch = s.bufEpoch := rfl
@[simp] theorem saveAndDisable_wrPtr : (saveAndDisable s).wrPtr = s.wrPtr := rfl
@[simp] theorem saveAndDisable_rdPtr : (saveAndDisable s).rdPtr = s.rdPtr := rfl
@[simp] theorem saveAndDisable_len : (saveAndDisable s).len = s.len := rfl
@[simp] theorem saveAndDisable_phase : (saveAndDisable s).phase = s.phase := rfl
@[simp] theorem saveAndDisable_run : (saveAndDisable s).run = s.run := rfl
@[simp] theorem saveAndDisable_evtPending : (saveAndDisable s).evtPending = s.evtPending := rfl
@[simp] theorem saveAndDisable_clkHold : (saveAndDisable s).clkHold = s.clkHold := rfl
@[simp] theorem saveAndDisable_evAddr : (saveAndDisable s).evAddr = s.evAddr := rfl
@[simp] theorem saveAndDisable_evRead : (saveAndDisable s).evRead = s.evRead := rfl
@[simp] theorem saveAndDisable_evData : (saveAndDisable s).evData = s.evData := rfl
@[simp] theorem saveAndDisable_txData : (saveAndDisable s).txData = s.txData := rfl
@[simp] theorem saveAndDisable_goApp : (saveAndDisable s).goApp = s.goApp := rfl
@[simp] theorem saveAndDisable_goBoot : (saveAndDisable s).goBoot = s.goBoot := rfl
@[simp] theorem saveAndDisable_pcOut : (saveAndDisable s).pcOut = s.pcOut := rfl
@[simp] theorem saveAndDisable_nvmadr : (saveAndDisable s).nvmadr = s.nvmadr := rfl
@[simp] theorem saveAndDisable_nvmdat : (saveAndDisable s).nvmdat = s.nvmdat := rfl
@[simp] theorem saveAndDisable_nvmcon : (saveAndDisable s).nvmcon = s.nvmcon := rfl
@[simp] theorem saveAndDisable_latch : (saveAndDisable s).latch = s.latch := rfl
@[simp] theorem saveAndDisable_loaded : (saveAndDisable s).loaded = s.loaded := rfl
@[simp] theorem saveAndDisable_unlock : (saveAndDisable s).unlock = s.unlock := rfl
@[simp] theorem saveAndDisable_pm : (saveAndDisable s).pm = s.pm := rfl
@[simp] theorem saveAndDisable_cfg : (saveAndDisable s).cfg = s.cfg := rfl
@[simp] theorem saveAndDisable_gie : (saveAndDisable s).gie = false := rfl
@[simp] theorem saveAndDisable_gieSaved : (saveAndDisable s).gieSaved = s.gie := rfl
@[simp] theorem saveAndDisable_draws : (saveAndDisable s).draws = s.draws := rfl
@[simp] theorem saveAndDisable_result : (saveAndDisable s).result = s.result := rfl
@[simp] theorem saveAndDisable_inputs : (saveAndDisable s).inputs = s.inputs := rfl

/-! ### restoreInterrupts -/

@[simp] theorem restoreInterrupts_dev : (restoreInterrupts s).dev = s.dev := rfl
@[simp] theorem restoreInterrupts_buf : (restoreInterrupts s).buf = s.buf := rfl
@[simp] theorem restoreInterrupts_bufEpoch : (restoreInterrupts s).bufEpoch = s.bufEpoch := rfl
@[simp] theorem restoreInterrupts_wrPtr : (restoreInterrupts s).wrPtr = s.wrPtr := rfl
@[simp] theorem restoreInterrupts_rdPtr : (restoreInterrupts s).rdPtr = s.rdPtr := rfl
@[simp] theorem restoreInterrupts_len : (restoreInterrupts s).len = s.len := rfl
@[simp] theorem restoreInterrupts_phase : (restoreInterrupts s).phase = s.phase := rfl
@[simp] theorem restoreInterrupts_run : (restoreInterrupts s).run = s.run := rfl
@[simp] theorem restoreInterrupts_evtPending : (restoreInterrupts s).evtPending = s.evtPending := rfl
@[simp] theorem restoreInterrupts_clkHold : (restoreInterrupts s).clkHold = s.clkHold := rfl
@[simp] theorem restoreInterrupts_evAddr : (restoreInterrupts s).evAddr = s.evAddr := rfl
@[simp] theorem restoreInterrupts_evRead : (restoreInterrupts s).evRead = s.evRead := rfl
@[simp] theorem restoreInterrupts_evData : (restoreInterrupts s).evData = s.evData := rfl
@[simp] theorem restoreInterrupts_txData : (restoreInterrupts s).txData = s.txData := rfl
@[simp] theorem restoreInterrupts_goApp : (restoreInterrupts s).goApp = s.goApp := rfl
@[simp] theorem restoreInterrupts_goBoot : (restoreInterrupts s).goBoot = s.goBoot := rfl
@[simp] theorem restoreInterrupts_pcOut : (restoreInterrupts s).pcOut = s.pcOut := rfl
@[simp] theorem restoreInterrupts_nvmadr : (restoreInterrupts s).nvmadr = s.nvmadr := rfl
@[simp] theorem restoreInterrupts_nvmdat : (restoreInterrupts s).nvmdat = s.nvmdat := rfl
@[simp] theorem restoreInterrupts_nvmcon : (restoreInterrupts s).nvmcon = s.nvmcon := rfl
@[simp] theorem restoreInterrupts_latch : (restoreInterrupts s).latch = s.latch := rfl
@[simp] theorem restoreInterrupts_loaded : (restoreInterrupts s).loaded = s.loaded := rfl
@[simp] theorem restoreInterrupts_unlock : (restoreInterrupts s).unlock = s.unlock := rfl
@[simp] theorem restoreInterrupts_pm : (restoreInterrupts s).pm = s.pm := rfl
@[simp] theorem restoreInterrupts_cfg : (restoreInterrupts s).cfg = s.cfg := rfl
@[simp] theorem restoreInterrupts_gie : (restoreInterrupts s).gie = s.gieSaved := rfl
@[simp] theorem restoreInterrupts_gieSaved : (restoreInterrupts s).gieSaved = s.gieSaved := rfl
@[simp] theorem restoreInterrupts_draws : (restoreInterrupts s).draws = s.draws := rfl
@[simp] theorem restoreInterrupts_result : (restoreInterrupts s).result = s.result := rfl
@[simp] theorem restoreInterrupts_inputs : (restoreInterrupts s).inputs = s.inputs := rfl

/-! ### releaseClock -/

@[simp] theorem releaseClock_dev : (releaseClock s).dev = s.dev := rfl
@[simp] theorem releaseClock_buf : (releaseClock s).buf = s.buf := rfl
@[simp] theorem releaseClock_bufEpoch : (releaseClock s).bufEpoch = s.bufEpoch := rfl
@[simp] theorem releaseClock_wrPtr : (releaseClock s).wrPtr = s.wrPtr := rfl
@[simp] theorem releaseClock_rdPtr : (releaseClock s).rdPtr = s.rdPtr := rfl
@[simp] theorem releaseClock_len : (releaseClock s).len = s.len := rfl
@[simp] theorem releaseClock_phase : (releaseClock s).phase = s.phase := rfl
@[simp] theorem releaseClock_run : (releaseClock s).run = s.run := rfl
@[simp] theorem releaseClock_evtPending : (releaseClock s).evtPending = false := rfl
@[simp] theorem releaseClock_clkHold : (releaseClock s).clkHold = false := rfl
@[simp] theorem releaseClock_evAddr : (releaseClock s).evAddr = s.evAddr := rfl
@[simp] theorem releaseClock_evRead : (releaseClock s).evRead = s.evRead := rfl
@[simp] theorem releaseClock_evData : (releaseClock s).evData = s.evData := rfl
@[simp] theorem releaseClock_txData : (releaseClock s).txData = s.txData := rfl
@[simp] theorem releaseClock_goApp : (releaseClock s).goApp = s.goApp := rfl
@[simp] theorem releaseClock_goBoot : (releaseClock s).goBoot = s.goBoot := rfl
@[simp] theorem releaseClock_pcOut : (releaseClock s).pcOut = s.pcOut := rfl
@[simp] theorem releaseClock_nvmadr : (releaseClock s).nvmadr = s.nvmadr := rfl
@[simp] theorem releaseClock_nvmdat : (releaseClock s).nvmdat = s.nvmdat := rfl
@[simp] theorem releaseClock_nvmcon : (releaseClock s).nvmcon = s.nvmcon := rfl
@[simp] theorem releaseClock_latch : (releaseClock s).latch = s.latch := rfl
@[simp] theorem releaseClock_loaded : (releaseClock s).loaded = s.loaded := rfl
@[simp] theorem releaseClock_unlock : (releaseClock s).unlock = s.unlock := rfl
@[simp] theorem releaseClock_pm : (releaseClock s).pm = s.pm := rfl
@[simp] theorem releaseClock_cfg : (releaseClock s).cfg = s.cfg := rfl
@[simp] theorem releaseClock_gie : (releaseClock s).gie = s.gie := rfl
@[simp] theorem releaseClock_gieSaved : (releaseClock s).gieSaved = s.gieSaved := rfl
@[simp] theorem releaseClock_draws : (releaseClock s).draws = s.draws := rfl
@[simp] theorem releaseClock_result : (releaseClock s).result = s.result := rfl
@[simp] theorem releaseClock_inputs : (releaseClock s).inputs = s.inputs := rfl

/-! ### presentEvent -/

@[simp] theorem presentEvent_dev (a r : Bool) (d : Byte) : (presentEvent a r d s).dev = s.dev := rfl
@[simp] theorem presentEvent_buf (a r : Bool) (d : Byte) : (presentEvent a r d s).buf = s.buf := rfl
@[simp] theorem presentEvent_bufEpoch (a r : Bool) (d : Byte) : (presentEvent a r d s).bufEpoch = s.bufEpoch := rfl
@[simp] theorem presentEvent_wrPtr (a r : Bool) (d : Byte) : (presentEvent a r d s).wrPtr = s.wrPtr := rfl
@[simp] theorem presentEvent_rdPtr (a r : Bool) (d : Byte) : (presentEvent a r d s).rdPtr = s.rdPtr := rfl
@[simp] theorem presentEvent_len (a r : Bool) (d : Byte) : (presentEvent a r d s).len = s.len := rfl
@[simp] theorem presentEvent_phase (a r : Bool) (d : Byte) : (presentEvent a r d s).phase = s.phase := rfl
@[simp] theorem presentEvent_run (a r : Bool) (d : Byte) : (presentEvent a r d s).run = s.run := rfl
@[simp] theorem presentEvent_evtPending (a r : Bool) (d : Byte) : (presentEvent a r d s).evtPending = true := rfl
@[simp] theorem presentEvent_clkHold (a r : Bool) (d : Byte) : (presentEvent a r d s).clkHold = true := rfl
@[simp] theorem presentEvent_evAddr (a r : Bool) (d : Byte) : (presentEvent a r d s).evAddr = a := rfl
@[simp] theorem presentEvent_evRead (a r : Bool) (d : Byte) : (presentEvent a r d s).evRead = r := rfl
@[simp] theorem presentEvent_evData (a r : Bool) (d : Byte) : (presentEvent a r d s).evData = d := rfl
@[simp] theorem presentEvent_txData (a r : Bool) (d : Byte) : (presentEvent a r d s).txData = s.txData := rfl
@[simp] theorem presentEvent_goApp (a r : Bool) (d : Byte) : (presentEvent a r d s).goApp = s.goApp := rfl
@[simp] theorem presentEvent_goBoot (a r : Bool) (d : Byte) : (presentEvent a r d s).goBoot = s.goBoot := rfl
@[simp] theorem presentEvent_pcOut (a r : Bool) (d : Byte) : (presentEvent a r d s).pcOut = s.pcOut := rfl
@[simp] theorem presentEvent_nvmadr (a r : Bool) (d : Byte) : (presentEvent a r d s).nvmadr = s.nvmadr := rfl
@[simp] theorem presentEvent_nvmdat (a r : Bool) (d : Byte) : (presentEvent a r d s).nvmdat = s.nvmdat := rfl
@[simp] theorem presentEvent_nvmcon (a r : Bool) (d : Byte) : (presentEvent a r d s).nvmcon = s.nvmcon := rfl
@[simp] theorem presentEvent_latch (a r : Bool) (d : Byte) : (presentEvent a r d s).latch = s.latch := rfl
@[simp] theorem presentEvent_loaded (a r : Bool) (d : Byte) : (presentEvent a r d s).loaded = s.loaded := rfl
@[simp] theorem presentEvent_unlock (a r : Bool) (d : Byte) : (presentEvent a r d s).unlock = s.unlock := rfl
@[simp] theorem presentEvent_pm (a r : Bool) (d : Byte) : (presentEvent a r d s).pm = s.pm := rfl
@[simp] theorem presentEvent_cfg (a r : Bool) (d : Byte) : (presentEvent a r d s).cfg = s.cfg := rfl
@[simp] theorem presentEvent_gie (a r : Bool) (d : Byte) : (presentEvent a r d s).gie = s.gie := rfl
@[simp] theorem presentEvent_gieSaved (a r : Bool) (d : Byte) : (presentEvent a r d s).gieSaved = s.gieSaved := rfl
@[simp] theorem presentEvent_draws (a r : Bool) (d : Byte) : (presentEvent a r d s).draws = s.draws := rfl
@[simp] theorem presentEvent_result (a r : Bool) (d : Byte) : (presentEvent a r d s).result = s.result := rfl
@[simp] theorem presentEvent_inputs (a r : Bool) (d : Byte) : (presentEvent a r d s).inputs = s.inputs := rfl

/-! ### clearOutputs -/

@[simp] theorem clearOutputs_dev : (clearOutputs s).dev = s.dev := rfl
@[simp] theorem clearOutputs_buf : (clearOutputs s).buf = s.buf := rfl
@[simp] theorem clearOutputs_bufEpoch : (clearOutputs s).bufEpoch = s.bufEpoch := rfl
@[simp] theorem clearOutputs_wrPtr : (clearOutputs s).wrPtr = s.wrPtr := rfl
@[simp] theorem clearOutputs_rdPtr : (clearOutputs s).rdPtr = s.rdPtr := rfl
@[simp] theorem clearOutputs_len : (clearOutputs s).len = s.len := rfl
@[simp] theorem clearOutputs_phase : (clearOutputs s).phase = s.phase := rfl
@[simp] theorem clearOutputs_run : (clearOutputs s).run = s.run := rfl
@[simp] theorem clearOutputs_evtPending : (clearOutputs s).evtPending = s.evtPending := rfl
@[simp] theorem clearOutputs_clkHold : (clearOutputs s).clkHold = s.clkHold := rfl
@[simp] theorem clearOutputs_evAddr : (clearOutputs s).evAddr = s.evAddr := rfl
@[simp] theorem clearOutputs_evRead : (clearOutputs s).evRead = s.evRead := rfl
@[simp] theorem clearOutputs_evData : (clearOutputs s).evData = s.evData := rfl
@[simp] theorem clearOutputs_txData : (clearOutputs s).txData = none := rfl
@[simp] theorem clearOutputs_goApp : (clearOutputs s).goApp = false := rfl
@[simp] theorem clearOutputs_goBoot : (clearOutputs s).goBoot = false := rfl
@[simp] theorem clearOutputs_pcOut : (clearOutputs s).pcOut = none := rfl
@[simp] theorem clearOutputs_nvmadr : (clearOutputs s).nvmadr = s.nvmadr := rfl
@[simp] theorem clearOutputs_nvmdat : (clearOutputs s).nvmdat = s.nvmdat := rfl
@[simp] theorem clearOutputs_nvmcon : (clearOutputs s).nvmcon = s.nvmcon := rfl
@[simp] theorem clearOutputs_latch : (clearOutputs s).latch = s.latch := rfl
@[simp] theorem clearOutputs_loaded : (clearOutputs s).loaded = s.loaded := rfl
@[simp] theorem clearOutputs_unlock : (clearOutputs s).unlock = s.unlock := rfl
@[simp] theorem clearOutputs_pm : (clearOutputs s).pm = s.pm := rfl
@[simp] theorem clearOutputs_cfg : (clearOutputs s).cfg = s.cfg := rfl
@[simp] theorem clearOutputs_gie : (clearOutputs s).gie = s.gie := rfl
@[simp] theorem clearOutputs_gieSaved : (clearOutputs s).gieSaved = s.gieSaved := rfl
@[simp] theorem clearOutputs_draws : (clearOutputs s).draws = s.draws := rfl
@[simp] theorem clearOutputs_result : (clearOutputs s).result = [] := rfl
@[simp] theorem clearOutputs_inputs : (clearOutputs s).inputs = s.inputs := rfl

/-! ### takeInput -/

@[simp] theorem takeInput_dev : (takeInput s).dev = s.dev := rfl
@[simp] theorem takeInput_buf : (takeInput s).buf = s.buf := rfl
@[simp] theorem takeInput_bufEpoch : (takeInput s).bufEpoch = s.bufEpoch := rfl
@[simp] theorem takeInput_wrPtr : (takeInput s).wrPtr = s.wrPtr := rfl
@[simp] theorem takeInput_rdPtr : (takeInput s).rdPtr = s.rdPtr := rfl
@[simp] theorem takeInput_len : (takeInput s).len = s.len := rfl
@[simp] theorem takeInput_phase : (takeInput s).phase = s.phase := rfl
@[simp] theorem takeInput_run : (takeInput s).run = s.run := rfl
@[simp] theorem takeInput_evtPending : (takeInput s).evtPending = s.evtPending := rfl
@[simp] theorem takeInput_clkHold : (takeInput s).clkHold = s.clkHold := rfl
@[simp] theorem takeInput_evAddr : (takeInput s).evAddr = s.evAddr := rfl
@[simp] theorem takeInput_evRead : (takeInput s).evRead = s.evRead := rfl
@[simp] theorem takeInput_evData : (takeInput s).evData = s.evData := rfl
@[simp] theorem takeInput_txData : (takeInput s).txData = s.txData := rfl
@[simp] theorem takeInput_goApp : (takeInput s).goApp = s.goApp := rfl
@[simp] theorem takeInput_goBoot : (takeInput s).goBoot = s.goBoot := rfl
@[simp] theorem takeInput_pcOut : (takeInput s).pcOut = s.pcOut := rfl
@[simp] theorem takeInput_nvmadr : (takeInput s).nvmadr = s.nvmadr := rfl
@[simp] theorem takeInput_nvmdat : (takeInput s).nvmdat = s.nvmdat := rfl
@[simp] theorem takeInput_nvmcon : (takeInput s).nvmcon = s.nvmcon := rfl
@[simp] theorem takeInput_latch : (takeInput s).latch = s.latch := rfl
@[simp] theorem takeInput_loaded : (takeInput s).loaded = s.loaded := rfl
@[simp] theorem takeInput_unlock : (takeInput s).unlock = s.unlock := rfl
@[simp] theorem takeInput_pm : (takeInput s).pm = s.pm := rfl
@[simp] theorem takeInput_cfg : (takeInput s).cfg = s.cfg := rfl
@[simp] theorem takeInput_gie : (takeInput s).gie = s.gie := rfl
@[simp] theorem takeInput_gieSaved : (takeInput s).gieSaved = s.gieSaved := rfl
@[simp] theorem takeInput_draws : (takeInput s).draws = s.draws := rfl
@[simp] theorem takeInput_result : (takeInput s).result = s.result := rfl
@[simp] theorem takeInput_inputs : (takeInput s).inputs = s.inputs.tail := rfl

end Sys2Proof.Machine
end

