-- ==== Sys2Proof/Laws/Ops.lean ====
section
/-! SUPPORT. One lemma for each shared operation over storage: what reads see afterwards, and that the canonical form stays. -/

namespace Sys2Proof.Machine

/-! ### Continuing -/

@[simp] theorem andThen_next (s : State) (f : State → Result) : andThen (.next s) f = f s := rfl
@[simp] theorem andThen_fault (x : Fault) (f : State → Result) : andThen (.fault x) f = .fault x := rfl
@[simp] theorem andThen_refused (x : Refusal) (f : State → Result) : andThen (.refused x) f = .refused x := rfl

/-- If a continued result answers a next state, both parts did. -/
theorem andThen_eq_next {r : Result} {f : State → Result} {t : State} :
    andThen r f = .next t ↔ ∃ s, r = .next s ∧ f s = .next t := by
  cases r <;> simp

theorem andThen_assoc (r : Result) (f g : State → Result) :
    andThen (andThen r f) g = andThen r fun s => andThen (f s) g := by cases r <;> rfl

@[simp] theorem idleFor_eq (n : Nat) (s : State) : idleFor n s = s := by
  induction n with
  | zero => rfl
  | succ n ih => simpa [idleFor, idle] using ih

/-! ### What a read depends on -/

theorem bufByte_congr {s t : State} (he : t.bufEpoch = s.bufEpoch) (hb : t.buf = s.buf) (i : Nat) :
    bufByte t i = bufByte s i := by unfold bufByte; rw [he, hb]

theorem pmWord_congr {s t : State} (hd : t.dev = s.dev) (hp : t.pm = s.pm) (a : Nat) : pmWord t a = pmWord s a := by
  unfold pmWord; rw [hd, hp]

theorem cfgWord_congr {s t : State} (hd : t.dev = s.dev) (hc : t.cfg = s.cfg) (a : Nat) : cfgWord t a = cfgWord s a := by
  unfold cfgWord; rw [hd, hc]

theorem latchWord_congr {s t : State} (hd : t.dev = s.dev) (hl : t.latch = s.latch) (i : Nat) :
    latchWord t i = latchWord s i := by unfold latchWord; rw [hd, hl]

theorem isLoaded_congr {s t : State} (hl : t.loaded = s.loaded) (i : Nat) : isLoaded t i = isLoaded s i := by
  unfold isLoaded; rw [hl]

/-! ### Bytes -/

@[simp] theorem loByte_wordOf (lo hi : Byte) : loByte (wordOf lo hi) = lo := by
  apply BitVec.eq_of_getLsbD_eq
  intro i hi'
  simp only [loByte, wordOf, BitVec.getLsbD_setWidth, BitVec.getLsbD_append]
  grind

@[simp] theorem hiByte_wordOf (lo hi : Byte) : hiByte (wordOf lo hi) = hi := by
  apply BitVec.eq_of_getLsbD_eq
  intro i hi'
  simp only [hiByte, wordOf, BitVec.getLsbD_setWidth, BitVec.getLsbD_ushiftRight, BitVec.getLsbD_append]
  grind

@[simp] theorem wordOf_lo_hi (v : Word) : wordOf (loByte v) (hiByte v) = v := by
  apply BitVec.eq_of_getLsbD_eq
  intro i hi'
  simp only [hiByte, loByte, wordOf, BitVec.getLsbD_setWidth, BitVec.getLsbD_ushiftRight, BitVec.getLsbD_append]
  grind

/-! ### The buffer -/

/-- Reading the buffer after a byte was stored. -/
theorem bufByte_setBufByte (i j : Nat) (b : Byte) (s : State) :
    bufByte (setBufByte i b s) j = if j = i then b else bufByte s j :=
  cellsLoad_insert _ _ _ _ _

theorem cellsLoad_insertWords (d : Nat → Byte) (ws : List Word) :
    ∀ (i : Nat) (m : List Host.Cell) (j : Nat),
      cellsLoad d (insertWords i ws m) j =
        if 2 * i ≤ j ∧ j < 2 * (i + ws.length) then
          (if j % 2 = 0 then loByte (ws.getD (j / 2 - i) 0) else hiByte (ws.getD (j / 2 - i) 0))
        else cellsLoad d m j := by
  induction ws with
  | nil => intro i m j; simp only [insertWords, List.length_nil]; split <;> first | omega | rfl
  | cons v ws ih =>
    intro i m j
    simp only [insertWords, ih, cellsLoad_insert, List.length_cons]
    by_cases h1 : 2 * (i + 1) ≤ j ∧ j < 2 * (i + 1 + ws.length)
    · have h2 : 2 * i ≤ j ∧ j < 2 * (i + (ws.length + 1)) := by omega
      have h3 : j / 2 - i = (j / 2 - (i + 1)) + 1 := by omega
      simp [h1, h2, h3]
    · by_cases h2 : 2 * i ≤ j ∧ j < 2 * (i + (ws.length + 1))
      · rw [if_neg h1, if_pos h2]
        have h3 : j / 2 - i = 0 := by omega
        have h4 : j = 2 * i ∨ j = 2 * i + 1 := by omega
        rcases h4 with rfl | rfl
        · simp
        · have : (2 * i + 1) % 2 = 1 := by omega
          simp [h3, this]
      · rw [if_neg h1, if_neg h2]
        have h3 : j ≠ 2 * i + 1 := by omega
        have h4 : j ≠ 2 * i := by omega
        simp [h3, h4]

/-- Reading a byte of the buffer after words were stored from word `i` on. -/
theorem bufByte_setBufWords (i : Nat) (ws : List Word) (s : State) (j : Nat) :
    bufByte (setBufWords i ws s) j =
      if 2 * i ≤ j ∧ j < 2 * (i + ws.length) then
        (if j % 2 = 0 then loByte (ws.getD (j / 2 - i) 0) else hiByte (ws.getD (j / 2 - i) 0))
      else bufByte s j :=
  cellsLoad_insertWords _ ws i s.buf j

/-- Reading a word of the buffer after words were stored from word `i` on. -/
theorem bufWord_setBufWords (i : Nat) (ws : List Word) (s : State) (k : Nat) :
    bufWord (setBufWords i ws s) k =
      if i ≤ k ∧ k < i + ws.length then ws.getD (k - i) 0 else bufWord s k := by
  have h0 : 2 * k % 2 = 0 := by omega
  have h1 : (2 * k + 1) % 2 = 1 := by omega
  have h2 : 2 * k / 2 = k := by omega
  have h3 : (2 * k + 1) / 2 = k := by omega
  simp only [bufWord, bufByte_setBufWords, h0, h1, h2, h3]
  by_cases h : i ≤ k ∧ k < i + ws.length
  · have a : 2 * i ≤ 2 * k ∧ 2 * k < 2 * (i + ws.length) := by omega
    have b : 2 * i ≤ 2 * k + 1 ∧ 2 * k + 1 < 2 * (i + ws.length) := by omega
    simp [h, a, b]
  · have a : ¬(2 * i ≤ 2 * k ∧ 2 * k < 2 * (i + ws.length)) := by omega
    have b : ¬(2 * i ≤ 2 * k + 1 ∧ 2 * k + 1 < 2 * (i + ws.length)) := by omega
    simp only [if_neg a, if_neg b, if_neg h]

/-- The decoder's frame words are the buffer's words (R71). -/
theorem frameWord_bufBytes (s : State) {k : Nat} (hk : k < capWords) : frameWord (bufBytes s) k = bufWord s k := by
  have hcap : capBytes = 2 * capWords := rfl
  have h1 : 2 * k < capBytes := by omega
  have h2 : 2 * k + 1 < capBytes := by omega
  simp [frameWord, bufWord, bufBytes, List.getD_eq_getElem?_getD, h1, h2]

theorem cellsWf_insertWords {ok : Nat → Byte → Bool} (ws : List Word) :
    ∀ (i : Nat) (m : List Host.Cell), cellsWf ok m = true →
      (∀ j b, j < 2 * (i + ws.length) → ok j b = true) → cellsWf ok (insertWords i ws m) = true := by
  induction ws with
  | nil => intro i m h _; exact h
  | cons v ws ih =>
    intro i m h hok
    have hlen : (v :: ws).length = ws.length + 1 := rfl
    refine ih (i + 1) _ (cellsWf_insert (cellsWf_insert h ?_) ?_) fun j b hj => hok j b ?_
    · exact hok _ _ (by rw [hlen]; omega)
    · exact hok _ _ (by rw [hlen]; omega)
    · rw [hlen]; omega

/-! ### Program memory -/

/-- Reading program memory after a row change. -/
theorem pmWord_setPmRow (base : Nat) (f : Nat → Option Word) (s : State) (a : Nat) :
    pmWord (setPmRow base f s) a =
      if base ≤ a ∧ a < base + s.dev.rowWords then ((f (a - base)).map s.dev.trunc).getD (pmWord s a) else pmWord s a := by
  simp only [pmWord, setPmRow, cellsLoad_storeRange]
  split
  · cases f (a - base) <;> simp
  · rfl

/-- Reading a latch after one was loaded. -/
theorem latchWord_loadLatch (i j : Nat) (v : Word) (s : State) :
    latchWord (loadLatch i v s) j = if j = i then s.dev.trunc v else latchWord s j := by
  simp only [latchWord, loadLatch, cellsLoad_store]
  split <;> simp

theorem isLoaded_loadLatch (i j : Nat) (v : Word) (s : State) :
    isLoaded (loadLatch i v s) j = if j = i then true else isLoaded s j := by
  simp only [isLoaded, loadLatch, cellsLoad_store]

/-- Reading program memory after a commit: the loaded cells of the row are programmed, every other cell stays. -/
theorem pmWord_commitRow (base : Nat) (s : State) (a : Nat) :
    pmWord (commitRow base s) a =
      if base ≤ a ∧ a < base + s.dev.rowWords ∧ isLoaded s (a - base) = true then
        s.dev.prog (pmWord s a) (latchWord s (a - base))
      else pmWord s a := by
  show pmWord (setPmRow base _ s) a = _
  rw [pmWord_setPmRow]
  by_cases h : base ≤ a ∧ a < base + s.dev.rowWords
  · have hb : base + (a - base) = a := by omega
    by_cases hl : isLoaded s (a - base) = true <;> simp [h, hl, hb]
  · rw [if_neg h, if_neg (fun h' => h ⟨h'.1, h'.2.1⟩)]

/-- A commit leaves no latch loaded. -/
@[simp] theorem isLoaded_commitRow (base : Nat) (s : State) (i : Nat) : isLoaded (commitRow base s) i = false := rfl

/-! ### The canonical form -/

theorem Memory.wf_iff (s : State) :
    Memory.wf s = true ↔
      cellsWf (fun a _ => decide (a < capBytes)) s.buf = true ∧
      cellsWf (fun a v => decide (a < s.dev.flashWords) && s.dev.trunc v == v && v != pmDefault s.dev a) s.pm = true ∧
      cellsWf (fun a v => inCfg s.dev a && s.dev.trunc v == v && v != cfgDefault s.dev a) s.cfg = true ∧
      cellsWf (fun a v => decide (a < s.dev.rowWords) && s.dev.trunc v == v && v != 0) s.latch = true ∧
      cellsWf (fun a v => decide (a < s.dev.rowWords) && v) s.loaded = true := by
  simp [Memory.wf, and_assoc]

/-- A stored byte keeps the form, at an address of the buffer. -/
theorem wf_setBufByte {s : State} (h : Memory.wf s = true) {i : Nat} (hi : i < capBytes) (b : Byte) :
    Memory.wf (setBufByte i b s) = true := by
  rw [Memory.wf_iff] at h ⊢
  exact ⟨cellsWf_insert h.1 (by simpa using hi), h.2⟩

/-- Stored words keep the form, at words of the buffer. -/
theorem wf_setBufWords {s : State} (h : Memory.wf s = true) {i : Nat} {ws : List Word} (hi : i + ws.length ≤ capWords) :
    Memory.wf (setBufWords i ws s) = true := by
  rw [Memory.wf_iff] at h ⊢
  refine ⟨cellsWf_insertWords ws i s.buf h.1 fun j b hj => ?_, h.2⟩
  have hcap : capBytes = 2 * capWords := rfl
  rw [decide_eq_true_eq, hcap]
  omega

/-- A row change keeps the form, for a row of program memory. -/
theorem wf_setPmRow {s : State} (h : Memory.wf s = true) {a : Nat} (ha : a < s.dev.flashWords) (f : Nat → Option Word) :
    Memory.wf (setPmRow (rowBase s.dev a) f s) = true := by
  rw [Memory.wf_iff] at h ⊢
  refine ⟨h.1, cellsWf_storeRange h.2.1 fun i v hi hv hne => ?_, h.2.2⟩
  have hrow := s.dev.row_in_flash ha hi
  cases hf : f i with
  | none => simp [hf] at hv
  | some w =>
    simp only [hf, Option.map_some, Option.some.injEq] at hv
    subst hv
    simp only [rowBase] at hne ⊢
    simp [hrow, hne]

/-- A latch load keeps the form, at an index of the row. -/
theorem wf_loadLatch {s : State} (h : Memory.wf s = true) {i : Nat} (hi : i < s.dev.rowWords) (v : Word) :
    Memory.wf (loadLatch i v s) = true := by
  rw [Memory.wf_iff] at h ⊢
  refine ⟨h.1, h.2.1, h.2.2.1, ?_, ?_⟩
  · refine cellsWf_store (d := fun _ => 0) h.2.2.2.1 fun hne => ?_
    have hne' : ¬s.dev.trunc v = 0#16 := hne
    simp [hi, hne']
  · exact cellsWf_store (d := fun _ => false) (a := i) (v := true) h.2.2.2.2 fun _ => by simp [hi]

/-- A commit keeps the form, for a row of program memory. -/
theorem wf_commitRow {s : State} (h : Memory.wf s = true) {a : Nat} (ha : a < s.dev.flashWords) :
    Memory.wf (commitRow (rowBase s.dev a) s) = true := by
  have hp := wf_setPmRow h ha fun i =>
    if isLoaded s i then some (s.dev.prog (pmWord s (rowBase s.dev a + i)) (latchWord s i)) else none
  rw [Memory.wf_iff] at hp ⊢
  exact ⟨hp.1, hp.2.1, hp.2.2.1, hp.2.2.2.1, by simp [commitRow, cellsWf]⟩

/-- Re-entry and reset leave storage in canonical form: they list nothing new. -/
theorem wf_reenterBootloader {s : State} (h : Memory.wf s = true) : Memory.wf (reenterBootloader s) = true := by
  rw [Memory.wf_iff] at h ⊢
  exact ⟨rfl, h.2⟩

theorem wf_resetOf (c : Config) : Memory.wf (State.resetOf c) = true := by
  rw [Memory.wf_iff]
  refine ⟨rfl, cellsWf_cellsOf fun p hp hok hne => ?_, cellsWf_cellsOf fun p hp hok hne => ?_, rfl, rfl⟩
  · obtain ⟨q, -, rfl⟩ := List.mem_map.1 hp
    simp_all [State.resetOf]
  · obtain ⟨q, -, rfl⟩ := List.mem_map.1 hp
    simp_all [State.resetOf]

/-- A row that a reset struck keeps the form. -/
theorem wf_scrambleRow {s : State} (h : Memory.wf s = true) (a : Word) : Memory.wf (scrambleRow a s) = true := by
  unfold scrambleRow
  split
  · next ha =>
    have hp := wf_setPmRow h ha fun i => some (Config.anyWord (s.draws + i))
    rw [Memory.wf_iff] at hp ⊢
    exact hp
  · exact h

theorem wf_hardReset {s : State} (h : Memory.wf s = true) (struck : Option Word) :
    Memory.wf (hardReset struck s) = true := by
  have key : ∀ t : State, Memory.wf t = true → t.dev = s.dev →
      Memory.wf { State.resetOf s.dev with
        pm := t.pm, cfg := t.cfg, bufEpoch := t.bufEpoch + 1, draws := t.draws, inputs := t.inputs.tail } = true := by
    intro t ht hd
    rw [Memory.wf_iff] at ht ⊢
    rw [hd] at ht
    exact ⟨rfl, ht.2.1, ht.2.2.1, rfl, rfl⟩
  cases struck with
  | none => exact key s h rfl
  | some a =>
    refine key (scrambleRow a s) (wf_scrambleRow h a) ?_
    unfold scrambleRow
    split <;> rfl

end Sys2Proof.Machine
end

