-- ==== Sys2Proof/Laws/Nvm.lean ====
section
/-! SUPPORT. What a write of `NVMCON` and the handshake can do, said once. -/

namespace Sys2Proof.Machine

/-! ### The bits of a written byte -/

section
variable (b7 b6 b5 b4 b3 b2 b1 b0 : Bool)

@[simp] theorem conSpace_byteOfBits : conSpace (byteOfBits b7 b6 b5 b4 b3 b2 b1 b0) = b6 := by
  revert b7 b6 b5 b4 b3 b2 b1 b0; decide

@[simp] theorem conLatchOnly_byteOfBits : conLatchOnly (byteOfBits b7 b6 b5 b4 b3 b2 b1 b0) = b5 := by
  revert b7 b6 b5 b4 b3 b2 b1 b0; decide

@[simp] theorem conErase_byteOfBits : conErase (byteOfBits b7 b6 b5 b4 b3 b2 b1 b0) = b4 := by
  revert b7 b6 b5 b4 b3 b2 b1 b0; decide

@[simp] theorem conEn_byteOfBits : conEn (byteOfBits b7 b6 b5 b4 b3 b2 b1 b0) = b2 := by
  revert b7 b6 b5 b4 b3 b2 b1 b0; decide

@[simp] theorem conCommit_byteOfBits : conCommit (byteOfBits b7 b6 b5 b4 b3 b2 b1 b0) = b1 := by
  revert b7 b6 b5 b4 b3 b2 b1 b0; decide

@[simp] theorem conRead_byteOfBits : conRead (byteOfBits b7 b6 b5 b4 b3 b2 b1 b0) = b0 := by
  revert b7 b6 b5 b4 b3 b2 b1 b0; decide

/-- Reserved bits are ignored and the request bits read 0 (R43). -/
theorem nvmconHeld_byteOfBits :
    nvmconHeld (byteOfBits b7 b6 b5 b4 b3 b2 b1 b0) = byteOfBits false b6 b5 b4 false b2 false false := by
  revert b7 b6 b5 b4 b3 b2 b1 b0; decide

end

@[simp] theorem nvmconHeld_nvmconHeld (v : Byte) : nvmconHeld (nvmconHeld v) = nvmconHeld v := by
  simp [nvmconHeld, BitVec.and_assoc]

/-- The request byte the handshake writes (R143) has the fields `NVMCON` holds, `COMMIT = 1` and `READ = 0`. -/
theorem withCommit_fields (v : Byte) :
    conCommit (withCommit (nvmconHeld v)) = true ∧ conRead (withCommit (nvmconHeld v)) = false ∧
    conSpace (withCommit (nvmconHeld v)) = conSpace v ∧ conLatchOnly (withCommit (nvmconHeld v)) = conLatchOnly v ∧
    conErase (withCommit (nvmconHeld v)) = conErase v ∧ conEn (withCommit (nvmconHeld v)) = conEn v ∧
    nvmconHeld (withCommit (nvmconHeld v)) = nvmconHeld v := by
  revert v; decide

/-! ### A write of `NVMCON` -/

/-- No request (R138). -/
theorem regWriteCon_fields {v : Byte} (hc : conCommit v = false) (hr : conRead v = false) (s : State) :
    regWriteCon v s = .next (updateFields v s) := by simp [regWriteCon, hc, hr]

/-- A commit request that is ignored (R137). -/
theorem regWriteCon_ignored {v : Byte} {s : State} (hc : conCommit v = true) (hr : conRead v = false)
    (h : s.unlock ≠ .unlocked ∨ conEn v = false) : regWriteCon v s = .next (updateFields v s) := by
  have : ¬(s.unlock = .unlocked ∧ conEn v = true) := by rintro ⟨h1, h2⟩; rcases h with h | h <;> simp_all
  simp [regWriteCon, hc, hr, this]

/-- A commit request that is performed (R131). -/
theorem regWriteCon_performed {v : Byte} {s : State} (hc : conCommit v = true) (hr : conRead v = false)
    (hu : s.unlock = .unlocked) (he : conEn v = true) : regWriteCon v s = commitOperation v (updateFields v s) := by
  simp [regWriteCon, hc, hr, hu, he]

/-- A read request (R132, R133). -/
theorem regWriteCon_read {v : Byte} (hc : conCommit v = false) (hr : conRead v = true) (s : State) :
    regWriteCon v s = .next (if conSpace v then readCfg (updateFields v s) else readPm (updateFields v s)) := by
  simp [regWriteCon, hc, hr]

/-- Everything a write of `NVMCON` can do, if it answers a next state. -/
theorem regWriteCon_next {v : Byte} {s t : State} (h : regWriteCon v s = .next t) :
    t = updateFields v s ∨ t = readCfg (updateFields v s) ∨ t = readPm (updateFields v s) ∨
    (s.unlock = .unlocked ∧ conEn v = true ∧
      (t = doLatch (updateFields v s) ∨
       (s.nvmadr.toNat < s.dev.flashWords ∧
         (t = commitRow (rowBase s.dev s.nvmadr.toNat) (doLatch (updateFields v s)) ∨
          t = setPmRow (rowBase s.dev s.nvmadr.toNat) (fun _ => some s.dev.eraseValue) (updateFields v s))))) := by
  unfold regWriteCon at h
  split at h
  · cases h
  · cases h; exact .inl rfl
  · split at h <;> cases h
    · exact .inr (.inl rfl)
    · exact .inr (.inr (.inl rfl))
  · split at h
    · next hu =>
      refine .inr (.inr (.inr ⟨hu.1, hu.2, ?_⟩))
      unfold commitOperation at h
      split at h
      · cases h
      · split at h
        · unfold doErase at h
          split at h
          · next ha => cases h; exact .inr ⟨ha, .inr rfl⟩
          · cases h
        · split at h
          · cases h; exact .inl rfl
          · unfold doCommit at h
            split at h
            · next ha => cases h; exact .inr ⟨ha, .inl rfl⟩
            · cases h
    · cases h; exact .inl rfl

/-! ### The handshake (R143) -/

/-- From `Locked`, the handshake unlocks and the request is performed by the fields held. -/
theorem unlockThenCommit_locked {s : State} (hg : s.gie = false) (hu : s.unlock = .locked) :
    unlockThenCommit s = regWriteCon (withCommit (nvmconHeld s.nvmcon)) { s with unlock := .unlocked } := by
  have h1 : regWriteKey s.dev.keys.key2 (regWriteKey s.dev.keys.key1 s) = { s with unlock := .unlocked } := by
    simp [regWriteKey, unlockOnKey, hu]
  unfold unlockThenCommit
  rw [if_neg (by simp [hg])]
  simp only [idleFor_eq, h1]
  cases regWriteCon (withCommit (nvmconHeld s.nvmcon)) { s with unlock := .unlocked } <;> rfl

/-- From any other state of the sequencer the first key relocks, and the request is ignored. -/
theorem unlockThenCommit_notLocked {s : State} (hg : s.gie = false) (hu : s.unlock ≠ .locked) :
    unlockThenCommit s = .next (updateFields (withCommit (nvmconHeld s.nvmcon)) s) := by
  have h1 : regWriteKey s.dev.keys.key2 (regWriteKey s.dev.keys.key1 s) = { s with unlock := .locked } := by
    cases h : s.unlock
    · exact absurd h hu
    · simp [regWriteKey, unlockOnKey, h, s.dev.keys.key1_ne_key2, s.dev.keys.key1_ne_key2.symm]
    · simp [regWriteKey, unlockOnKey, h, s.dev.keys.key1_ne_key2.symm]
  obtain ⟨hc, hr, -⟩ := withCommit_fields s.nvmcon
  unfold unlockThenCommit
  rw [if_neg (by simp [hg])]
  simp only [idleFor_eq, h1]
  rw [regWriteCon_ignored hc hr (.inl (by simp))]
  rfl

/-- With interrupts enabled the handshake is refused (U6). -/
theorem unlockThenCommit_preemptible {s : State} (hg : s.gie = true) :
    unlockThenCommit s = .refused .preemptibleHandshake := by simp [unlockThenCommit, hg]

end Sys2Proof.Machine
end

