-- ==== Sys2Proof/Laws/Driver.lean ====
section
/-! SUPPORT. What the unlock discipline and each driver operation over it can do, said once. -/

namespace Sys2Proof.Machine

/-- The discipline is the step-2 write, the performed request and the close of the window, between the interrupt save and
restore; the handshake never fails inside it. -/
theorem discipline_eq {load : State → State} {con : Byte} {s : State} (hc : conCommit con = false)
    (hr : conRead con = false) (hh : nvmconHeld con = con) (hg : (load (saveAndDisable s)).gie = false) (close : Bool) :
    discipline load con close s =
      andThen (regWriteCon (withCommit con)
          { load (saveAndDisable s) with nvmcon := con, unlock := .unlocked }) fun t =>
      andThen (if close then closeWindow t else .next t) fun u => .next (restoreInterrupts u) := by
  have hu : unlockThenCommit (updateFields con (load (saveAndDisable s))) = _ := unlockThenCommit_locked hg rfl
  have hn : nvmconHeld (updateFields con (load (saveAndDisable s))).nvmcon = con := by
    simp only [updateFields, hh]
  simp only [discipline, regWriteCon_fields hc hr, andThen_next, hu, hn]
  simp only [updateFields, hh]

/-- The word read by `readWord`'s accesses is left in `NVMDAT`. -/
theorem readWordAccesses_eq (address : Word) (s : State) :
    readWordAccesses address s =
      .next (if address.toNat < s.dev.flashWords then
        { s with nvmadr := address, nvmdat := pmWord s address.toNat, nvmcon := 0x00, unlock := .locked }
      else
        { s with nvmadr := address, nvmdat := s.dev.trunc (Config.anyWord s.draws), draws := s.draws + 1, nvmcon := 0x00,
                 unlock := .locked }) := by
  unfold readWordAccesses
  rw [regWriteCon_read (by decide) (by decide)]
  have h1 : conSpace 0x01 = false := by decide
  have h2 : nvmconHeld 0x01 = 0x00 := by decide
  simp only [h1, Bool.false_eq_true, if_false, andThen_next, readPm, updateFields, regWriteAdr, h2]
  split <;> rfl

/-- A commit request of a driver operation, in the window it opened: the fields, then the operation. -/
theorem discipline_performs {load : State → State} {con : Byte} {s u : State} (hl : load (saveAndDisable s) = u)
    (hg : u.gie = false) (hc : conCommit con = false) (hr : conRead con = false) (he : conEn con = true)
    (hh : nvmconHeld con = con) (close : Bool) :
    discipline load con close s =
      andThen (commitOperation (withCommit con) { u with nvmcon := con, unlock := .locked }) fun t =>
      andThen (if close then closeWindow t else .next t) fun t => .next (restoreInterrupts t) := by
  subst hl
  have hw := withCommit_fields con
  rw [hh] at hw
  rw [discipline_eq hc hr hh hg, regWriteCon_performed hw.1 hw.2.1 rfl (hw.2.2.2.2.2.1.trans he)]
  simp only [updateFields, hw.2.2.2.2.2.2]

/-- The byte step 4 writes has no request; held, it is itself. -/
theorem withoutEn_fields (v : Byte) :
    conCommit (withoutEn (nvmconHeld v)) = false ∧ conRead (withoutEn (nvmconHeld v)) = false ∧
    nvmconHeld (withoutEn (nvmconHeld v)) = withoutEn (nvmconHeld v) := by
  revert v; decide

/-- Step 4 clears `EN` and keeps the other fields (R177, R322). -/
theorem closeWindow_eq (s : State) :
    closeWindow s = .next { s with nvmcon := withoutEn (nvmconHeld s.nvmcon), unlock := .locked } := by
  obtain ⟨hc, hr, hh⟩ := withoutEn_fields s.nvmcon
  unfold closeWindow
  rw [regWriteCon_fields hc hr, updateFields, hh]
  rfl

/-- The state in which a write operation's request is performed. -/
theorem load_write (address data : Word) (s : State) :
    regWriteDat data (regWriteAdr address (saveAndDisable s)) =
      { s with nvmadr := address, nvmdat := data, unlock := .locked, gieSaved := s.gie, gie := false } := rfl

/-- The state in which an erase's request is performed. -/
theorem load_erase (address : Word) (s : State) :
    regWriteAdr address (saveAndDisable s) =
      { s with nvmadr := address, unlock := .locked, gieSaved := s.gie, gie := false } := rfl

/-- `writeWord` with `latchOnly`: one latch is staged. -/
theorem writeWordLatch_eq (address data : Word) (s : State) :
    writeWordLatch address data s =
      .next { loadLatch (latchIndex s.dev address.toNat) data s with
        nvmadr := address, nvmdat := data, nvmcon := 0x24, unlock := .locked, gieSaved := s.gie } := by
  unfold writeWordLatch
  rw [discipline_performs (load_write address data s) rfl (by decide) (by decide) (by decide) (by decide)]
  rfl

/-- `writeWord` without `latchOnly`, in program memory: the row is programmed with the word staged last. -/
theorem writeWordCommit_eq {address : Word} {s : State} (ha : address.toNat < s.dev.flashWords) (data : Word) :
    writeWordCommit address data s =
      .next { commitRow (rowBase s.dev address.toNat) (loadLatch (latchIndex s.dev address.toNat) data s) with
        nvmadr := address, nvmdat := data, nvmcon := 0x04, unlock := .locked, gieSaved := s.gie } := by
  unfold writeWordCommit
  rw [discipline_performs (load_write address data s) rfl (by decide) (by decide) (by decide) (by decide)]
  have hop : ∀ u : State, commitOperation (withCommit 0x04) u = doCommit u := fun u => rfl
  rw [hop]
  unfold doCommit
  rw [if_pos ha]
  rfl

/-- `eraseRow`, in program memory: the row is erased and the window closed. -/
theorem eraseRow_eq {address : Word} {s : State} (ha : address.toNat < s.dev.flashWords) :
    eraseRow address s =
      .next { setPmRow (rowBase s.dev address.toNat) (fun _ => some s.dev.eraseValue) s with
        nvmadr := address, nvmcon := 0x10, unlock := .locked, gieSaved := s.gie } := by
  unfold eraseRow
  rw [discipline_performs (load_erase address s) rfl (by decide) (by decide) (by decide) (by decide)]
  have hop : ∀ u : State, commitOperation (withCommit 0x14) u = doErase u := fun u => rfl
  rw [hop]
  unfold doErase
  rw [if_pos ha]
  have hcon : withoutEn (nvmconHeld 0x14) = 0x10 := by decide
  simp only [andThen_next, if_true, closeWindow_eq, setPmRow_nvmcon, hcon]
  rfl

/-- Outside program memory a commit by the driver has no meaning (R142(c)). -/
theorem writeWordCommit_refused {address : Word} {s : State} (ha : s.dev.flashWords ≤ address.toNat) (data : Word) :
    writeWordCommit address data s = .refused .invalidTarget := by
  unfold writeWordCommit
  rw [discipline_performs (load_write address data s) rfl (by decide) (by decide) (by decide) (by decide)]
  have hop : ∀ u : State, commitOperation (withCommit 0x04) u = doCommit u := fun u => rfl
  rw [hop]
  unfold doCommit
  rw [if_neg (Nat.not_lt.2 ha)]
  rfl

/-- Outside program memory an erase by the driver has no meaning (R142(c)). -/
theorem eraseRow_refused {address : Word} {s : State} (ha : s.dev.flashWords ≤ address.toNat) :
    eraseRow address s = .refused .invalidTarget := by
  unfold eraseRow
  rw [discipline_performs (load_erase address s) rfl (by decide) (by decide) (by decide) (by decide)]
  have hop : ∀ u : State, commitOperation (withCommit 0x14) u = doErase u := fun u => rfl
  rw [hop]
  unfold doErase
  rw [if_neg (Nat.not_lt.2 ha)]
  rfl

/-- The words a row write commits lie in its row: from `validTarget`, the last address is in program memory and no
address arithmetic wraps. -/
theorem validTarget_bound {c : Config} {address : Word} {n : Nat} (h : validTarget c address n = true) :
    address.toNat + n ≤ c.flashWords := by
  simp only [validTarget, Bool.and_eq_true, decide_eq_true_eq] at h
  exact h.1

/-- Program memory after `NVM.COMMIT` of a word at `a`: the addressed cell and every loaded cell of its row are programmed. -/
theorem pmWord_commitRow_loadLatch (s : State) (a : Nat) (d : Word) (x : Nat) :
    pmWord (commitRow (rowBase s.dev a) (loadLatch (latchIndex s.dev a) d s)) x =
      if x = a then s.dev.prog (pmWord s x) (s.dev.trunc d)
      else if InRowOf s.dev a x ∧ isLoaded s (x - rowBase s.dev a) = true then
        s.dev.prog (pmWord s x) (latchWord s (x - rowBase s.dev a))
      else pmWord s x := by
  refine (pmWord_commitRow _ _ _).trans ?_
  have hlt := Nat.mod_lt a s.dev.rowWords_pos
  have hle := Nat.mod_le a s.dev.rowWords
  have hi := isLoaded_loadLatch (latchIndex s.dev a) (x - rowBase s.dev a) d s
  have hl := latchWord_loadLatch (latchIndex s.dev a) (x - rowBase s.dev a) d s
  have hp : pmWord (loadLatch (latchIndex s.dev a) d s) x = pmWord s x := pmWord_congr rfl rfl x
  have hd : (loadLatch (latchIndex s.dev a) d s).dev = s.dev := rfl
  simp only [hi, hl, hp, hd]
  clear hi hl hp hd
  have e1 : latchIndex s.dev a = a % s.dev.rowWords := rfl
  have e2 : rowBase s.dev a = a - a % s.dev.rowWords := rfl
  by_cases hx : x = a
  · subst hx
    have h3 : x - rowBase s.dev x = latchIndex s.dev x := by omega
    have h4 : rowBase s.dev x ≤ x ∧ x < rowBase s.dev x + s.dev.rowWords := by
      have := Nat.mod_lt x s.dev.rowWords_pos
      have := Nat.mod_le x s.dev.rowWords
      omega
    simp [h3, h4]
  · by_cases h : rowBase s.dev a ≤ x ∧ x < rowBase s.dev a + s.dev.rowWords
    · have h3 : ¬x - rowBase s.dev a = latchIndex s.dev a := by
        have := Nat.mod_le a s.dev.rowWords
        omega
      simp [h3, hx, InRowOf, h]
    · have h5 : ¬(rowBase s.dev a ≤ x ∧ x < rowBase s.dev a + s.dev.rowWords ∧
        (if x - rowBase s.dev a = latchIndex s.dev a then true else isLoaded s (x - rowBase s.dev a)) = true) :=
          fun h' => h ⟨h'.1, h'.2.1⟩
      simp only [h5, hx, InRowOf, h, if_false, false_and]

/-- Program memory after an erase of the row that holds `a`. -/
theorem pmWord_setPmRow_erase (s : State) (a x : Nat) :
    pmWord (setPmRow (rowBase s.dev a) (fun _ => some s.dev.eraseValue) s) x =
      if InRowOf s.dev a x then s.dev.eraseValue else pmWord s x := by
  rw [pmWord_setPmRow]; simp

/-- Everything the row-write loop does inside one row of program memory, from any state. -/
theorem rowWriteLoop_spec (ws : List Word) : ∀ (a : Word) (s : State), ws ≠ [] →
    a.toNat % s.dev.rowWords + ws.length ≤ s.dev.rowWords → a.toNat + ws.length ≤ s.dev.flashWords →
    ∃ t, rowWriteLoop a ws s = .next t ∧
      (∀ x, pmWord t x =
        if a.toNat ≤ x ∧ x < a.toNat + ws.length then s.dev.prog (pmWord s x) (s.dev.trunc (ws.getD (x - a.toNat) 0))
        else if InRowOf s.dev a.toNat x ∧ isLoaded s (x - rowBase s.dev a.toNat) = true then
          s.dev.prog (pmWord s x) (latchWord s (x - rowBase s.dev a.toNat))
        else pmWord s x) ∧
      (∀ i, latchWord t i =
        if latchIndex s.dev a.toNat ≤ i ∧ i < latchIndex s.dev a.toNat + ws.length then
          s.dev.trunc (ws.getD (i - latchIndex s.dev a.toNat) 0)
        else latchWord s i) ∧
      t = { s with
        nvmadr := a + BitVec.ofNat 16 (ws.length - 1), nvmdat := ws.getD (ws.length - 1) 0, nvmcon := 0x04,
        unlock := .locked, gieSaved := s.gie, pm := t.pm, latch := t.latch, loaded := [] } := by
  induction ws with
  | nil => intro a s h; exact absurd rfl h
  | cons w ws ih =>
    intro a s _ h1 h2
    cases ws with
    | nil =>
      simp only [List.length_cons, List.length_nil] at h1 h2
      refine ⟨_, writeWordCommit_eq (by omega) w, ?_, ?_, ?_⟩
      · intro x
        refine (pmWord_congr rfl rfl x).trans ((pmWord_commitRow_loadLatch s a.toNat w x).trans ?_)
        by_cases hx : x = a.toNat
        · subst hx; simp
        · have : ¬(a.toNat ≤ x ∧ x < a.toNat + [w].length) := by simp; omega
          rw [if_neg hx, if_neg this]
      · intro i
        refine (latchWord_congr rfl rfl i).trans ((latchWord_loadLatch (latchIndex s.dev a.toNat) i w s).trans ?_)
        by_cases hx : i = latchIndex s.dev a.toNat
        · subst hx; simp
        · have : ¬(latchIndex s.dev a.toNat ≤ i ∧ i < latchIndex s.dev a.toNat + [w].length) := by simp; omega
          rw [if_neg hx, if_neg this]
      · simp [commitRow, setPmRow, loadLatch]
    | cons w' ws =>
      have hle := s.dev.flashWords_le
      simp only [List.length_cons] at h1 h2
      have hlt : (a + 1).toNat = a.toNat + 1 := by
        rw [BitVec.toNat_add]; simp; omega
      have hmod : (a.toNat + 1) % s.dev.rowWords = a.toNat % s.dev.rowWords + 1 := by
        have hr := s.dev.two_le_rowWords
        rw [Nat.add_mod, Nat.mod_eq_of_lt (a := 1) (by omega), Nat.mod_eq_of_lt (by omega)]
      have hml := Nat.mod_le a.toNat s.dev.rowWords
      obtain ⟨u, hu⟩ : ∃ u : State, u = { loadLatch (latchIndex s.dev a.toNat) w s with
        nvmadr := a, nvmdat := w, nvmcon := 0x24, unlock := .locked, gieSaved := s.gie } := ⟨_, rfl⟩
      have hud : u.dev = s.dev := by rw [hu]; rfl
      have hp : ∀ x, pmWord u x = pmWord s x := fun x => by rw [hu]; exact pmWord_congr rfl rfl x
      have hl : ∀ i, latchWord u i =
          if i = latchIndex s.dev a.toNat then s.dev.trunc w else latchWord s i := fun i => by
        rw [hu]; exact (latchWord_congr rfl rfl i).trans (latchWord_loadLatch (latchIndex s.dev a.toNat) i w s)
      have hi : ∀ i, isLoaded u i =
          if i = latchIndex s.dev a.toNat then true else isLoaded s i := fun i => by
        rw [hu]; exact (isLoaded_congr rfl i).trans (isLoaded_loadLatch (latchIndex s.dev a.toNat) i w s)
      have hrb : rowBase s.dev (a.toNat + 1) = rowBase s.dev a.toNat := by unfold rowBase; omega
      have hli : latchIndex s.dev (a.toNat + 1) = latchIndex s.dev a.toNat + 1 := hmod
      have e1 : latchIndex s.dev a.toNat = a.toNat % s.dev.rowWords := rfl
      have e2 : rowBase s.dev a.toNat = a.toNat - a.toNat % s.dev.rowWords := rfl
      obtain ⟨t, ht, hpm, hla, hst⟩ := ih (a + 1) u (by simp)
        (by rw [hlt, hud, hmod]; simp only [List.length_cons]; omega)
        (by rw [hlt, hud]; simp only [List.length_cons]; omega)
      clear ih
      refine ⟨t, ?_, ?_, ?_, ?_⟩
      · simp only [rowWriteLoop, writeWordLatch_eq, andThen_next]; rw [← hu]; exact ht
      · intro x
        refine (hpm x).trans ?_
        simp only [hlt, hud, hrb, hp, hl, hi, InRowOf, List.length_cons]
        by_cases hx : x = a.toNat
        · rw [hx]
          have c1 : ¬(a.toNat + 1 ≤ a.toNat ∧ a.toNat < a.toNat + 1 + (ws.length + 1)) := by omega
          have c2 : a.toNat - rowBase s.dev a.toNat = latchIndex s.dev a.toNat := by omega
          have c3 : rowBase s.dev a.toNat ≤ a.toNat ∧ a.toNat < rowBase s.dev a.toNat + s.dev.rowWords := by omega
          simp [c2, c3]
        · by_cases hin : a.toNat + 1 ≤ x ∧ x < a.toNat + 1 + (ws.length + 1)
          · have hin' : a.toNat ≤ x ∧ x < a.toNat + (ws.length + 1 + 1) := by omega
            have e : x - a.toNat = (x - (a.toNat + 1)) + 1 := by omega
            rw [if_pos hin, if_pos hin', e]
            simp
          · have hin' : ¬(a.toNat ≤ x ∧ x < a.toNat + (ws.length + 1 + 1)) := by omega
            rw [if_neg hin, if_neg hin']
            by_cases hr : rowBase s.dev a.toNat ≤ x ∧ x < rowBase s.dev a.toNat + s.dev.rowWords
            · have e : ¬ x - rowBase s.dev a.toNat = latchIndex s.dev a.toNat := by omega
              simp only [e, if_false]
            · simp only [hr, false_and, if_false]
      · intro i
        refine (hla i).trans ?_
        simp only [hlt, hud, hl, hli, List.length_cons]
        by_cases hx : i = latchIndex s.dev a.toNat
        · rw [hx]; simp
        · by_cases hin : latchIndex s.dev a.toNat + 1 ≤ i ∧ i < latchIndex s.dev a.toNat + 1 + (ws.length + 1)
          · have hin' : latchIndex s.dev a.toNat ≤ i ∧ i < latchIndex s.dev a.toNat + (ws.length + 1 + 1) := by omega
            have e : i - latchIndex s.dev a.toNat = (i - (latchIndex s.dev a.toNat + 1)) + 1 := by omega
            rw [if_pos hin, if_pos hin', e]
            simp
          · have hin' : ¬(latchIndex s.dev a.toNat ≤ i ∧ i < latchIndex s.dev a.toNat + (ws.length + 1 + 1)) := by omega
            rw [if_neg hin, if_neg hin', if_neg hx]
      · refine hst.trans ?_
        have e : a + 1 + BitVec.ofNat 16 ((w' :: ws).length - 1) =
            a + BitVec.ofNat 16 ((w :: w' :: ws).length - 1) := by
          rw [BitVec.add_assoc]; congr 1
          apply BitVec.eq_of_toNat_eq
          simp [List.length_cons]; omega
        rw [e, hu]
        simp [loadLatch]

end Sys2Proof.Machine
end

