-- ==== Sys2Proof/Laws/Frame.lean ====
section
/-! SUPPORT. The frame of the controller and the driver: what none of their operations changes; and what a command that
replies leaves. -/

namespace Sys2Proof.Machine

/-- What every operation of the controller and the driver leaves as it was: all but the NVM registers, the latches,
program memory and the model's counters; and that it keeps the canonical form and `NVMCON`'s reserved bits. -/
structure Keeps (s t : State) : Prop where
  dev : t.dev = s.dev
  cfg : t.cfg = s.cfg
  run : t.run = s.run
  phase : t.phase = s.phase
  len : t.len = s.len
  wrPtr : t.wrPtr = s.wrPtr
  rdPtr : t.rdPtr = s.rdPtr
  buf : t.buf = s.buf
  bufEpoch : t.bufEpoch = s.bufEpoch
  evtPending : t.evtPending = s.evtPending
  clkHold : t.clkHold = s.clkHold
  goBoot : t.goBoot = s.goBoot
  goApp : t.goApp = s.goApp
  pcOut : t.pcOut = s.pcOut
  gie : t.gie = s.gie
  wf : Memory.wf s = true → Memory.wf t = true
  nvmcon : NvmconSound s → NvmconSound t

theorem Keeps.refl (s : State) : Keeps s s :=
  ⟨rfl, rfl, rfl, rfl, rfl, rfl, rfl, rfl, rfl, rfl, rfl, rfl, rfl, rfl, rfl, id, id⟩

theorem Keeps.trans {s t u : State} (h : Keeps s t) (k : Keeps t u) : Keeps s u :=
  ⟨k.dev.trans h.dev, k.cfg.trans h.cfg, k.run.trans h.run, k.phase.trans h.phase, k.len.trans h.len,
   k.wrPtr.trans h.wrPtr, k.rdPtr.trans h.rdPtr, k.buf.trans h.buf, k.bufEpoch.trans h.bufEpoch,
   k.evtPending.trans h.evtPending, k.clkHold.trans h.clkHold, k.goBoot.trans h.goBoot, k.goApp.trans h.goApp,
   k.pcOut.trans h.pcOut, k.gie.trans h.gie, fun x => k.wf (h.wf x), fun x => k.nvmcon (h.nvmcon x)⟩

/-- An update of the NVM registers, the latches, program memory and the model's counters. -/
theorem Keeps.of_nvm {s t : State}
    (h : t = { s with
      nvmadr := t.nvmadr, nvmdat := t.nvmdat, nvmcon := t.nvmcon, latch := t.latch, loaded := t.loaded,
      unlock := t.unlock, pm := t.pm, gieSaved := t.gieSaved, draws := t.draws, result := t.result })
    (hw : Memory.wf s = true → Memory.wf t = true) (hc : NvmconSound s → NvmconSound t) : Keeps s t :=
  ⟨by rw [h], by rw [h], by rw [h], by rw [h], by rw [h], by rw [h], by rw [h], by rw [h], by rw [h], by rw [h],
   by rw [h], by rw [h], by rw [h], by rw [h], by rw [h], hw, hc⟩

/-- The canonical form does not depend on the registers. -/
theorem wf_of_storage {s t : State} (hd : t.dev = s.dev) (hb : t.buf = s.buf) (hp : t.pm = s.pm) (hc : t.cfg = s.cfg)
    (hl : t.latch = s.latch) (hf : t.loaded = s.loaded) (h : Memory.wf s = true) : Memory.wf t = true := by
  unfold Memory.wf at *; rw [hd, hb, hp, hc, hl, hf]; exact h

theorem keeps_updateFields (v : Byte) (s : State) : Keeps s (updateFields v s) :=
  .of_nvm rfl (wf_of_storage rfl rfl rfl rfl rfl rfl) (fun _ => nvmconHeld_nvmconHeld v)

theorem keeps_readPm (s : State) : Keeps s (readPm s) := by
  unfold readPm; split <;> exact .of_nvm rfl (wf_of_storage rfl rfl rfl rfl rfl rfl) id

theorem keeps_readCfg (s : State) : Keeps s (readCfg s) := by
  unfold readCfg; split <;> exact .of_nvm rfl (wf_of_storage rfl rfl rfl rfl rfl rfl) id

theorem keeps_loadLatch (a : Nat) (v : Word) (s : State) : Keeps s (loadLatch (latchIndex s.dev a) v s) :=
  .of_nvm rfl (fun h => wf_loadLatch h (Nat.mod_lt _ s.dev.rowWords_pos) v) id

theorem keeps_commitRow (a : Nat) (s : State) (h : a < s.dev.flashWords) : Keeps s (commitRow (rowBase s.dev a) s) :=
  .of_nvm rfl (fun w => wf_commitRow w h) id

theorem keeps_setPmRow (a : Nat) (f : Nat → Option Word) (s : State) (h : a < s.dev.flashWords) :
    Keeps s (setPmRow (rowBase s.dev a) f s) :=
  .of_nvm rfl (fun w => wf_setPmRow w h f) id

/-- Whatever a write of `NVMCON` starts. -/
theorem keeps_regWriteCon {v : Byte} {s t : State} (h : regWriteCon v s = .next t) : Keeps s t := by
  have k := keeps_updateFields v s
  rcases regWriteCon_next h with rfl | rfl | rfl | ⟨-, -, rfl | ⟨ha, rfl | rfl⟩⟩
  · exact k
  · exact k.trans (keeps_readCfg _)
  · exact k.trans (keeps_readPm _)
  · exact k.trans (keeps_loadLatch s.nvmadr.toNat _ _)
  · exact k.trans ((keeps_loadLatch s.nvmadr.toNat _ _).trans (keeps_commitRow _ _ ha))
  · exact k.trans (keeps_setPmRow _ _ _ ha)

/-- An update of NVM registers, with a legal `NVMCON`. -/
theorem keeps_regs (s : State) (a d : Word) (c : Byte) (u : Unlock) (g : Bool) (n : Nat) (r : List Word)
    (hc : nvmconHeld c = c) :
    Keeps s { s with nvmadr := a, nvmdat := d, nvmcon := c, unlock := u, gieSaved := g, draws := n, result := r } :=
  .of_nvm rfl (wf_of_storage rfl rfl rfl rfl rfl rfl) (fun _ => hc)

theorem keeps_latch {a d : Word} {s t : State} (h : writeWordLatch a d s = .next t) : Keeps s t := by
  rw [writeWordLatch_eq] at h; cases h
  exact (keeps_loadLatch a.toNat d s).trans (keeps_regs _ a d 0x24 .locked s.gie _ _ (by decide))

theorem keeps_commit {a d : Word} {s t : State} (h : writeWordCommit a d s = .next t) : Keeps s t := by
  by_cases ha : a.toNat < s.dev.flashWords
  · rw [writeWordCommit_eq ha] at h; cases h
    exact ((keeps_loadLatch a.toNat d s).trans (keeps_commitRow a.toNat _ ha)).trans
      (keeps_regs _ a d 0x04 .locked s.gie _ _ (by decide))
  · rw [writeWordCommit_refused (by omega)] at h; cases h

theorem keeps_erase {a : Word} {s t : State} (h : eraseRow a s = .next t) : Keeps s t := by
  by_cases ha : a.toNat < s.dev.flashWords
  · rw [eraseRow_eq ha] at h; cases h
    exact (keeps_setPmRow a.toNat _ s ha).trans (keeps_regs _ a _ 0x10 .locked s.gie _ _ (by decide))
  · rw [eraseRow_refused (by omega)] at h; cases h

theorem keeps_loop (ws : List Word) : ∀ (a : Word) (s t : State), rowWriteLoop a ws s = .next t → Keeps s t := by
  induction ws with
  | nil => intro a s t h; cases h; exact .refl _
  | cons w ws ih =>
    intro a s t h
    cases ws with
    | nil => exact keeps_commit h
    | cons w' ws =>
      simp only [rowWriteLoop] at h
      obtain ⟨u, hu, h⟩ := andThen_eq_next.1 h
      exact (keeps_latch hu).trans (ih _ _ _ h)

theorem keeps_rowWrite {a : Word} {ws : List Word} {s t : State} (h : rowWrite a ws s = .next t) : Keeps s t := by
  unfold rowWrite at h
  split at h
  · cases h; exact .refl _
  · split at h
    · cases h
    · split at h
      · cases h
      · exact keeps_loop _ _ _ _ h

theorem keeps_readAcc {a : Word} {s t : State} (h : readWordAccesses a s = .next t) : Keeps s t := by
  rw [readWordAccesses_eq] at h; cases h
  split
  · exact keeps_regs s a _ 0 .locked s.gieSaved s.draws s.result (by decide)
  · exact keeps_regs s a _ 0 .locked s.gieSaved (s.draws+1) s.result (by decide)

theorem keeps_result (s : State) (r : List Word) : Keeps s { s with result := r } :=
  .of_nvm rfl (wf_of_storage rfl rfl rfl rfl rfl rfl) id

theorem keeps_unlock (s : State) (u : Unlock) : Keeps s { s with unlock := u } :=
  .of_nvm rfl (wf_of_storage rfl rfl rfl rfl rfl rfl) id

theorem keeps_adr (s : State) (a : Word) : Keeps s (regWriteAdr a s) :=
  .of_nvm rfl (wf_of_storage rfl rfl rfl rfl rfl rfl) id

theorem keeps_dat (s : State) (a : Word) : Keeps s (regWriteDat a s) :=
  .of_nvm rfl (wf_of_storage rfl rfl rfl rfl rfl rfl) id

theorem keeps_block (n : Nat) : ∀ (a : Word) (o : List Word) (s t : State),
    readBlockLoop n a o s = .next t → Keeps s t := by
  induction n with
  | zero => intro a o s t h; cases h; exact keeps_result _ _
  | succ n ih =>
    intro a o s t h
    obtain ⟨u, hu, h⟩ := andThen_eq_next.1 h
    exact (keeps_readAcc hu).trans (ih _ _ _ _ h)

theorem keeps_utc {s t : State} (h : unlockThenCommit s = .next t) : Keeps s t := by
  unfold unlockThenCommit at h
  split at h
  · cases h
  · obtain ⟨u, hu, h⟩ := andThen_eq_next.1 h
    simp only [idleFor_eq, Host.Outcome.next.injEq] at h hu; cases h
    exact (keeps_unlock s _).trans (keeps_regWriteCon (s := regWriteKey s.dev.keys.key2 (regWriteKey s.dev.keys.key1 s)) hu)

theorem readPm_gieSaved (s : State) : (readPm s).gieSaved = s.gieSaved := by unfold readPm; split <;> rfl

theorem readCfg_gieSaved (s : State) : (readCfg s).gieSaved = s.gieSaved := by unfold readCfg; split <;> rfl

/-- No write of `NVMCON` touches the saved copy of `GIE`. -/
theorem regWriteCon_gieSaved {v : Byte} {s t : State} (h : regWriteCon v s = .next t) : t.gieSaved = s.gieSaved := by
  rcases regWriteCon_next h with rfl | rfl | rfl | ⟨-, -, rfl | ⟨-, rfl | rfl⟩⟩
  · rfl
  · exact readCfg_gieSaved _
  · exact readPm_gieSaved _
  all_goals rfl

/-- A handshake that completes ran with interrupts off from its start to its end, and kept the saved copy of `GIE` (R143, R321). -/
theorem unlockThenCommit_interrupts {s t : State} (h : unlockThenCommit s = .next t) :
    s.gie = false ∧ t.gie = false ∧ t.gieSaved = s.gieSaved := by
  have hg : s.gie = false := by
    cases hs : s.gie with
    | false => rfl
    | true => simp [unlockThenCommit, hs] at h
  refine ⟨hg, (keeps_utc h).gie.trans hg, ?_⟩
  rw [unlockThenCommit, hg] at h
  obtain ⟨w, hw, h⟩ := andThen_eq_next.1 h
  simp only [idleFor_eq, Host.Outcome.next.injEq] at h hw
  rw [← h, regWriteCon_gieSaved hw, regWriteKey_gieSaved, regWriteKey_gieSaved]

/-- The rows that are accesses or driver calls. -/
def isNvm : Instr → Bool
  | .incomplete | .sync | .info | .boot | .reboot | .write _ _ _ | .erase _ | .unknown _
  | .addrWrite | .addrRead | .dataRx _ | .dataReq | .dataRxWrongPhase _ | .dataReqWrongPhase => false
  | _ => true

/-- No access and no driver call changes anything else. -/
theorem keeps_nvm {i : Instr} (hi : isNvm i = true) {s t : State} (h : exec i s = .next t) : Keeps s t := by
  cases i
  all_goals try (exact absurd hi Bool.false_ne_true)
  case nvmReadPm r l f r2 e => exact keeps_regWriteCon (v := byteOfBits r false l f r2 e false true) h
  case nvmReadCfg r l f r2 e => exact keeps_regWriteCon (v := byteOfBits r true l f r2 e false true) h
  case nvmLatch r r2 => exact keeps_regWriteCon (v := byteOfBits r false true false r2 true true false) h
  case nvmCommit r r2 => exact keeps_regWriteCon (v := byteOfBits r false false false r2 true true false) h
  case nvmErase r l r2 => exact keeps_regWriteCon (v := byteOfBits r false l true r2 true true false) h
  case nvmNop r sp l f r2 e => exact keeps_regWriteCon (v := byteOfBits r sp l f r2 e false false) h
  case nvmIgnored r sp l f r2 e => exact keeps_regWriteCon (v := byteOfBits r sp l f r2 e true false) h
  case nvmUndefined r sp l f r2 e => exact keeps_regWriteCon (v := byteOfBits r sp l f r2 e true true) h
  case nvmkeyKey1 => injection h with h; rw [← h]; exact keeps_unlock s _
  case nvmkeyKey2 => injection h with h; rw [← h]; exact keeps_unlock s _
  case readWord a =>
    have h : readWord a s = .next t := h
    unfold readWord at h
    obtain ⟨u, hu, h⟩ := andThen_eq_next.1 h
    cases h; exact (keeps_readAcc hu).trans (keeps_result _ _)
  case readConfigWord a =>
    have h : readConfigWord a s = .next t := h
    unfold readConfigWord at h
    obtain ⟨u, hu, h⟩ := andThen_eq_next.1 h
    cases h; exact ((keeps_adr _ _).trans (keeps_regWriteCon hu)).trans ((keeps_unlock _ _).trans (keeps_result _ _))
  case readBlock a n => exact keeps_block _ _ _ _ _ h
  case writeWordLatch a d => exact keeps_latch h
  case writeWordCommit a d => exact keeps_commit h
  case eraseRow a => exact keeps_erase h
  case rowWrite a ws => exact keeps_rowWrite h
  case unlockAndCommit => exact keeps_utc h

/-- The commands that reply: every one but REBOOT and UNKNOWN (R215, R246). -/
def replies : Instr → Bool
  | .incomplete | .sync | .info | .boot | .write _ _ _ | .erase _ => true
  | _ => false

/-- A command that replies leaves a reply of at least one byte, to be read from its start, in the block and bus it found. -/
theorem replies_next {i : Instr} (hi : replies i = true) {s u : State} (h : exec i s = .next u) :
    u.run = s.run ∧ u.goBoot = s.goBoot ∧ u.dev = s.dev ∧ u.rdPtr = 0 ∧ 0 < u.len.toNat := by
  cases i
  all_goals try (exact absurd hi Bool.false_ne_true)
  case incomplete | sync | boot => cases h; exact ⟨rfl, rfl, rfl, rfl, Nat.zero_lt_two⟩
  case info =>
    cases h
    have h1 := s.dev.infoSize_le
    have h2 := s.dev.infoSize_ge
    refine ⟨rfl, rfl, rfl, rfl, ?_⟩
    show 0 < (BitVec.ofNat 8 s.dev.infoSize).toNat
    rw [BitVec.toNat_ofNat]; simp only [capBytes, capWords] at h1; omega
  case write a n d =>
    have h : writeCommand a n d s = .next u := h
    unfold writeCommand at h
    split at h
    · cases h
    · obtain ⟨v, hv, h⟩ := andThen_eq_next.1 h
      cases h
      have k := keeps_rowWrite hv
      exact ⟨k.run, k.goBoot, k.dev, rfl, by simp [reply]⟩
  case erase a =>
    have h : eraseCommand a s = .next u := h
    unfold eraseCommand at h
    split at h
    · cases h
    · obtain ⟨v, hv, h⟩ := andThen_eq_next.1 h
      cases h
      have k := keeps_erase hv
      exact ⟨k.run, k.goBoot, k.dev, rfl, by simp [reply]⟩

end Sys2Proof.Machine
end

