-- ==== Sys2Proof/Laws/PerInstr.lean ====
section
/-! SUPPORT. Facts about every instruction as syntax, one lemma for each constructor. Family `EncodedLength`: how many bytes
the encoding has (30_encoding.md R101 to R103 for the commands). -/

namespace Sys2Proof

theorem wordBytes_length (v : Word) : (wordBytes v).length = 2 := rfl

theorem wordsBytes_length (ws : List Word) : (wordsBytes ws).length = 2 * ws.length := by
  induction ws with
  | nil => rfl
  | cons v ws ih => simp only [wordsBytes, List.flatMap_cons, List.length_append, List.length_cons] at *; rw [ih, wordBytes_length]; omega

/-- How many bytes an instruction's encoding has: formats O, A and W (R101 to R103), an event with its byte, one byte written
to a register, and a call with its operand words. -/
def Instr.encodedLength : Instr → Nat
  | .incomplete => 0
  | .sync | .info | .boot | .reboot | .unknown _ => 2
  | .erase _ => 4
  | .write _ _ data => 6 + 2 * data.length
  | .dataRx _ | .dataRxWrongPhase _ => 2
  | .addrWrite | .addrRead | .dataReq | .dataReqWrongPhase => 1
  | .nvmReadPm _ _ _ _ _ | .nvmReadCfg _ _ _ _ _ | .nvmLatch _ _ | .nvmCommit _ _ | .nvmErase _ _ _
  | .nvmNop _ _ _ _ _ _ | .nvmIgnored _ _ _ _ _ _ | .nvmUndefined _ _ _ _ _ _ | .nvmkeyKey1 | .nvmkeyKey2 => 1
  | .unlockAndCommit => 2
  | .readWord _ | .readConfigWord _ | .eraseRow _ => 4
  | .readBlock _ _ | .writeWordLatch _ _ | .writeWordCommit _ _ => 6
  | .rowWrite _ words => 6 + 2 * words.length

/-- The encoding has the length its format says, on every device. -/
def Laws.EncodedLength.Statement (i : Instr) : Prop := ∀ k : Keys, (encode k i).length = i.encodedLength

theorem Laws.EncodedLength.incomplete : Laws.EncodedLength.Statement (.incomplete) := fun _ => rfl

theorem Laws.EncodedLength.sync : Laws.EncodedLength.Statement (.sync) := fun _ => rfl

theorem Laws.EncodedLength.info : Laws.EncodedLength.Statement (.info) := fun _ => rfl

theorem Laws.EncodedLength.boot : Laws.EncodedLength.Statement (.boot) := fun _ => rfl

theorem Laws.EncodedLength.reboot : Laws.EncodedLength.Statement (.reboot) := fun _ => rfl

theorem Laws.EncodedLength.write (address : Word) (count : Word) (data : List Word) : Laws.EncodedLength.Statement (.write address count data) := by
  intro k
  simp only [encode, Instr.encodedLength, List.length_append, wordBytes_length, wordsBytes_length]

theorem Laws.EncodedLength.erase (address : Word) : Laws.EncodedLength.Statement (.erase address) := fun _ => rfl

theorem Laws.EncodedLength.unknown (opcode : Word) : Laws.EncodedLength.Statement (.unknown opcode) := fun _ => rfl

theorem Laws.EncodedLength.addrWrite : Laws.EncodedLength.Statement (.addrWrite) := fun _ => rfl

theorem Laws.EncodedLength.addrRead : Laws.EncodedLength.Statement (.addrRead) := fun _ => rfl

theorem Laws.EncodedLength.dataRx (b : Byte) : Laws.EncodedLength.Statement (.dataRx b) := fun _ => rfl

theorem Laws.EncodedLength.dataReq : Laws.EncodedLength.Statement (.dataReq) := fun _ => rfl

theorem Laws.EncodedLength.dataRxWrongPhase (b : Byte) : Laws.EncodedLength.Statement (.dataRxWrongPhase b) := fun _ => rfl

theorem Laws.EncodedLength.dataReqWrongPhase : Laws.EncodedLength.Statement (.dataReqWrongPhase) := fun _ => rfl

theorem Laws.EncodedLength.nvmReadPm (r : Bool) (l : Bool) (f : Bool) (r2 : Bool) (e : Bool) : Laws.EncodedLength.Statement (.nvmReadPm r l f r2 e) := fun _ => rfl

theorem Laws.EncodedLength.nvmReadCfg (r : Bool) (l : Bool) (f : Bool) (r2 : Bool) (e : Bool) : Laws.EncodedLength.Statement (.nvmReadCfg r l f r2 e) := fun _ => rfl

theorem Laws.EncodedLength.nvmLatch (r : Bool) (r2 : Bool) : Laws.EncodedLength.Statement (.nvmLatch r r2) := fun _ => rfl

theorem Laws.EncodedLength.nvmCommit (r : Bool) (r2 : Bool) : Laws.EncodedLength.Statement (.nvmCommit r r2) := fun _ => rfl

theorem Laws.EncodedLength.nvmErase (r : Bool) (l : Bool) (r2 : Bool) : Laws.EncodedLength.Statement (.nvmErase r l r2) := fun _ => rfl

theorem Laws.EncodedLength.nvmNop (r : Bool) (s : Bool) (l : Bool) (f : Bool) (r2 : Bool) (e : Bool) : Laws.EncodedLength.Statement (.nvmNop r s l f r2 e) := fun _ => rfl

theorem Laws.EncodedLength.nvmIgnored (r : Bool) (s : Bool) (l : Bool) (f : Bool) (r2 : Bool) (e : Bool) : Laws.EncodedLength.Statement (.nvmIgnored r s l f r2 e) := fun _ => rfl

theorem Laws.EncodedLength.nvmUndefined (r : Bool) (s : Bool) (l : Bool) (f : Bool) (r2 : Bool) (e : Bool) : Laws.EncodedLength.Statement (.nvmUndefined r s l f r2 e) := fun _ => rfl

theorem Laws.EncodedLength.nvmkeyKey1 : Laws.EncodedLength.Statement (.nvmkeyKey1) := fun _ => rfl

theorem Laws.EncodedLength.nvmkeyKey2 : Laws.EncodedLength.Statement (.nvmkeyKey2) := fun _ => rfl

theorem Laws.EncodedLength.readWord (address : Word) : Laws.EncodedLength.Statement (.readWord address) := fun _ => rfl

theorem Laws.EncodedLength.readConfigWord (address : Word) : Laws.EncodedLength.Statement (.readConfigWord address) := fun _ => rfl

theorem Laws.EncodedLength.readBlock (address : Word) (count : Word) : Laws.EncodedLength.Statement (.readBlock address count) := fun _ => rfl

theorem Laws.EncodedLength.writeWordLatch (address : Word) (data : Word) : Laws.EncodedLength.Statement (.writeWordLatch address data) := fun _ => rfl

theorem Laws.EncodedLength.writeWordCommit (address : Word) (data : Word) : Laws.EncodedLength.Statement (.writeWordCommit address data) := fun _ => rfl

theorem Laws.EncodedLength.eraseRow (address : Word) : Laws.EncodedLength.Statement (.eraseRow address) := fun _ => rfl

theorem Laws.EncodedLength.rowWrite (address : Word) (words : List Word) : Laws.EncodedLength.Statement (.rowWrite address words) := by
  intro k
  simp only [encode, Instr.encodedLength, List.length_append, wordBytes_length, wordsBytes_length,
    List.length_cons, List.length_nil]

theorem Laws.EncodedLength.unlockAndCommit : Laws.EncodedLength.Statement (.unlockAndCommit) := fun _ => rfl

end Sys2Proof
end

