-- ==== Sys2Proof/Laws/Step.lean ====
section
/-! SUPPORT. Which job a step does, and what it then answers. -/

namespace Sys2Proof.Machine

/-- A pending event is handled (R240). -/
theorem nextJob_handle {s : State} (h : HandlerRuns s) : nextJob s = .handle (fetchEvent s) := by
  obtain ⟨hr, hp, hi⟩ := h
  unfold nextJob
  split
  · next st rest heq => simp [heq] at hi
  · simp [hr, hp]

theorem step_handle {s : State} (h : HandlerRuns s) :
    step s = andThen (exec (fetchEvent s) (clearOutputs s)) (finishHandler (fetchEvent s)) := by
  simp [step, nextJob_handle h]

/-- Where the event's rule did not return, nothing follows (R246). -/
theorem finishHandler_gone (i : Instr) {u : State} (h : u.run = .left ∨ u.goBoot = true) : finishHandler i u = .next u := by
  have : returned u = false := by rcases h with h | h <;> simp [returned, h]
  simp [finishHandler, this]

/-- Where it returned and no byte is combined with the event, the flag and the hold are cleared (R240). -/
theorem finishHandler_released {i : Instr} {u : State} (hr : u.run = .active) (hb : u.goBoot = false)
    (hc : i ≠ .addrRead ∨ u.dev.combinedRead = false) :
    finishHandler i u = .next { u with evtPending := false, clkHold := false } := by
  have : returned u = true := by simp [returned, hr, hb]
  rcases hc with hc | hc <;> simp [finishHandler, this, hc, releaseClock]

/-- Where the read addressing carries the first byte's request, the reply's first byte is supplied before the release (R240). -/
theorem finishHandler_combined {u : State} (hr : u.run = .active) (hb : u.goBoot = false) (hc : u.dev.combinedRead = true)
    (hl : 0 < u.len.toNat) (h0 : u.rdPtr = 0) :
    finishHandler .addrRead u = .next { u with
      txData := some (bufByte u 0), rdPtr := 1, len := u.len - 1, evtPending := false, clkHold := false } := by
  have hret : returned u = true := by simp [returned, hr, hb]
  have hreq : dataReqEvent u = .next { u with txData := some (bufByte u 0), rdPtr := 1, len := u.len - 1 } := by
    simp [dataReqEvent, hl, h0, capBytes, capWords]
  simp [finishHandler, hret, hc, firstReplyByte, hreq, releaseClock]

/-- A hardware reset comes before everything. -/
theorem step_reset {s : State} {struck : Option Word} (h : s.inputs.head? = some (.reset struck)) :
    step s = .next (hardReset struck s) := by
  obtain ⟨rest, hs⟩ : ∃ rest, s.inputs = .reset struck :: rest := by
    cases hi : s.inputs with
    | nil => simp [hi] at h
    | cons x rest => simp [hi] at h; exact ⟨rest, by rw [h]⟩
  simp [step, nextJob, hs]

/-- `Dispatch()` runs the command in the buffer: each of its branches is the meaning of the instruction the decoder gives. -/
theorem dispatch_eq_exec (s : State) : dispatch s = exec (fetchCommand s) s := by
  unfold dispatch fetchCommand selectedCommand decodeCommand
  generalize commandKind s.len.toNat (frameWord (bufBytes s) 0) = k
  cases k <;> rfl

/-- A read addressing runs the command in the buffer, in `ReplyingPhase` (R242). -/
theorem addrRead_eq (s : State) : exec .addrRead s = exec (fetchCommand s) { s with phase := .replying } := by
  show dispatch _ = _
  rw [dispatch_eq_exec]; rfl

/-- `Reply(v)` replies with `v` and changes nothing else (R202). -/
theorem reply_repliesWith (v : Word) (s : State) : RepliesWith v s (reply v s) ∧
    reply v s = { s with buf := (reply v s).buf, rdPtr := 0, len := 2 } := by
  refine ⟨⟨?_, ?_, rfl, rfl⟩, rfl⟩
  · have := bufWord_setBufWords 0 [v] s 0
    exact this
  · intro i hi
    have := bufByte_setBufWords 0 [v] s i
    rw [if_neg (by simp; omega)] at this
    exact this

/-- Everything a step can do, if it answers a next state. -/
theorem step_next {s t : State} (h : step s = .next t) :
    (∃ struck, nextJob s = .reset struck ∧ t = hardReset struck s) ∨
    (∃ i u, nextJob s = .handle i ∧ exec i (clearOutputs s) = .next u ∧ finishHandler i u = .next t) ∨
    (∃ i, nextJob s = .run i ∧ exec i (takeInput (clearOutputs s)) = .next t) ∨
    (∃ a, nextJob s = .plain a ∧ access a (takeInput (clearOutputs s)) = .next t) ∨
    (∃ a r d, nextJob s = .present a r d ∧ t = presentEvent a r d (takeInput (clearOutputs s))) ∨
    (∃ b, nextJob s = .setGie b ∧ t = { takeInput (clearOutputs s) with gie := b }) ∨
    (nextJob s = .idle ∧ t = clearOutputs s) := by
  unfold step at h
  cases hj : nextJob s with
  | handle i =>
    simp only [hj] at h
    obtain ⟨u, hu, hf⟩ := andThen_eq_next.1 h
    exact .inr (.inl ⟨i, u, rfl, hu, hf⟩)
  | run i => exact .inr (.inr (.inl ⟨i, rfl, by simpa only [hj] using h⟩))
  | plain a => exact .inr (.inr (.inr (.inl ⟨a, rfl, by simpa only [hj] using h⟩)))
  | present a r d =>
    simp only [hj] at h; cases h
    exact .inr (.inr (.inr (.inr (.inl ⟨a, r, d, rfl, rfl⟩))))
  | setGie b =>
    simp only [hj] at h; cases h
    exact .inr (.inr (.inr (.inr (.inr (.inl ⟨b, rfl, rfl⟩)))))
  | reset struck =>
    simp only [hj] at h; cases h
    exact .inl ⟨struck, rfl, rfl⟩
  | idle =>
    simp only [hj] at h; cases h
    exact .inr (.inr (.inr (.inr (.inr (.inr ⟨rfl, rfl⟩)))))
  | notACall => simp [hj] at h
  | ended => simp [hj] at h

end Sys2Proof.Machine
end

