-- ==== Sys2Proof/Tests/Slice0.lean ====
section
/-!
SUPPORT. The model's own tests: ill-formed terms, one written-out word for every row, one-step checks from
95_test_vectors.md (the vector a test takes its expected result from is named), and for every obligation with hypotheses a
state and operands that meet them.
-/

namespace Sys2Proof.Tests

open Sys2Proof Machine

/-! ### The illustrative device `EX` (95_test_vectors.md section 0) -/

/-- `EX`. -/
def ex : Config where
  widthIdx := 13
  rowIdx := 4
  flashIdx := 255
  cfgBase := 0x8000
  cfgWords := 16
  bootStart := 0x0000
  appEntry := 0x0200
  bootRows := List.range 16
  tagDevType := 1
  tagFlashSize := 2
  tagEraseRow := 3
  tagWriteRow := 4
  tagVersion := 5
  tagBootStart := 6
  tagText := 7
  deviceType := 0x0016
  flashSize := 0x2000
  eraseRowSize := 0x0020
  writeRowSize := 0x0020
  blVersion := 0x0100
  infoText := [0x42, 0x4F, 0x4F, 0x54]
  keys := defaultKeys
  settleBefore := 2
  settleAfter := 2
  gieReset := true
  pmInit := []
  cfgInit := [(0x8007, 0x3FE4)]
  progIsAnd := true
  combinedRead := false

/-- The start of the vectors: the reset state of `EX`. -/
def s0 : State := State.resetOf ex

/-- The next state, if there is one. -/
def out (r : Result) : Option State :=
  match r with
  | .next t => some t
  | .fault _ => none
  | .refused _ => none

/-- The refusal, if there is one. -/
def why (r : Result) : Option Refusal :=
  match r with
  | .refused x => some x
  | .next _ => none
  | .fault _ => none

/-- The instruction decoded, if there is one. -/
def got (r : Except DecodeError Instr) : Option Instr :=
  match r with
  | .ok i => some i
  | .error _ => none

theorem next_of_out {r : Result} (h : (out r).isSome = true) : ∃ t, r = .next t := by
  cases r <;> simp_all [out]

/-- The command buffer holds `bs` from `buf[0]` on, all of it received. -/
def holding (bs : List Byte) (s : State) : State :=
  { s with buf := frameCells 0 bs, len := BitVec.ofNat 8 bs.length, wrPtr := BitVec.ofNat 8 bs.length, phase := .receiving }

/-- An event is pending. -/
def pending (addr read : Bool) (data : Byte) (s : State) : State := presentEvent addr read data s

/-- The outside world does `x` next. -/
def taking (x : Input) (s : State) : State := { s with inputs := [x] }

/-! ### WellFormed refuses -/

theorem test_illformed_write_short_payload : (Instr.write 0x0E00 2 [1]).wellFormed = false := by decide
theorem test_illformed_write_payload_past_buffer :
    (Instr.write 0x0E00 62 (List.replicate 62 0)).wellFormed = false := by decide
theorem test_illformed_unknown_defined_opcode : (Instr.unknown 0x0015).wellFormed = false := by decide
theorem test_illformed_ignored_is_a_latch : (Instr.nvmIgnored false false true false false true).wellFormed = false := by decide
theorem test_illformed_rowWrite_too_long (ws : List Word) (h : ws.length = 65536) :
    (Instr.rowWrite 0 ws).wellFormed = false := by simp [Instr.wellFormed, h]

/-! ### One word of every row, written out from 30_encoding.md -/

theorem test_decode_incomplete : got (decode defaultKeys (.buffer 1) [0x15, 0x00]) = some .incomplete := by decide
theorem test_decode_sync : got (decode defaultKeys (.buffer 2) [0x01, 0x00]) = some .sync := by decide
theorem test_decode_info : got (decode defaultKeys (.buffer 2) [0x02, 0x00]) = some .info := by decide
theorem test_decode_boot : got (decode defaultKeys (.buffer 2) [0x03, 0x00]) = some .boot := by decide
theorem test_decode_reboot : got (decode defaultKeys (.buffer 2) [0x04, 0x00]) = some .reboot := by decide
/-- V22's frame. -/
theorem test_decode_write :
    got (decode defaultKeys (.buffer 10) [0x0B, 0x00, 0x00, 0x0E, 0x02, 0x00, 0x34, 0x12, 0xBC, 0x0A]) =
      some (.write 0x0E00 2 [0x1234, 0x0ABC]) := by decide
/-- V23's frame. -/
theorem test_decode_erase : got (decode defaultKeys (.buffer 4) [0x15, 0x00, 0x10, 0x0E]) = some (.erase 0x0E10) := by decide
/-- V26's frame: all 16 bits are compared. -/
theorem test_decode_unknown : got (decode defaultKeys (.buffer 2) [0x01, 0x01]) = some (.unknown 0x0101) := by decide
theorem test_decode_addrWrite : got (decode defaultKeys (.busEvent .replying) [0b10]) = some .addrWrite := by decide
theorem test_decode_addrRead : got (decode defaultKeys (.busEvent .address) [0b11]) = some .addrRead := by decide
theorem test_decode_dataRx : got (decode defaultKeys (.busEvent .receiving) [0b00, 0x77]) = some (.dataRx 0x77) := by decide
theorem test_decode_dataReq : got (decode defaultKeys (.busEvent .replying) [0b01]) = some .dataReq := by decide
theorem test_decode_dataRxWrongPhase :
    got (decode defaultKeys (.busEvent .replying) [0b00, 0x77]) = some (.dataRxWrongPhase 0x77) := by decide
theorem test_decode_dataReqWrongPhase : got (decode defaultKeys (.busEvent .receiving) [0b01]) = some .dataReqWrongPhase := by decide
/-- Each field of `r0lfre01` set alone. -/
theorem test_decode_nvmReadPm :
    got (decode defaultKeys .nvmcon [0b10000001]) = some (.nvmReadPm true false false false false) ∧
    got (decode defaultKeys .nvmcon [0b00100001]) = some (.nvmReadPm false true false false false) ∧
    got (decode defaultKeys .nvmcon [0b00010001]) = some (.nvmReadPm false false true false false) ∧
    got (decode defaultKeys .nvmcon [0b00001001]) = some (.nvmReadPm false false false true false) ∧
    got (decode defaultKeys .nvmcon [0b00000101]) = some (.nvmReadPm false false false false true) := by decide
theorem test_decode_nvmReadCfg :
    got (decode defaultKeys .nvmcon [0b01100001]) = some (.nvmReadCfg false true false false false) := by decide
theorem test_decode_nvmLatch : got (decode defaultKeys .nvmcon [0b00100110]) = some (.nvmLatch false false) := by decide
theorem test_decode_nvmCommit : got (decode defaultKeys .nvmcon [0b00001110]) = some (.nvmCommit false true) := by decide
theorem test_decode_nvmErase :
    got (decode defaultKeys .nvmcon [0b00010110]) = some (.nvmErase false false false) ∧
    got (decode defaultKeys .nvmcon [0b00110110]) = some (.nvmErase false true false) := by decide
/-- Each field of `rslfre00` set alone. -/
theorem test_decode_nvmNop :
    got (decode defaultKeys .nvmcon [0b10000000]) = some (.nvmNop true false false false false false) ∧
    got (decode defaultKeys .nvmcon [0b01000000]) = some (.nvmNop false true false false false false) ∧
    got (decode defaultKeys .nvmcon [0b00100000]) = some (.nvmNop false false true false false false) ∧
    got (decode defaultKeys .nvmcon [0b00010000]) = some (.nvmNop false false false true false false) ∧
    got (decode defaultKeys .nvmcon [0b00001000]) = some (.nvmNop false false false false true false) ∧
    got (decode defaultKeys .nvmcon [0b00000100]) = some (.nvmNop false false false false false true) := by decide
theorem test_decode_nvmIgnored :
    got (decode defaultKeys .nvmcon [0b00010010]) = some (.nvmIgnored false false false true false false) ∧
    got (decode defaultKeys .nvmcon [0b01000110]) = some (.nvmIgnored false true false false false true) := by decide
theorem test_decode_nvmUndefined :
    got (decode defaultKeys .nvmcon [0b00000111]) = some (.nvmUndefined false false false false false true) := by decide
theorem test_decode_nvmkeyKey1 : got (decode defaultKeys .nvmkey [0b01010101]) = some .nvmkeyKey1 := by decide
theorem test_decode_nvmkeyKey2 : got (decode defaultKeys .nvmkey [0b10101010]) = some .nvmkeyKey2 := by decide
theorem test_decode_not_a_key : got (decode defaultKeys .nvmkey [0x54]) = none := by decide
theorem test_decode_readWord : got (decode defaultKeys .call [0b00000001, 0, 0x00, 0x0E]) = some (.readWord 0x0E00) := by decide
theorem test_decode_readConfigWord :
    got (decode defaultKeys .call [0b01000001, 1, 0x07, 0x80]) = some (.readConfigWord 0x8007) := by decide
theorem test_decode_readBlock :
    got (decode defaultKeys .call [0b00000001, 2, 0xFF, 0xFF, 0x02, 0x00]) = some (.readBlock 0xFFFF 2) := by decide
theorem test_decode_writeWordLatch :
    got (decode defaultKeys .call [0b00100110, 3, 0x05, 0x0E, 0x34, 0x12]) = some (.writeWordLatch 0x0E05 0x1234) := by decide
theorem test_decode_writeWordCommit :
    got (decode defaultKeys .call [0b00000110, 4, 0x06, 0x0E, 0xBC, 0x0A]) = some (.writeWordCommit 0x0E06 0x0ABC) := by decide
theorem test_decode_eraseRow : got (decode defaultKeys .call [0b00010110, 5, 0x1F, 0x0E]) = some (.eraseRow 0x0E1F) := by decide
theorem test_decode_rowWrite :
    got (decode defaultKeys .call [0b00000110, 6, 0x00, 0x0E, 0x02, 0x00, 0x11, 0x01, 0x22, 0x02]) =
      some (.rowWrite 0x0E00 [0x0111, 0x0222]) := by decide
theorem test_decode_unlockAndCommit : got (decode defaultKeys .call [0b00010110, 7]) = some .unlockAndCommit := by decide

/-- The two ways the host places a word: `0x0015` as a command with its operand, `0x26` as a write of `NVMCON`. -/
theorem test_tableWord :
    decodeTableWord 32 0x0E100015 = some (.erase 0x0E10) ∧ decodeTableWord 8 0x26 = some (.nvmLatch false false) ∧
    decodeTableWord 8 0xAA = some .nvmkeyKey2 := by decide

/-! ### One step: the commands (95_test_vectors.md 2.3), each at a pending read addressing -/

/-- The step that handles a read addressing with the frame `bs` received. -/
def onAddrRead (bs : List Byte) (s : State) : Result := step (pending true true 0 (holding bs s))

/-- `f` of the next state. -/
def seen {α : Type} (r : Result) (f : State → α) : Option α := (out r).map f

/-- V42: fewer than 2 bytes held, so no erase; the error-ack overwrites the 0x15. -/
theorem test_incomplete :
    seen (onAddrRead [0x15] s0) (fun t => (bufByte t 0, bufByte t 1, t.len, t.rdPtr, t.nvmcon)) = some (0, 0, 2, 0, 0) := by
  decide

/-- V33: surplus bytes are left alone, the reply is 2 bytes. -/
theorem test_sync :
    seen (onAddrRead [0x01, 0x00, 0xAA, 0xBB, 0xCC] s0)
      (fun t => ((bufBytes t).take 5, t.len, t.rdPtr, t.wrPtr, t.phase, t.clkHold)) =
      some ([0x01, 0x00, 0xAA, 0xBB, 0xCC], 2, 0, 5, .replying, false) := by decide

/-- V30. -/
theorem test_info :
    seen (onAddrRead [0x02, 0x00] s0) (fun t => ((bufBytes t).take 32, t.len, t.rdPtr)) =
      some ([0x20, 0x00, 0x01, 0x00, 0x16, 0x00, 0x02, 0x00, 0x00, 0x20, 0x03, 0x00, 0x20, 0x00, 0x04, 0x00,
        0x20, 0x00, 0x05, 0x00, 0x00, 0x01, 0x06, 0x00, 0x00, 0x00, 0x07, 0x00, 0x42, 0x4F, 0x4F, 0x54], 32, 0) := by decide

/-- V31: a text of odd length is padded with 0x00. -/
theorem test_info_odd_text :
    seen (onAddrRead [0x02, 0x00] { s0 with dev := { ex with infoText := [0x49, 0x32, 0x43, 0x42, 0x4C] } })
      (fun t => (bufByte t 0, (bufBytes t).drop 28 |>.take 6, t.len)) =
      some (0x22, [0x49, 0x32, 0x43, 0x42, 0x4C, 0x00], 34) := by decide

/-- V21. -/
theorem test_boot :
    seen (onAddrRead [0x03, 0x00] s0) (fun t => (bufByte t 0, bufByte t 1, t.len, t.goBoot, t.run)) =
      some (3, 0, 2, false, .active) := by decide

/-- V24: the hold and the flag stay. -/
theorem test_reboot :
    seen (onAddrRead [0x04, 0x00] s0) (fun t => (t.goApp, t.pcOut, t.run, t.clkHold, t.evtPending)) =
      some (true, some 0x0200, .left, true, true) := by decide

/-- V22. -/
theorem test_write :
    seen (onAddrRead [0x0B, 0x00, 0x00, 0x0E, 0x02, 0x00, 0x34, 0x12, 0xBC, 0x0A] s0)
      (fun t => (t.pm, t.loaded)) = some ([(0x0E00, 0x1234), (0x0E01, 0x0ABC)], []) ∧
    seen (onAddrRead [0x0B, 0x00, 0x00, 0x0E, 0x02, 0x00, 0x34, 0x12, 0xBC, 0x0A] s0)
      (fun t => (t.nvmadr, t.nvmdat, t.nvmcon)) = some (0x0E01, 0x0ABC, 0x04) ∧
    seen (onAddrRead [0x0B, 0x00, 0x00, 0x0E, 0x02, 0x00, 0x34, 0x12, 0xBC, 0x0A] s0)
      (fun t => (bufByte t 0, t.len, t.gie)) = some (0x0B, 2, true) := by decide

/-- V34, V35: no meaning; V28: count 0 replies and touches nothing. -/
theorem test_write_refused :
    why (onAddrRead [0x0B, 0x00, 0x1F, 0x0E, 0x02, 0x00, 0x01, 0x00, 0x02, 0x00] s0) = some .rowCrossing ∧
    why (onAddrRead [0x0B, 0x00, 0x00, 0x0E, 0x3E, 0x00] s0) = some .payloadPastBuffer ∧
    seen (onAddrRead [0x0B, 0x00, 0x00, 0x0E, 0x00, 0x00] s0) (fun t => (bufByte t 0, t.len, t.nvmcon)) =
      some (0x0B, 2, 0) := by decide

/-- V23. -/
theorem test_erase :
    seen (onAddrRead [0x15, 0x00, 0x10, 0x0E] { s0 with pm := [(0x0DFF, 1), (0x0E00, 0), (0x0E1F, 2), (0x0E20, 3)] })
      (fun t => t.pm) = some [(0x0DFF, 1), (0x0E20, 3)] ∧
    seen (onAddrRead [0x15, 0x00, 0x10, 0x0E] s0) (fun t => (t.nvmadr, t.nvmcon, bufByte t 0, t.len, t.gie)) =
      some (0x0E10, 0x10, 0x15, 2, true) := by decide

/-- V50: the high byte of the address is the one an earlier transaction left in `buf[3]`. -/
theorem test_erase_stale_byte :
    seen (onAddrRead [0x15, 0x00, 0x00, 0x0E] { s0 with pm := [(0x0E00, 0)] }) (fun t => t.pm) = some [] ∧
    seen (step { pending true true 0 (holding [0x15, 0x00, 0x00, 0x0E] s0) with len := 3, wrPtr := 3, pm := [(0x0E00, 0)] })
      (fun t => t.pm) = some [] := by decide

/-- V25. -/
theorem test_unknown :
    seen (onAddrRead [0x63, 0x00] { s0 with gie := false })
      (fun t => (t.goBoot, t.pcOut, t.len, t.phase)) = some (true, some 0, 0, .address) ∧
    seen (onAddrRead [0x63, 0x00] { s0 with gie := false })
      (fun t => (t.run, t.clkHold, t.evtPending, t.wrPtr, t.gie)) = some (.active, false, false, 0, true) := by decide

/-! ### One step: the bus events (2.4) -/

/-- V47: the unread byte is discarded, the buffer's bytes stay. -/
theorem test_addrWrite :
    seen (step (pending true false 0 { holding [0x01, 0x00] s0 with phase := .replying, len := 1, rdPtr := 1 }))
      (fun t => (t.len, t.wrPtr, t.rdPtr, t.phase, bufByte t 0, bufByte t 1)) = some (0, 0, 0, .receiving, 1, 0) := by decide

/-- V46: the second read addressing finds the record's size where an opcode is looked for. -/
theorem test_addrRead_again :
    seen (step (pending true true 0 { holding [0x20, 0x00] s0 with phase := .replying, len := 31, rdPtr := 1 }))
      (fun t => (t.goBoot, t.phase)) = some (true, .address) := by decide

/-- R240: where the interface combines the two, the read addressing's invocation supplies the reply's first byte. -/
theorem test_addrRead_combined :
    seen (onAddrRead [0x15, 0x00, 0x00, 0x0E] { s0 with dev := { ex with combinedRead := true } })
      (fun t => (t.txData, t.len, t.rdPtr, t.clkHold)) = some (some 0x15, 1, 1, false) := by decide

theorem test_dataRx :
    seen (step (pending false false 0x77 (holding [0x01, 0x00] s0)))
      (fun t => ((bufBytes t).take 3, t.len, t.wrPtr, t.phase, t.clkHold)) =
      some ([0x01, 0x00, 0x77], 3, 3, .receiving, false) := by decide

/-- V40: at 128 bytes held the byte is dropped. -/
theorem test_dataRx_full :
    seen (exec (.dataRx 0x80) { holding [0x01, 0x00] s0 with len := 128, wrPtr := 128 }) (fun t => (t.buf, t.len, t.wrPtr)) =
      some ([(0, 0x01), (1, 0x00)], 128, 128) := by decide

/-- V43's last byte and the 0x00 after it. -/
theorem test_dataReq :
    seen (step (pending false true 0 { holding [0x01, 0x05] s0 with phase := .replying, len := 1, rdPtr := 1 }))
      (fun t => (t.txData, t.len, t.rdPtr)) = some (some 0x05, 0, 2) ∧
    seen (step (pending false true 0 { holding [0x01, 0x05] s0 with phase := .replying, len := 0, rdPtr := 2 }))
      (fun t => (t.txData, t.len, t.rdPtr)) = some (some 0, 0, 2) := by decide

/-- V48. -/
theorem test_dataRxWrongPhase :
    seen (step (pending false false 0x77 { holding [0x01, 0x00] s0 with phase := .replying }))
      (fun t => (t.buf, t.len, t.clkHold)) = some ([(0, 1), (1, 0)], 2, false) := by decide

/-- V49. -/
theorem test_dataReqWrongPhase :
    seen (step (pending false true 0 (holding [] s0))) (fun t => (t.txData, t.len, t.phase, t.clkHold)) =
      some (some 0, 0, .receiving, false) := by decide

/-! ### One step: the accesses (2.1) -/

/-- Software's next access. -/
def byAccess (a : Access) (s : State) : Result := step (taking (.access a) s)

/-- V9. -/
theorem test_nvmReadPm :
    seen (byAccess (.writeCon 0x01) { s0 with nvmadr := 0x0E00, pm := [(0x0E00, 0x1234)] }) (fun t => (t.nvmdat, t.nvmcon)) =
      some (0x1234, 0x00) := by decide

/-- V12: the read completes. -/
theorem test_nvmReadPm_out_of_range :
    seen (byAccess (.writeCon 0x01) { s0 with nvmadr := 0x2000 }) (fun t => (t.draws, t.unlock)) = some (1, .locked) := by decide

/-- V9. -/
theorem test_nvmReadCfg :
    seen (byAccess (.writeCon 0x41) { s0 with nvmadr := 0x8007 }) (fun t => (t.nvmdat, t.nvmcon)) = some (0x3FE4, 0x40) := by
  decide

/-- V6, first group. -/
theorem test_nvmLatch :
    seen (byAccess (.writeCon 0x26) { s0 with unlock := .unlocked, nvmadr := 0x0E05, nvmdat := 0x1234 })
      (fun t => (t.latch, t.loaded, t.pm, t.unlock)) = some ([(5, 0x1234)], [(5, true)], [], .locked) := by decide

/-- V6, second group. -/
theorem test_nvmCommit :
    seen (byAccess (.writeCon 0x06)
        { s0 with unlock := .unlocked, nvmadr := 0x0E06, nvmdat := 0x0ABC, latch := [(5, 0x1234)], loaded := [(5, true)] })
      (fun t => (t.pm, t.loaded, t.nvmcon)) = some ([(0x0E05, 0x1234), (0x0E06, 0x0ABC)], [], 0x04) := by decide

/-- V7, V8: the upper bits are dropped; on a cell that is not erased the default `Prog` is AND. -/
theorem test_nvmCommit_word :
    seen (byAccess (.writeCon 0x06) { s0 with unlock := .unlocked, nvmadr := 0x0E00, nvmdat := 0x5234 })
      (fun t => (t.pm, t.nvmdat)) = some ([(0x0E00, 0x1234)], 0x5234) ∧
    seen (byAccess (.writeCon 0x06)
        { s0 with unlock := .unlocked, nvmadr := 0x0E00, nvmdat := 0x3CF0, pm := [(0x0E00, 0x0F0F)] })
      (fun t => t.pm) = some [(0x0E00, 0x0C00)] := by decide

/-- V1. -/
theorem test_nvmErase :
    seen (byAccess (.writeCon 0x16)
        { s0 with
          unlock := .unlocked, nvmadr := 0x0E1F
          pm := [(0x0DFF, 0x0AAA), (0x0E00, 0x1234), (0x0E1F, 0x0001), (0x0E20, 0x0BBB)] })
      (fun t => (t.pm, t.nvmcon)) = some ([(0x0DFF, 0x0AAA), (0x0E20, 0x0BBB)], 0x14) := by decide

theorem test_nvmNop :
    seen (byAccess (.writeCon 0xFC) { s0 with unlock := .unlocked }) (fun t => (t.nvmcon, t.unlock)) = some (0x74, .locked) := by
  decide

/-- V4; and V5, a request without the keys. -/
theorem test_nvmIgnored :
    seen (byAccess (.writeCon 0x12) { s0 with unlock := .unlocked, nvmadr := 0x0E00, pm := [(0x0E00, 0x1234)] })
      (fun t => (t.pm, t.nvmcon)) = some ([(0x0E00, 0x1234)], 0x10) ∧
    seen (byAccess (.writeCon 0x16) { s0 with nvmadr := 0x0E00, pm := [(0x0E00, 0x1234)] }) (fun t => (t.pm, t.nvmcon)) =
      some ([(0x0E00, 0x1234)], 0x14) := by decide

theorem test_nvmUndefined : why (byAccess (.writeCon 0x07) s0) = some .readWithCommit := by decide

/-- V10: a second first key relocks. -/
theorem test_nvmkeyKey1 :
    seen (byAccess (.writeKey 0x55) s0) (fun t => t.unlock) = some .key1Seen ∧
    seen (byAccess (.writeKey 0x55) { s0 with unlock := .key1Seen }) (fun t => t.unlock) = some .locked := by decide

/-- V3: the second key first does nothing. -/
theorem test_nvmkeyKey2 :
    seen (byAccess (.writeKey 0xAA) { s0 with unlock := .key1Seen }) (fun t => t.unlock) = some .unlocked ∧
    seen (byAccess (.writeKey 0xAA) s0) (fun t => t.unlock) = some .locked := by decide

/-- A device with other unlock values (R10): its keys unlock, the defaults are bytes like any other. -/
theorem test_other_keys :
    seen (byAccess (.writeKey 0x12) { s0 with dev := { ex with keys := { key1 := 0x12, gap := 0x21 } } }) (fun t => t.unlock) =
      some .key1Seen ∧
    seen (byAccess (.writeKey 0x34) { s0 with dev := { ex with keys := { key1 := 0x12, gap := 0x21 } }, unlock := .key1Seen })
      (fun t => t.unlock) = some .unlocked ∧
    seen (byAccess (.writeKey 0x55) { s0 with dev := { ex with keys := { key1 := 0x12, gap := 0x21 } } }) (fun t => t.unlock) =
      some .locked := by decide

/-- V2, V11: a register read relocks, an idle slot does not. -/
theorem test_read_relocks :
    seen (byAccess (.read .dat) { s0 with unlock := .unlocked, nvmdat := 7 }) (fun t => (t.unlock, t.result)) =
      some (.locked, [7]) ∧
    seen (byAccess .idle { s0 with unlock := .unlocked }) (fun t => t.unlock) = some .unlocked := by decide

/-! ### One step: the driver's operations (2.2) -/

/-- Software's next call. -/
def byCall (bs : List Byte) (s : State) : Result := step (taking (.call bs) s)

/-- V13. -/
theorem test_readWord :
    seen (byCall [0x01, 0, 0x00, 0x0E] { s0 with nvmcon := 0x04, pm := [(0x0E00, 0x1234)] })
      (fun t => (t.result, t.nvmadr, t.nvmdat, t.nvmcon)) = some ([0x1234], 0x0E00, 0x1234, 0x00) := by decide

/-- V14. -/
theorem test_readConfigWord :
    seen (byCall [0x41, 1, 0x07, 0x80] s0) (fun t => (t.result, t.nvmcon)) = some ([0x3FE4], 0x40) := by decide

/-- V15, V16: no word, no access; the address wraps to 0. -/
theorem test_readBlock :
    seen (byCall [0x01, 2, 0x00, 0x0E, 0, 0] { s0 with unlock := .unlocked }) (fun t => (t.result, t.unlock)) =
      some ([], .unlocked) ∧
    seen (byCall [0x01, 2, 0xFF, 0xFF, 2, 0] { s0 with pm := [(0, 0x2805)] }) (fun t => (t.result.length, t.result.getD 1 0)) =
      some (2, 0x2805) := by decide

/-- V17. -/
theorem test_writeWordLatch :
    seen (byCall [0x26, 3, 0x05, 0x0E, 0x34, 0x12] s0) (fun t => (t.latch, t.loaded, t.pm)) =
      some ([(5, 0x1234)], [(5, true)], []) ∧
    seen (byCall [0x26, 3, 0x05, 0x0E, 0x34, 0x12] s0) (fun t => (t.gie, t.nvmcon)) = some (true, 0x24) := by decide

/-- V18. -/
theorem test_writeWordCommit :
    seen (byCall [0x06, 4, 0x06, 0x0E, 0xBC, 0x0A] { s0 with gie := false, latch := [(5, 0x1234)], loaded := [(5, true)] })
      (fun t => (t.pm, t.loaded, t.gie, t.nvmcon)) = some ([(0x0E05, 0x1234), (0x0E06, 0x0ABC)], [], false, 0x04) := by decide

/-- V19, V19c. -/
theorem test_eraseRow :
    seen (byCall [0x16, 5, 0x1F, 0x0E] { s0 with pm := [(0x0E00, 0), (0x0E1F, 0)], nvmdat := 9 })
      (fun t => (t.pm, t.nvmcon, t.gie, t.nvmdat)) = some ([], 0x10, true, 9) ∧
    why (byCall [0x16, 5, 0x00, 0x20] s0) = some .invalidTarget := by decide

/-- V19a, V19b. -/
theorem test_rowWrite :
    seen (byCall [0x06, 6, 0x00, 0x0E, 3, 0, 0x11, 0x01, 0x22, 0x02, 0x33, 0x03] s0) (fun t => (t.pm, t.loaded)) =
      some ([(0x0E00, 0x0111), (0x0E01, 0x0222), (0x0E02, 0x0333)], []) ∧
    why (byCall [0x06, 6, 0x1F, 0x0E, 2, 0, 1, 0, 2, 0] s0) = some .rowCrossing := by decide

/-- R143: with interrupts off the request of the held fields is performed; with interrupts on it has no meaning. -/
theorem test_unlockAndCommit :
    seen (byCall [0x02, 7] { s0 with gie := false, nvmcon := 0x14, nvmadr := 0x0E00, pm := [(0x0E00, 0)] })
      (fun t => (t.pm, t.nvmcon, t.unlock)) = some ([], 0x14, .locked) ∧
    why (byCall [0x02, 7] s0) = some .preemptibleHandshake := by decide

/-! ### Steps that are no instruction -/

/-- R286: the event is presented with its byte, and the clock held. -/
theorem test_present :
    seen (step (taking (.event false false 0x77) s0)) (fun t => (t.evtPending, t.clkHold, t.evData, t.inputs)) =
      some (true, true, 0x77, []) := by decide

/-- V51, and R311: a reset ends that state and keeps `pm`. -/
theorem test_left :
    out (step (pending true false 0 { s0 with run := .left })) = none ∧
    seen (step (taking (.reset none) { s0 with run := .left, pm := [(0x0E00, 5)], nvmcon := 0x74 }))
      (fun t => (t.run, t.pm, t.nvmcon)) = some (.active, [(0x0E00, 5)], 0) := by decide

/-! ### Witnesses: for each obligation with hypotheses, a state and operands that meet them, at the edges of their ranges -/

/-- A device with rows of 64 words, so that 61 words fit one row. -/
def wide : Config := { ex with rowIdx := 5, flashIdx := 127, bootRows := [0] }

theorem handlerRuns_of {s : State} (h : s.run = .active ∧ s.evtPending = true ∧ s.inputs = []) : HandlerRuns s :=
  ⟨h.1, h.2.1, by simp [h.2.2]⟩

theorem handlesAddrRead_of {s : State} (h : s.run = .active ∧ s.evtPending = true ∧ s.inputs = [])
    (h' : s.evAddr = true ∧ s.evRead = true) : HandlesAddrRead s := ⟨handlerRuns_of h, h'⟩

theorem takes_of {s : State} {x : Input} (h : s.run = .active ∧ s.evtPending = false) : TakesInput (taking x s) x :=
  ⟨h.1, h.2, rfl⟩

/-- A read addressing with `bs` received. -/
def atAddrRead (bs : List Byte) : State := pending true true 0 (holding bs s0)

theorem atAddrRead_handles (bs : List Byte) : HandlesAddrRead (atAddrRead bs) := handlesAddrRead_of ⟨rfl, rfl, rfl⟩ ⟨rfl, rfl⟩

theorem witness_DecodeEncodeRoundTrip :
    ((Instr.write 0x0E00 61 (List.replicate 61 0)).wellFormed = true ∧
      (Instr.write 0x0E00 61 (List.replicate 61 0)).standsAt (.buffer 2)) ∧
    ((Instr.incomplete).wellFormed = true ∧ (Instr.incomplete).standsAt (.buffer 1)) ∧
    ((Instr.dataRx 0x77).wellFormed = true ∧ (Instr.dataRx 0x77).standsAt (.busEvent .receiving)) ∧
    ((Instr.nvmIgnored true true true true true true).wellFormed = true ∧
      (Instr.nvmIgnored true true true true true true).standsAt .nvmcon) ∧
    ((Instr.nvmkeyKey1).wellFormed = true ∧ (Instr.nvmkeyKey1).standsAt .nvmkey) ∧
    ((Instr.rowWrite 0x0E00 [1, 2]).wellFormed = true ∧ (Instr.rowWrite 0x0E00 [1, 2]).standsAt .call) :=
  ⟨⟨by decide, 2, by decide, rfl⟩, ⟨rfl, 1, by decide, rfl⟩, ⟨rfl, rfl⟩, ⟨rfl, rfl⟩, ⟨rfl, rfl⟩, ⟨rfl, rfl⟩⟩

theorem witness_DecodedInstructionFits : decode defaultKeys (.buffer 4) [0x15, 0x00, 0x10, 0x0E] = .ok (.erase 0x0E10) := rfl

theorem witness_CompletenessBeforeOpcode :
    (1 < 2 ∧ frameWord [0x15, 0x00] 0 = 21) ∧
    frameWord [0x01, 0x00] 0 = 1 ∧ frameWord [0x02, 0x00] 0 = 2 ∧ frameWord [0x03, 0x00] 0 = 3 ∧
    frameWord [0x04, 0x00] 0 = 4 ∧ frameWord [0x0B, 0x00] 0 = 11 ∧ frameWord [0x15, 0x00] 0 = 21 ∧
    frameWord [0x00, 0x00] 0 ∉ ([1, 2, 3, 4, 11, 21] : List Word) ∧
    frameWord [0x05, 0x00] 0 ∉ ([1, 2, 3, 4, 11, 21] : List Word) ∧
    frameWord [0x01, 0x01] 0 ∉ ([1, 2, 3, 4, 11, 21] : List Word) := by decide

/-- For an event that returns, and for the two commands that do not. -/
theorem witness_StepRunsPendingEvent :
    (HandlerRuns (pending true false 0 s0) ∧
      decode (pending true false 0 s0).dev.keys (.busEvent (pending true false 0 s0).phase)
        [byteOfBits false false false false false false (pending true false 0 s0).evAddr (pending true false 0 s0).evRead,
          (pending true false 0 s0).evData] = .ok .addrWrite ∧
      (∃ u, exec .addrWrite (clearOutputs (pending true false 0 s0)) = .next u) ∧ Instr.addrWrite ≠ .addrRead) ∧
    (HandlerRuns (atAddrRead [0x04, 0x00]) ∧
      decode (atAddrRead [0x04, 0x00]).dev.keys (.busEvent (atAddrRead [0x04, 0x00]).phase) [0x03, 0x00] = .ok .addrRead ∧
      (∃ u, exec .addrRead (clearOutputs (atAddrRead [0x04, 0x00])) = .next u) ∧
      selectedCommand (atAddrRead [0x04, 0x00]) = .reboot ∧ selectedCommand (atAddrRead [0x63, 0x00]) = .unknown) ∧
    (selectedCommand (atAddrRead [0x01, 0x00]) = .sync ∧ (atAddrRead [0x01, 0x00]).dev.combinedRead = false) :=
  ⟨⟨handlerRuns_of ⟨rfl, rfl, rfl⟩, rfl, ⟨_, rfl⟩, by decide⟩,
    ⟨(atAddrRead_handles _).1, rfl, next_of_out (by decide), by decide, by decide⟩, by decide, rfl⟩

/-- A command that replies, on a device that combines the first byte's request and on one that does not; and REBOOT. -/
theorem witness_StepRunsBufferedCommand :
    (HandlesAddrRead (atAddrRead [0x01, 0x00]) ∧
      decode (atAddrRead [0x01, 0x00]).dev.keys (.buffer (atAddrRead [0x01, 0x00]).len.toNat)
        (bufBytes (atAddrRead [0x01, 0x00])) = .ok .sync ∧
      (∃ u, exec .sync { clearOutputs (atAddrRead [0x01, 0x00]) with phase := .replying } = .next u) ∧
      (atAddrRead [0x01, 0x00]).dev.combinedRead = false) ∧
    (HandlesAddrRead { atAddrRead [0x01, 0x00] with dev := { ex with combinedRead := true } } ∧
      decode defaultKeys (.buffer 2) (bufBytes { atAddrRead [0x01, 0x00] with dev := { ex with combinedRead := true } }) =
        .ok .sync ∧
      Instr.sync ≠ .reboot ∧ ∀ opcode, Instr.sync ≠ .unknown opcode) ∧
    (HandlesAddrRead (atAddrRead [0x04, 0x00]) ∧ decode defaultKeys (.buffer 2) (bufBytes (atAddrRead [0x04, 0x00])) = .ok .reboot ∧
      ∃ u, exec .reboot { clearOutputs (atAddrRead [0x04, 0x00]) with phase := .replying } = .next u) :=
  ⟨⟨atAddrRead_handles _, rfl, ⟨_, rfl⟩, rfl⟩, ⟨handlesAddrRead_of ⟨rfl, rfl, rfl⟩ ⟨rfl, rfl⟩, rfl, by decide, nofun⟩,
    atAddrRead_handles _, rfl, _, rfl⟩

theorem witness_StepRunsSoftwareInstruction :
    (TakesInput (taking (.access (.writeCon 0x26)) s0) (.access (.writeCon 0x26)) ∧
      decode defaultKeys .nvmcon [0x26] = .ok (.nvmLatch false false)) ∧
    (TakesInput (taking (.access (.writeKey 0x55)) s0) (.access (.writeKey 0x55)) ∧ decode defaultKeys .nvmkey [0x55] = .ok .nvmkeyKey1) ∧
    (TakesInput (taking (.call [0x02, 7]) s0) (.call [0x02, 7]) ∧ decode defaultKeys .call [0x02, 7] = .ok .unlockAndCommit) :=
  ⟨⟨takes_of ⟨rfl, rfl⟩, rfl⟩, ⟨takes_of ⟨rfl, rfl⟩, rfl⟩, ⟨takes_of ⟨rfl, rfl⟩, rfl⟩⟩

/-- For PlainAccesses, NvmconFieldsAreWrittenAndRead, KeysOnlyMoveTheSequencer and BusPresentsOneEventAtATime: any input can be
the next one. -/
theorem witness_TakesInput (x : Input) : TakesInput (taking x s0) x := takes_of ⟨rfl, rfl⟩

theorem witness_PlainAccesses :
    TakesInput (taking (.access (.writeAdr 0xFFFF)) s0) (.access (.writeAdr 0xFFFF)) ∧
    TakesInput (taking (.access (.writeDat 0xFFFF)) s0) (.access (.writeDat 0xFFFF)) ∧
    TakesInput (taking (.access (.read .adr)) s0) (.access (.read .adr)) ∧
    TakesInput (taking (.access (.read .dat)) s0) (.access (.read .dat)) ∧
    TakesInput (taking (.access .idle) s0) (.access .idle) ∧
    TakesInput (taking (.setGie false) s0) (.setGie false) :=
  ⟨takes_of ⟨rfl, rfl⟩, takes_of ⟨rfl, rfl⟩, takes_of ⟨rfl, rfl⟩, takes_of ⟨rfl, rfl⟩, takes_of ⟨rfl, rfl⟩, takes_of ⟨rfl, rfl⟩⟩

theorem witness_LeftBlockTakesNoStep :
    ({ s0 with run := .left } : State).run = .left ∧
    ∀ struck, ({ s0 with run := .left } : State).inputs.head? ≠ some (.reset struck) := ⟨rfl, fun _ => nofun⟩

theorem witness_HandlerReleasesTheClock :
    (HandlerRuns (atAddrRead [0x04, 0x00]) ∧ (∃ t, step (atAddrRead [0x04, 0x00]) = .next t) ∧
      HandlesAddrRead (atAddrRead [0x04, 0x00]) ∧ selectedCommand (atAddrRead [0x04, 0x00]) = .reboot) ∧
    (HandlerRuns (atAddrRead [0x01, 0x00]) ∧ (∃ t, step (atAddrRead [0x01, 0x00]) = .next t) ∧
      ¬(HandlesAddrRead (atAddrRead [0x01, 0x00]) ∧ selectedCommand (atAddrRead [0x01, 0x00]) = .reboot)) :=
  ⟨⟨(atAddrRead_handles _).1, next_of_out (by decide), atAddrRead_handles _, by decide⟩,
    (atAddrRead_handles _).1, next_of_out (by decide), fun h => absurd h.2 (by decide)⟩

theorem witness_BusPresentsOneEventAtATime :
    (TakesInput (taking (.event true false 0) s0) (.event true false 0) ∧ (taking (.event true false 0) s0).clkHold = false) ∧
    (TakesInput (taking (.event false false 9) { s0 with clkHold := true }) (.event false false 9) ∧
      (taking (.event false false 9) { s0 with clkHold := true }).clkHold = true) ∧
    (s0.run = .active ∧ s0.evtPending = false ∧ s0.inputs = []) :=
  ⟨⟨takes_of ⟨rfl, rfl⟩, rfl⟩, ⟨takes_of ⟨rfl, rfl⟩, rfl⟩, rfl, rfl, rfl⟩

/-- A reset that struck the row of 0x0E00: the words either side of it are outside. -/
theorem witness_HardResetKeepsFlash :
    (taking (.reset none) s0).inputs.head? = some (.reset none) ∧
    (taking (.reset (some 0x0E00)) s0).inputs.head? = some (.reset (some 0x0E00)) ∧
    ¬InRowOf s0.dev (0x0E00 : Word).toNat 0x0DFF ∧ InRowOf s0.dev (0x0E00 : Word).toNat 0x0E1F ∧
    ¬InRowOf s0.dev (0x0E00 : Word).toNat 0x0E20 := ⟨rfl, rfl, by decide, by decide, by decide⟩

theorem witness_ResetStateValues :
    (0x1FFF < ex.flashWords ∧ ({ ex with pmInit := [(0x1FFF, 0x0123)] } : Config).pmInit.lookup 0x1FFF = some 0x0123) ∧
    (inCfg ex 0x8007 = true ∧ ex.cfgInit.lookup 0x8007 = some 0x3FE4) ∧ inCfg ex 0x800F = true ∧ inCfg ex 0x8010 = false := by
  decide

theorem witness_IncompleteRepliesZero : s0.len.toNat < 2 ∧ (holding [0x15] s0).len.toNat < 2 := by decide

theorem witness_InfoBuildsTheRecord : 0 < s0.dev.textWords ∧ 1 < s0.dev.textWords ∧ s0.dev.infoSize ≤ 32 := by decide

/-- One word at the end of a row; a whole row; and 61 words where rows are wide enough. -/
theorem witness_WriteProgramsTheWords :
    (([0x1234] : List Word).length = (1 : Word).toNat ∧ (1 : Word).toNat ≤ 61 ∧
      RowWriteAllowed s0 0x0E1F (1 : Word).toNat ∧ (∀ i, isLoaded s0 i = false)) ∧
    ((List.replicate 32 (5 : Word)).length = (32 : Word).toNat ∧ (32 : Word).toNat ≤ 61 ∧
      RowWriteAllowed s0 0x1FE0 (32 : Word).toNat) ∧
    ((List.replicate 61 (5 : Word)).length = (61 : Word).toNat ∧ (61 : Word).toNat ≤ 61 ∧
      RowWriteAllowed (State.resetOf wide) 0x0E00 (61 : Word).toNat) :=
  ⟨⟨rfl, by decide, ⟨by decide, by decide, by decide⟩, fun _ => rfl⟩,
    ⟨by decide, by decide, by decide, by decide, by decide⟩, by decide, by decide, by decide, by decide, by decide⟩

theorem witness_EraseErasesTheRow : validTarget s0.dev 0x1FFF 1 = true ∧ validTarget s0.dev 0x0200 1 = true := by decide

theorem witness_UndefinedTargetsAreRefused :
    61 < (62 : Word).toNat ∧
    (1 ≤ (2 : Word).toNat ∧ (2 : Word).toNat ≤ 61 ∧ ([1, 2] : List Word).length = (2 : Word).toNat ∧
      inOneRow s0.dev 0x0E1F (2 : Word).toNat = false) ∧
    (1 ≤ (1 : Word).toNat ∧ (1 : Word).toNat ≤ 61 ∧ ([1] : List Word).length = (1 : Word).toNat ∧
      inOneRow s0.dev 0x01FF (1 : Word).toNat = true ∧ validTarget s0.dev 0x01FF (1 : Word).toNat = false) ∧
    (validTarget s0.dev 0x2000 1 = false ∧ validTarget s0.dev 0x0000 1 = false) := by decide

/-- Each command in the buffer. -/
theorem witness_AddrReadRunsTheCommand :
    (selectedCommand (atAddrRead [0x01, 0x00]) ≠ .write ∧ selectedCommand (atAddrRead [0x01, 0x00]) ≠ .erase) ∧
    selectedCommand (atAddrRead [0x63, 0x00]) = .unknown ∧
    (selectedCommand (atAddrRead [0x15, 0x00, 0x00, 0x02]) = .erase ∧
      validTarget (atAddrRead [0x15, 0x00, 0x00, 0x02]).dev (bufWord (atAddrRead [0x15, 0x00, 0x00, 0x02]) 1) 1 = true) ∧
    (selectedCommand (atAddrRead [0x0B, 0x00, 0x00, 0x0E, 0x01, 0x00, 0xFF, 0xFF]) = .write ∧
      (bufWord (atAddrRead [0x0B, 0x00, 0x00, 0x0E, 0x01, 0x00, 0xFF, 0xFF]) 2).toNat ≤ 61 ∧
      RowWriteAllowed (atAddrRead [0x0B, 0x00, 0x00, 0x0E, 0x01, 0x00, 0xFF, 0xFF])
        (bufWord (atAddrRead [0x0B, 0x00, 0x00, 0x0E, 0x01, 0x00, 0xFF, 0xFF]) 1)
        (bufWord (atAddrRead [0x0B, 0x00, 0x00, 0x0E, 0x01, 0x00, 0xFF, 0xFF]) 2).toNat) :=
  ⟨by decide, by decide, by decide, by decide, by decide, by decide, by decide, by decide⟩

theorem witness_RepeatedAddrReadRedispatches :
    (1 : BitVec 8).toNat < 2 ∧ 2 ≤ (2 : BitVec 8).toNat ∧
    (selectedCommand (atAddrRead [0x15, 0x00, 0x00, 0x0E]) = .erase ∧
      ∃ t, exec (fetchCommand (atAddrRead [0x15, 0x00, 0x00, 0x0E])) (atAddrRead [0x15, 0x00, 0x00, 0x0E]) = .next t) ∧
    (∃ t, exec .incomplete s0 = .next t) ∧ (∃ t, exec .info s0 = .next t) :=
  ⟨by decide, by decide, ⟨by decide, next_of_out (by decide)⟩, ⟨_, rfl⟩, ⟨_, rfl⟩⟩

theorem witness_DataRxStoresOrDrops :
    (({ s0 with phase := .receiving, len := 127, wrPtr := 127 } : State).phase = .receiving ∧
      ({ s0 with phase := .receiving, len := 127, wrPtr := 127 } : State).len.toNat < 128 ∧
      ({ s0 with phase := .receiving, len := 127, wrPtr := 127 } : State).wrPtr.toNat < 128) ∧
    (({ s0 with phase := .receiving, len := 127, wrPtr := 128 } : State).len.toNat < 128 ∧
      128 ≤ ({ s0 with phase := .receiving, len := 127, wrPtr := 128 } : State).wrPtr.toNat) ∧
    128 ≤ ({ s0 with phase := .receiving, len := 128, wrPtr := 128 } : State).len.toNat := by decide

theorem witness_DataReqStreamsTheReply :
    (({ s0 with phase := .replying, len := 1, rdPtr := 127 } : State).phase = .replying ∧
      0 < ({ s0 with phase := .replying, len := 1, rdPtr := 127 } : State).len.toNat ∧
      ({ s0 with phase := .replying, len := 1, rdPtr := 127 } : State).rdPtr.toNat < 128) ∧
    (0 < ({ s0 with phase := .replying, len := 1, rdPtr := 128 } : State).len.toNat ∧
      128 ≤ ({ s0 with phase := .replying, len := 1, rdPtr := 128 } : State).rdPtr.toNat) ∧
    ({ s0 with phase := .replying } : State).len = 0 := by decide

theorem witness_WrongPhaseEventsChangeNothing :
    s0.phase ≠ .receiving ∧ s0.phase ≠ .replying ∧
    (HandlerRuns (pending false false 0x77 s0) ∧ (pending false false 0x77 s0).evAddr = false ∧
      (pending false false 0x77 s0).evRead = false ∧ (pending false false 0x77 s0).phase ≠ .receiving) ∧
    (HandlerRuns (pending false true 0 s0) ∧ (pending false true 0 s0).evAddr = false ∧
      (pending false true 0 s0).evRead = true ∧ (pending false true 0 s0).phase ≠ .replying) :=
  ⟨by decide, by decide, ⟨handlerRuns_of ⟨rfl, rfl, rfl⟩, rfl, rfl, by decide⟩,
    handlerRuns_of ⟨rfl, rfl, rfl⟩, rfl, rfl, by decide⟩

theorem witness_FrameBytesLandInOrder : (List.replicate 128 (0x11 : Byte)).length ≤ 128 := by simp

theorem witness_SentFrameIsTheCommandRun :
    (Instr.write 0x0E00 62 (List.replicate 61 0)).wellFormed = true ∧
    (∃ len, (Instr.write 0x0E00 62 (List.replicate 61 0)).standsAt (.buffer len)) ∧
    (Instr.incomplete).wellFormed = true ∧ (∃ len, (Instr.incomplete).standsAt (.buffer len)) :=
  ⟨by decide, ⟨2, 2, by decide, rfl⟩, rfl, 1, 1, by decide, rfl⟩

theorem witness_NvmReadsProgramSpace :
    ({ s0 with nvmadr := 0x1FFF } : State).nvmadr.toNat < s0.dev.flashWords ∧
    s0.dev.flashWords ≤ ({ s0 with nvmadr := 0x2000 } : State).nvmadr.toNat := by decide

theorem witness_NvmReadsConfigurationSpace :
    inCfg s0.dev (0x8000 : Word).toNat = true ∧ inCfg s0.dev (0x800F : Word).toNat = true ∧
    inCfg s0.dev (0x7FFF : Word).toNat = false ∧ inCfg s0.dev (0x8010 : Word).toNat = false := by decide

/-- For NvmLatchLoadsOneLatch, NvmCommitProgramsTheRow, NvmEraseErasesTheRow and UndefinedRequestsAreRefused. -/
theorem witness_UnlockedRequests :
    (({ s0 with unlock := .unlocked, nvmadr := 0x1FFF } : State).unlock = .unlocked ∧
      ({ s0 with unlock := .unlocked, nvmadr := 0x1FFF } : State).nvmadr.toNat < s0.dev.flashWords) ∧
    (({ s0 with unlock := .unlocked, nvmadr := 0x2000 } : State).unlock = .unlocked ∧
      s0.dev.flashWords ≤ ({ s0 with unlock := .unlocked, nvmadr := 0x2000 } : State).nvmadr.toNat) := by decide

theorem witness_CommitRequestIgnored :
    s0.unlock ≠ .unlocked ∧ ({ s0 with unlock := .key1Seen } : State).unlock ≠ .unlocked ∧
    (({ s0 with unlock := .unlocked } : State).unlock ≠ .unlocked ∨ false = false) := by decide

theorem witness_NvmconFieldsAreWrittenAndRead : TakesInput (taking (.access (.read .con)) s0) (.access (.read .con)) :=
  takes_of ⟨rfl, rfl⟩

theorem witness_KeysOnlyMoveTheSequencer :
    (TakesInput (taking (.access (.writeKey 0x54)) s0) (.access (.writeKey 0x54)) ∧ (0x54 : Byte) ≠ s0.dev.keys.key1 ∧
      (0x54 : Byte) ≠ s0.dev.keys.key2) ∧
    TakesInput (taking (.access (.read .key)) s0) (.access (.read .key)) :=
  ⟨⟨takes_of ⟨rfl, rfl⟩, by decide, by decide⟩, takes_of ⟨rfl, rfl⟩⟩

theorem witness_FlashNeedsUnlockAndEnable :
    (s0.unlock ≠ .unlocked ∧ ∃ t, exec (decodeNvmcon 0x16) s0 = .next t) ∧
    (conEn 0x12 = false ∧ ∃ t, exec (decodeNvmcon 0x12) { s0 with unlock := .unlocked } = .next t) :=
  ⟨⟨by decide, next_of_out (by decide)⟩, by decide, next_of_out (by decide)⟩

/-- For ReadWordNetEffect, WriteWordCommitNetEffect, EraseRowNetEffect and EraseClosesTheWindowAtOnce. -/
theorem witness_AddressRange :
    (0x1FFF : Word).toNat < s0.dev.flashWords ∧ s0.dev.flashWords ≤ (0x2000 : Word).toNat := by decide

theorem witness_ReadConfigWordNetEffect :
    inCfg s0.dev (0x800F : Word).toNat = true ∧ inCfg s0.dev (0x8010 : Word).toNat = false := by decide

theorem witness_ReadBlockReadsCountWords :
    (1 < (2 : Word).toNat ∧ ((0xFFFF : Word) + BitVec.ofNat 16 1).toNat < s0.dev.flashWords) ∧ (2 : Word) ≠ 0 := by decide

theorem witness_RowWriteNetEffect :
    (RowWriteAllowed s0 0x0E00 ([1, 2] : List Word).length ∧ (∀ i, isLoaded s0 i = false)) ∧
    (([1, 2] : List Word) ≠ [] ∧ inOneRow s0.dev 0x0E1F ([1, 2] : List Word).length = false) ∧
    (([1, 2] : List Word) ≠ [] ∧ inOneRow s0.dev 0x01FE ([1, 2] : List Word).length = true ∧
      validTarget s0.dev 0x01FE ([1, 2] : List Word).length = false) :=
  ⟨⟨⟨by decide, by decide, by decide⟩, fun _ => rfl⟩, by decide, by decide⟩

theorem witness_HandshakePerformsTheRequest :
    s0.gie = true ∧
    (({ s0 with gie := false, unlock := .key1Seen } : State).gie = false ∧
      ({ s0 with gie := false, unlock := .key1Seen } : State).unlock ≠ .locked) ∧
    (({ s0 with gie := false } : State).gie = false ∧ ({ s0 with gie := false } : State).unlock = .locked ∧
      conEn ({ s0 with gie := false } : State).nvmcon = false) ∧
    nvmconHeld 0x24 = 0x24 ∧ nvmconHeld 0x04 = 0x04 ∧ nvmconHeld 0x14 = 0x14 ∧
    ({ s0 with gie := false, nvmcon := 0x14, nvmadr := 0x1FFF } : State).nvmadr.toNat < s0.dev.flashWords := by decide

theorem witness_InterruptEnableIsRestored :
    (∃ t, exec (.eraseRow 0x0E00) s0 = .next t) ∧ (∀ opcode, Instr.eraseRow 0x0E00 ≠ .unknown opcode) ∧
    (Instr.eraseRow 0x0E00 = .addrRead → selectedCommand s0 ≠ .unknown) ∧
    (∃ t, exec .addrRead (atAddrRead [0x01, 0x00]) = .next t) ∧ selectedCommand (atAddrRead [0x01, 0x00]) ≠ .unknown :=
  ⟨next_of_out (by decide), nofun, nofun, next_of_out (by decide), by decide⟩

theorem s0_sound : Sound s0 :=
  ⟨by decide, ⟨by decide, by decide, by decide, by decide, by decide, by decide⟩, rfl⟩

/-- Also for StepKeepsConfigurationSpace; and with a reply half read. -/
theorem witness_StepKeepsSound :
    (Sound s0 ∧ ∃ t, step s0 = .next t) ∧
    (Sound (pending false true 0 { s0 with phase := .replying, len := 1, rdPtr := 127, wrPtr := 2 }) ∧
      ∃ t, step (pending false true 0 { s0 with phase := .replying, len := 1, rdPtr := 127, wrPtr := 2 }) = .next t) :=
  ⟨⟨s0_sound, next_of_out (by decide)⟩,
    ⟨by decide, ⟨by decide, by decide, by decide, by decide, by decide, by decide⟩, rfl⟩, next_of_out (by decide)⟩

theorem witness_HandlerKeepsLatchesQuiet :
    HandlerRuns (atAddrRead [0x15, 0x00, 0x00, 0x0E]) ∧ LatchesQuiet (atAddrRead [0x15, 0x00, 0x00, 0x0E]) ∧
    ∃ t, step (atAddrRead [0x15, 0x00, 0x00, 0x0E]) = .next t :=
  ⟨(atAddrRead_handles _).1, ⟨rfl, fun _ => rfl⟩, next_of_out (by decide)⟩

theorem witness_OnlyRebootLeaves :
    ∃ t, step (atAddrRead [0x04, 0x00]) = .next t ∧ (atAddrRead [0x04, 0x00]).run = .active ∧ t.run = .left :=
  ⟨_, rfl, rfl, rfl⟩

theorem witness_OnlyWriteAndEraseChangeFlash :
    HandlerRuns (atAddrRead [0x01, 0x00]) ∧ (∃ t, step (atAddrRead [0x01, 0x00]) = .next t) ∧
    ¬(HandlesAddrRead (atAddrRead [0x01, 0x00]) ∧
      (selectedCommand (atAddrRead [0x01, 0x00]) = .write ∨ selectedCommand (atAddrRead [0x01, 0x00]) = .erase)) :=
  ⟨(atAddrRead_handles _).1, next_of_out (by decide), fun h => absurd h.2 (by decide)⟩

theorem witness_HandshakeRunsWithInterruptsOff :
    (∃ u t, InterruptsSavedAndOff s0 u ∧ exec .unlockAndCommit u = .next t) ∧ s0.gie = true ∧
    (∃ t, exec (.writeWordCommit 0x0E00 1) s0 = .next t) ∧ (∃ t, exec (.eraseRow 0x0E00) s0 = .next t) ∧
    ∃ t, exec (.rowWrite 0x0E00 [1, 2]) { s0 with gie := false } = .next t :=
  ⟨⟨{ s0 with gie := false, gieSaved := true }, _, ⟨rfl, rfl, rfl⟩, rfl⟩, rfl, next_of_out (by decide),
    next_of_out (by decide), next_of_out (by decide)⟩

theorem witness_ReturningHandlerReleasesTheClock :
    HandlerRuns (atAddrRead [0x01, 0x00]) ∧
    decode (atAddrRead [0x01, 0x00]).dev.keys (.busEvent (atAddrRead [0x01, 0x00]).phase) [0x03, 0x00] = .ok .addrRead ∧
    (∃ u, exec .addrRead (clearOutputs (atAddrRead [0x01, 0x00])) = .next u) ∧
    ¬(Instr.addrRead = .addrRead ∧
      (selectedCommand (atAddrRead [0x01, 0x00]) = .reboot ∨ selectedCommand (atAddrRead [0x01, 0x00]) = .unknown)) :=
  ⟨(atAddrRead_handles _).1, rfl, next_of_out (by decide), by decide⟩

end Sys2Proof.Tests
end

section
/-! SUPPORT. What the decoder reads from bytes the encoder wrote, one format after another (30_encoding.md), and O1. -/

namespace Sys2Proof

open Machine

/-! ### Frame words (R71, R89) -/

@[simp] theorem frameWord_wordBytes_zero (v : Word) (bs : List Byte) : frameWord (wordBytes v ++ bs) 0 = v :=
  wordOf_lo_hi v

@[simp] theorem frameWord_wordBytes_succ (v : Word) (bs : List Byte) (i : Nat) :
    frameWord (wordBytes v ++ bs) (i + 1) = frameWord bs i := rfl

@[simp] theorem frameWords_wordBytes_succ (v : Word) (bs : List Byte) (i n : Nat) :
    frameWords (wordBytes v ++ bs) (i + 1) n = frameWords bs i n := by
  simp [frameWords, Nat.add_right_comm i 1]

/-- Words written one after another are read back. -/
theorem frameWords_wordsBytes (ws : List Word) (rest : List Byte) :
    frameWords (wordsBytes ws ++ rest) 0 ws.length = ws := by
  induction ws with
  | nil => rfl
  | cons v ws ih =>
    have hcons : wordsBytes (v :: ws) ++ rest = wordBytes v ++ (wordsBytes ws ++ rest) := by simp [wordsBytes]
    simpa [hcons, frameWords, List.range_succ_eq_map, Function.comp_def] using ih

/-! ### Commands (R101 to R104) -/

theorem commandKind_unknown {len : Nat} (hlen : ¬len < minCmdBytes) {opcode : Word}
    (hop : definedOpcodes.contains opcode = false) : commandKind len opcode = .unknown := by
  simp only [definedOpcodes, List.contains_cons, Bool.or_eq_false_iff, beq_eq_false_iff_ne] at hop
  obtain ⟨h1, h2, h3, h4, h11, h21, -⟩ := hop
  simp only [commandKind, hlen, h1, h2, h3, h4, h11, h21, if_false]

/-- A command frame is read back, whatever bytes follow it in the buffer. -/
theorem decodeCommand_encode {i : Instr} {len : Nat} (k : Keys) (rest : List Byte) (hwf : i.wellFormed = true)
    (hat : i.standsAt (.buffer len)) : decodeCommand len (encode k i ++ rest) = i := by
  cases i with
  | incomplete =>
    have hlen : len < minCmdBytes := by simpa [Instr.standsAt] using hat
    simp [decodeCommand, commandKind, hlen]
  | sync | info | boot | reboot =>
    have hlen : ¬len < minCmdBytes := by simpa [Instr.standsAt] using hat
    simp [decodeCommand, encode, commandKind, hlen]
  | write address count data =>
    have hlen : ¬len < minCmdBytes := by simpa [Instr.standsAt] using hat
    have hdata : min count.toNat maxPayload = data.length := (beq_iff_eq.1 hwf).symm
    simp [decodeCommand, encode, commandKind, hlen, frameAddress, frameCount, framePayload, hdata, frameWords_wordsBytes]
  | erase address =>
    have hlen : ¬len < minCmdBytes := by simpa [Instr.standsAt] using hat
    simp [decodeCommand, encode, commandKind, hlen, frameAddress]
  | unknown opcode =>
    have hlen : ¬len < minCmdBytes := by simpa [Instr.standsAt] using hat
    have hop : definedOpcodes.contains opcode = false := by simpa only [Instr.wellFormed, Bool.not_eq_true'] using hwf
    simp [decodeCommand, encode, commandKind_unknown hlen hop]
  | _ => simp [Instr.standsAt] at hat

/-! ### Bus events (R112) -/

/-- An event is read back in the phase its row asks for. -/
theorem decodeEventBytes_encode {i : Instr} {phase : Phase} (k : Keys) (rest : List Byte)
    (hat : i.standsAt (.busEvent phase)) : decodeEventBytes phase (encode k i ++ rest) = .ok i := by
  cases i with
  | addrWrite | addrRead => rfl
  | dataRx b | dataReq =>
    simp only [Instr.standsAt, Source.busEvent.injEq] at hat
    subst hat
    rfl
  | dataRxWrongPhase b =>
    have hphase : phase ≠ .receiving := by simpa [Instr.standsAt] using hat
    simp [decodeEventBytes, encode, decodeEvent, hphase]
  | dataReqWrongPhase =>
    have hphase : phase ≠ .replying := by simpa [Instr.standsAt] using hat
    simp [decodeEventBytes, encode, decodeEvent, hphase]
  | _ => simp [Instr.standsAt] at hat

/-! ### Accesses to `NVMCON` and `NVMKEY` (R111, R113) -/

/-- Bit `i` of `b7 b6 … b0`. -/
@[simp] theorem getElem_byteOfBits (b7 b6 b5 b4 b3 b2 b1 b0 : Bool) {i : Nat} (hi : i < 8) :
    (byteOfBits b7 b6 b5 b4 b3 b2 b1 b0)[i] = [b0, b1, b2, b3, b4, b5, b6, b7][i] := by
  interval_cases i <;> decide +revert

/-- The byte of an access to `NVMCON` is read back as its row, no bit of it lost. -/
theorem decode_encode_nvmcon {i : Instr} (k : Keys) (rest : List Byte) (hwf : i.wellFormed = true)
    (hat : i.standsAt .nvmcon) : decode k .nvmcon (encode k i ++ rest) = .ok i := by
  cases i with
  | nvmIgnored r s l f r2 e =>
    have hse : (s || !e) = true := hwf
    simp [decode, encode, decodeNvmcon, hse]
  | nvmReadPm | nvmReadCfg | nvmLatch | nvmCommit | nvmErase | nvmNop | nvmUndefined =>
    simp [decode, encode, decodeNvmcon]
  | _ => simp [Instr.standsAt] at hat

/-- The two unlock values are told apart on every device, since they differ. -/
theorem decode_encode_nvmkey {i : Instr} (k : Keys) (rest : List Byte) (hat : i.standsAt .nvmkey) :
    decode k .nvmkey (encode k i ++ rest) = .ok i := by
  cases i with
  | nvmkeyKey1 => simp [decode, encode, decodeNvmkey]
  | nvmkeyKey2 => simp [decode, encode, decodeNvmkey, k.key1_ne_key2.symm]
  | _ => simp [Instr.standsAt] at hat

/-! ### Driver calls -/

/-- A driver call is read back with its operands. -/
theorem decodeCall_encode {i : Instr} (k : Keys) (rest : List Byte) (hwf : i.wellFormed = true)
    (hat : i.standsAt .call) : decodeCall (encode k i ++ rest) = .ok i := by
  cases i with
  | readWord | readConfigWord | readBlock | writeWordLatch | writeWordCommit | eraseRow =>
    simp +arith [decodeCall, encode, callOf, wordBytes_length]
  | rowWrite address words =>
    have hcount : words.length % 65536 = words.length := Nat.mod_eq_of_lt (by simpa [Instr.wellFormed] using hwf)
    simp +arith [decodeCall, encode, callOf, wordBytes_length, wordsBytes_length, hcount, frameWords_wordsBytes]
  | unlockAndCommit => rfl
  | _ => simp [Instr.standsAt] at hat

/-- Settles O1: one lemma for each place an instruction can stand at. -/
theorem decodeEncodeRoundTrip : Obligations.DecodeEncodeRoundTrip := by
  intro k i src rest hwf hat
  cases src with
  | buffer len => exact congrArg Except.ok (decodeCommand_encode k rest hwf hat)
  | busEvent phase => exact decodeEventBytes_encode k rest hat
  | nvmcon => exact decode_encode_nvmcon k rest hwf hat
  | nvmkey => exact decode_encode_nvmkey k rest hat
  | call => exact decodeCall_encode k rest hwf hat

end Sys2Proof
end

section
/-! SUPPORT. Which job a step does when it takes an access or a call by software, and what a write of `NVMKEY` does; O8 and O40. -/

namespace Sys2Proof.Machine

/-! ### The step that takes an input (R130, R170) -/

/-- An access runs its row, or is made as it stands where it has none. -/
theorem nextJob_access {s : State} {a : Access} (h : TakesInput s (.access a)) :
    nextJob s = (accessRow s.dev.keys a).elim (.plain a) .run := by
  obtain ⟨hrun, hevt, hhead⟩ := h
  obtain ⟨rest, hin⟩ := List.head?_eq_some_iff.1 hhead
  cases hrow : accessRow s.dev.keys a <;> simp [nextJob, hin, hrun, hevt, hrow]

theorem nextJob_call {s : State} {bytes : List Byte} {i : Instr} (h : TakesInput s (.call bytes))
    (hcall : decodeCall bytes = .ok i) : nextJob s = .run i := by
  obtain ⟨hrun, hevt, hhead⟩ := h
  obtain ⟨rest, hin⟩ := List.head?_eq_some_iff.1 hhead
  simp [nextJob, hin, hrun, hevt, hcall]

theorem step_access_row {s : State} {a : Access} {i : Instr} (h : TakesInput s (.access a))
    (hrow : accessRow s.dev.keys a = some i) : step s = exec i (takeInput (clearOutputs s)) := by
  simp [step, nextJob_access h, hrow]

theorem step_access_plain {s : State} {a : Access} (h : TakesInput s (.access a))
    (hrow : accessRow s.dev.keys a = none) : step s = access a (takeInput (clearOutputs s)) := by
  simp [step, nextJob_access h, hrow]

theorem step_call {s : State} {bytes : List Byte} {i : Instr} (h : TakesInput s (.call bytes))
    (hcall : decodeCall bytes = .ok i) : step s = exec i (takeInput (clearOutputs s)) := by
  simp [step, nextJob_call h hcall]

/-- The row of a write of `NVMCON` is the one the decoder gives. -/
theorem accessRow_writeCon {k : Keys} {v : Byte} {i : Instr} (h : decode k .nvmcon [v] = .ok i) :
    accessRow k (.writeCon v) = some i := congrArg some (Except.ok.inj h)

/-- The row of a write of `NVMKEY` is the one the decoder gives, if it gives one. -/
theorem accessRow_writeKey {k : Keys} {v : Byte} {i : Instr} (h : decode k .nvmkey [v] = .ok i) :
    accessRow k (.writeKey v) = some i := by
  have hkey : decodeNvmkey k v = .ok i := h
  simp [accessRow, hkey]

/-- A byte that is neither unlock value has no row (R140). -/
theorem accessRow_writeKey_other {k : Keys} {v : Byte} (h1 : v ≠ k.key1) (h2 : v ≠ k.key2) :
    accessRow k (.writeKey v) = none := by
  simp [accessRow, decodeNvmkey, h1, h2]

/-- Settles O8: the decoder's row is the one the step's job runs. -/
theorem stepRunsSoftwareInstruction : Obligations.StepRunsSoftwareInstruction := by
  intro s i
  refine ⟨fun v htake hdec => ?writeCon, fun v htake hdec => ?writeKey, fun bytes htake hdec => ?call⟩
  case writeCon => exact step_access_row htake (accessRow_writeCon hdec)
  case writeKey => exact step_access_row htake (accessRow_writeKey hdec)
  case call => exact step_call htake hdec

/-! ### The sequencer on a write of `NVMKEY` (R131) -/

theorem unlockOnKey_key1 (k : Keys) (u : Unlock) :
    unlockOnKey k u k.key1 = if u = .locked then .key1Seen else .locked := by
  cases u with
  | locked | unlocked => simp [unlockOnKey]
  | key1Seen => simp [unlockOnKey, k.key1_ne_key2]

theorem unlockOnKey_key2 (k : Keys) (u : Unlock) :
    unlockOnKey k u k.key2 = if u = .key1Seen then .unlocked else .locked := by
  cases u with
  | locked => simp [unlockOnKey, k.key1_ne_key2.symm]
  | key1Seen | unlocked => simp [unlockOnKey]

theorem unlockOnKey_other {k : Keys} {v : Byte} (h1 : v ≠ k.key1) (h2 : v ≠ k.key2) (u : Unlock) :
    unlockOnKey k u v = .locked := by
  cases u with
  | locked => simp [unlockOnKey, h1]
  | key1Seen => simp [unlockOnKey, h2]
  | unlocked => rfl

/-- Settles O40: `regWriteKey` changes the sequencer alone, by `unlockOnKey`; a byte with no row and a read are plain accesses. -/
theorem keysOnlyMoveTheSequencer : Obligations.KeysOnlyMoveTheSequencer := by
  intro s
  refine ⟨?key1, ?key2, fun v htake h1 h2 => ?other, fun htake => ?read⟩
  case key1 => simp only [exec, execNvmkeyKey1, regWriteKey, unlockOnKey_key1]
  case key2 => simp only [exec, execNvmkeyKey2, regWriteKey, unlockOnKey_key2]
  case other =>
    rw [step_access_plain htake (accessRow_writeKey_other h1 h2)]
    have hlock : unlockOnKey s.dev.keys s.unlock v = .locked := unlockOnKey_other h1 h2 s.unlock
    simp [access, regWriteKey, hlock]
  case read => exact step_access_plain htake rfl

end Sys2Proof.Machine
end

section
/-! SUPPORT. What a handler invocation and a whole step can do, said once, and the machine's invariant over it; O51, O52, O54
and O55. -/

namespace Sys2Proof.Machine

/-! ### Which rows a step runs -/

theorem isNvm_decodeNvmcon (v : Byte) : isNvm (decodeNvmcon v) = true := by
  simp only [decodeNvmcon]
  split
  · rfl
  · split <;> rfl
  · rfl
  · split_ifs <;> rfl

theorem isNvm_decodeNvmkey {k : Keys} {v : Byte} {i : Instr} (h : decodeNvmkey k v = .ok i) : isNvm i = true := by
  unfold decodeNvmkey at h
  split_ifs at h <;> cases h <;> rfl

theorem callOf_ok {code want : Byte} {args : List Byte} {need : Nat} {i j : Instr} (h : callOf code want args need i = .ok j) :
    i = j := by
  unfold callOf at h
  split_ifs at h
  exact Except.ok.inj h

theorem isNvm_decodeCall {bytes : List Byte} {i : Instr} (h : decodeCall bytes = .ok i) : isNvm i = true := by
  unfold decodeCall at h
  split at h
  · split_ifs at h <;> exact callOf_ok h ▸ rfl
  · cases h

theorem isNvm_accessRow {k : Keys} {a : Access} {i : Instr} (h : accessRow k a = some i) : isNvm i = true := by
  cases a with
  | writeCon v => exact Option.some.inj h ▸ isNvm_decodeNvmcon v
  | writeKey v =>
    simp only [accessRow] at h
    split at h
    · next hdec => exact Option.some.inj h ▸ isNvm_decodeNvmkey hdec
    · cases h
  | writeAdr v | writeDat v | read r | idle => cases h

/-- Outside the handler a step runs only accesses and driver calls. -/
theorem isNvm_of_nextJob_run {s : State} {i : Instr} (h : nextJob s = .run i) : isNvm i = true := by
  unfold nextJob at h
  split at h
  · cases h
  · split at h
    · cases h
    · split at h
      · cases h
      · split at h
        case h_3 =>
          split at h
          · next hrow => cases h; exact isNvm_accessRow hrow
          · cases h
        case h_4 =>
          split at h
          · next hcall => cases h; exact isNvm_decodeCall hcall
          · cases h
        case h_2 => split at h <;> cases h
        all_goals cases h

/-- What the handler handles is the event on the event lines (R240). -/
theorem nextJob_eq_handle {s : State} {i : Instr} (h : nextJob s = .handle i) : HandlerRuns s ∧ i = fetchEvent s := by
  have hreset : ∀ struck, s.inputs.head? ≠ some (.reset struck) := by
    intro struck hhead
    obtain ⟨rest, hin⟩ := List.head?_eq_some_iff.1 hhead
    simp [nextJob, hin] at h
  unfold nextJob at h
  split at h
  · cases h
  · split at h
    · cases h
    · next hrun =>
      split at h
      · next hevt => cases h; exact ⟨⟨hrun, hevt, hreset⟩, rfl⟩
      · split at h
        case h_2 | h_3 | h_4 => split at h <;> cases h
        all_goals cases h

/-! ### A command, run by the dispatcher -/

theorem packText_length : ∀ text : List Byte, (packText text).length = (text.length + 1) / 2
  | [] => rfl
  | [_] => by simp [packText]
  | _ :: _ :: rest => by
    simp only [packText, List.length_cons, packText_length rest]
    omega

/-- The record has `INFO_WORDS` words (R206). -/
theorem infoRecord_length (c : Config) : (infoRecord c).length = c.infoWords := by
  simp only [infoRecord, List.length_append, packText_length, List.length_cons, List.length_nil, Config.infoWords,
    Config.textWords]

theorem infoSize_toNat (c : Config) : (BitVec.ofNat 8 c.infoSize).toNat = c.infoSize := by
  have hle : c.infoSize ≤ 128 := c.infoSize_le
  rw [BitVec.toNat_ofNat]
  omega

/-- Everything `Dispatch()` can do, if it completes (R200 to R211). -/
inductive CommandEffect (s : State) : State → Prop
  /-- A command that replies: what it did to the NVM, then `n` bytes of reply in the buffer, to be read from its start. -/
  | replied {v : State} {ws : List Word} {n : BitVec 8} (hkeeps : Keeps s v) (hws : ws.length ≤ capWords)
      (hn : n.toNat ≤ capBytes) : CommandEffect s { setBufWords 0 ws v with rdPtr := 0, len := n }
  /-- REBOOT -/
  | rebooted (hsel : selectedCommand s = .reboot) : CommandEffect s (leaveForApplication s)
  /-- UNKNOWN -/
  | reentered : CommandEffect s (reenterBootloader s)

theorem CommandEffect.of_reply {s v : State} (hkeeps : Keeps s v) (w : Word) : CommandEffect s (reply w v) :=
  .replied (ws := [w]) (n := 2) hkeeps (by simp [capWords]) (by decide)

theorem commandEffect_infoCommand {s u : State} (h : infoCommand s = .next u) : CommandEffect s u := by
  cases h
  refine .replied (.refl s) ?_ ?_
  · rw [infoRecord_length]
    exact s.dev.infoWords_le
  · rw [infoSize_toNat]
    exact s.dev.infoSize_le

theorem commandEffect_writeCommand {address count : Word} {data : List Word} {s u : State}
    (h : writeCommand address count data s = .next u) : CommandEffect s u := by
  unfold writeCommand at h
  split at h
  · cases h
  · obtain ⟨v, hv, h⟩ := andThen_eq_next.1 h
    cases h
    exact .of_reply (keeps_rowWrite hv) 0x000B

theorem commandEffect_eraseCommand {address : Word} {s u : State} (h : eraseCommand address s = .next u) :
    CommandEffect s u := by
  unfold eraseCommand at h
  split at h
  · cases h
  · obtain ⟨v, hv, h⟩ := andThen_eq_next.1 h
    cases h
    exact .of_reply (keeps_erase hv) 0x0015

theorem commandEffect_of_dispatch {s u : State} (h : dispatch s = .next u) : CommandEffect s u := by
  unfold dispatch at h
  cases hsel : selectedCommand s with
  | incomplete | sync | boot => rw [hsel] at h; cases h; exact .of_reply (.refl s) _
  | info => rw [hsel] at h; exact commandEffect_infoCommand h
  | reboot => rw [hsel] at h; cases h; exact .rebooted hsel
  | write => rw [hsel] at h; exact commandEffect_writeCommand h
  | erase => rw [hsel] at h; exact commandEffect_eraseCommand h
  | unknown => rw [hsel] at h; cases h; exact .reentered

/-! ### An event -/

/-- Everything an event's rule can do, if it completes (R241 to R245). -/
inductive EventEffect (s : State) : Instr → State → Prop
  | addrWrite : EventEffect s .addrWrite { s with phase := .receiving, len := 0, wrPtr := 0, rdPtr := 0 }
  | addrRead {u : State} (hcommand : CommandEffect { s with phase := .replying } u) : EventEffect s .addrRead u
  | dataRxStored {b : Byte} (hphase : s.phase = .receiving) (hlen : s.len.toNat < capBytes)
      (hwr : s.wrPtr.toNat < capBytes) :
      EventEffect s (.dataRx b) { setBufByte s.wrPtr.toNat b s with wrPtr := s.wrPtr + 1, len := s.len + 1 }
  | dataRxFull {b : Byte} : EventEffect s (.dataRx b) s
  | dataReq {u : State} (hphase : s.phase = .replying) (hreq : dataReqEvent s = .next u) : EventEffect s .dataReq u
  | dataRxWrongPhase {b : Byte} : EventEffect s (.dataRxWrongPhase b) s
  | dataReqWrongPhase : EventEffect s .dataReqWrongPhase { s with txData := some 0x00 }

theorem eventEffect_dataRx {b : Byte} {s u : State} (hphase : s.phase = .receiving) (h : dataRxEvent b s = .next u) :
    EventEffect s (.dataRx b) u := by
  unfold dataRxEvent at h
  split at h
  · next hlen =>
    split at h
    · next hwr => cases h; exact .dataRxStored hphase hlen hwr
    · cases h
  · cases h; exact .dataRxFull

theorem eventEffect_of_exec {s u : State} (h : exec (fetchEvent s) s = .next u) : EventEffect s (fetchEvent s) u := by
  generalize hi : fetchEvent s = i at h ⊢
  unfold fetchEvent decodeEvent at hi
  split at hi
  · cases hi; cases h; exact .addrWrite
  · cases hi; exact .addrRead (commandEffect_of_dispatch h)
  · split at hi
    · next hphase =>
      cases hi
      simp only [exec, execDataRx, if_pos hphase] at h
      exact eventEffect_dataRx hphase h
    · cases hi; cases h; exact .dataRxWrongPhase
  · split at hi
    · next hphase =>
      cases hi
      simp only [exec, execDataReq, if_pos hphase] at h
      exact .dataReq hphase h
    · cases hi; cases h; exact .dataReqWrongPhase

/-- The handler of an AddrRead that returned is in `ReplyingPhase` (R242). -/
theorem EventEffect.phase_of_returned {s u : State} (e : EventEffect s .addrRead u) (hret : returned u = true) :
    u.phase = .replying := by
  cases e with
  | addrRead hcommand =>
    cases hcommand with
    | replied hkeeps hws hn => exact hkeeps.phase
    | rebooted hsel => rfl
    | reentered => simp [returned, reenterBootloader] at hret

theorem fetchEvent_eq_addrRead {s : State} (h : fetchEvent s = .addrRead) : s.evAddr = true ∧ s.evRead = true := by
  unfold fetchEvent decodeEvent at h
  split at h
  · cases h
  · next ha hr => exact ⟨ha, hr⟩
  all_goals split at h <;> cases h

/-! ### A request for a reply byte, and the end of an invocation -/

/-- A byte is supplied, or 0x00 where none is left (R244). -/
theorem dataReqEvent_next {s t : State} (h : dataReqEvent s = .next t) :
    (0 < s.len.toNat ∧ s.rdPtr.toNat < capBytes ∧
      t = { s with txData := some (bufByte s s.rdPtr.toNat), rdPtr := s.rdPtr + 1, len := s.len - 1 }) ∨
    t = { s with txData := some 0x00 } := by
  unfold dataReqEvent at h
  split at h
  · next hlen =>
    split at h
    · next hrd => cases h; exact .inl ⟨hlen, hrd, rfl⟩
    · cases h
  · cases h; exact .inr rfl

theorem firstReplyByte_cases (s : State) : dataReqEvent s = .next (firstReplyByte s) ∨ firstReplyByte s = s := by
  unfold firstReplyByte
  split
  · next h => exact .inl h
  · exact .inr rfl
  · exact .inr rfl

/-- Everything the end of an invocation can do (R240, R246). -/
theorem finishHandler_next {i : Instr} {u t : State} (h : finishHandler i u = .next t) :
    t = u ∨ t = releaseClock u ∨ (i = .addrRead ∧ returned u = true ∧ t = releaseClock (firstReplyByte u)) := by
  unfold finishHandler at h
  split at h
  · next hret =>
    cases h
    split
    · next hcomb =>
      simp only [Bool.and_eq_true, decide_eq_true_eq] at hcomb
      exact .inr (.inr ⟨hcomb.2, hret, rfl⟩)
    · exact .inr (.inl rfl)
  · cases h; exact .inl rfl

/-! ### A step -/

theorem keeps_access {a : Access} {s t : State} (h : access a s = .next t) : Keeps s t := by
  cases a with
  | writeAdr v => cases h; exact keeps_adr s v
  | writeDat v => cases h; exact keeps_dat s v
  | writeCon v => exact keeps_regWriteCon h
  | writeKey v => cases h; exact keeps_unlock s _
  | read r => cases h; exact (keeps_unlock s .locked).trans (keeps_result _ _)
  | idle => cases h; exact .refl s

/-- Everything a step can do, if it answers a next state. -/
inductive StepEffect (s : State) : State → Prop
  | reset (struck : Option Word) : StepEffect s (hardReset struck s)
  | handled {u t : State} (hruns : HandlerRuns s) (hevent : EventEffect (clearOutputs s) (fetchEvent s) u)
      (hfinish : finishHandler (fetchEvent s) u = .next t) : StepEffect s t
  | software {t : State} (hkeeps : Keeps (takeInput (clearOutputs s)) t) : StepEffect s t
  | presented (addr read : Bool) (data : Byte) : StepEffect s (presentEvent addr read data (takeInput (clearOutputs s)))
  | gieSet (b : Bool) : StepEffect s { takeInput (clearOutputs s) with gie := b }
  | polled : StepEffect s (clearOutputs s)

theorem stepEffect_of_step {s t : State} (h : step s = .next t) : StepEffect s t := by
  obtain ⟨struck, -, rfl⟩ | ⟨i, u, hjob, hexec, hfinish⟩ | ⟨i, hjob, hexec⟩ | ⟨a, -, haccess⟩ |
    ⟨addr, read, data, -, rfl⟩ | ⟨b, -, rfl⟩ | ⟨-, rfl⟩ := step_next h
  · exact .reset struck
  · obtain ⟨hruns, rfl⟩ := nextJob_eq_handle hjob
    exact .handled hruns (eventEffect_of_exec (s := clearOutputs s) hexec) hfinish
  · exact .software (keeps_nvm (isNvm_of_nextJob_run hjob) hexec)
  · exact .software (keeps_access haccess)
  · exact .presented addr read data
  · exact .gieSet b
  · exact .polled

/-! ### The configuration space and the device (R49, R19) -/

/-- The configuration space and the device's parameters are as they were. -/
def SameConfiguration (s t : State) : Prop := t.cfg = s.cfg ∧ t.dev = s.dev

theorem SameConfiguration.trans {s t u : State} (h : SameConfiguration s t) (k : SameConfiguration t u) :
    SameConfiguration s u :=
  ⟨k.1.trans h.1, k.2.trans h.2⟩

theorem CommandEffect.sameConfiguration {s u : State} (e : CommandEffect s u) : SameConfiguration s u := by
  cases e with
  | replied hkeeps hws hn => exact ⟨hkeeps.cfg, hkeeps.dev⟩
  | rebooted hsel => exact ⟨rfl, rfl⟩
  | reentered => exact ⟨rfl, rfl⟩

theorem sameConfiguration_dataReqEvent {s t : State} (h : dataReqEvent s = .next t) : SameConfiguration s t := by
  obtain ⟨-, -, rfl⟩ | rfl := dataReqEvent_next h <;> exact ⟨rfl, rfl⟩

theorem EventEffect.sameConfiguration {i : Instr} {s u : State} (e : EventEffect s i u) : SameConfiguration s u := by
  cases e with
  | addrRead hcommand => exact hcommand.sameConfiguration
  | dataReq hphase hreq => exact sameConfiguration_dataReqEvent hreq
  | addrWrite | dataRxStored hphase hlen hwr | dataRxFull | dataRxWrongPhase | dataReqWrongPhase => exact ⟨rfl, rfl⟩

theorem sameConfiguration_firstReplyByte (s : State) : SameConfiguration s (firstReplyByte s) := by
  obtain h | h := firstReplyByte_cases s
  · exact sameConfiguration_dataReqEvent h
  · rw [h]; exact ⟨rfl, rfl⟩

theorem sameConfiguration_finishHandler {i : Instr} {u t : State} (h : finishHandler i u = .next t) :
    SameConfiguration u t := by
  obtain rfl | rfl | ⟨-, -, rfl⟩ := finishHandler_next h
  · exact ⟨rfl, rfl⟩
  · exact ⟨rfl, rfl⟩
  · exact sameConfiguration_firstReplyByte u

/-- A reset keeps the configuration space, whatever row of program memory it struck (R312). -/
theorem sameConfiguration_hardReset (struck : Option Word) (s : State) : SameConfiguration s (hardReset struck s) := by
  cases struck with
  | none => exact ⟨rfl, rfl⟩
  | some a =>
    refine ⟨?_, rfl⟩
    show (scrambleRow a s).cfg = s.cfg
    unfold scrambleRow
    split <;> rfl

/-- Settles O54, along the cases of a step. -/
theorem stepKeepsConfigurationSpace : Obligations.StepKeepsConfigurationSpace := by
  intro s t h
  cases stepEffect_of_step h with
  | reset struck => exact sameConfiguration_hardReset struck s
  | handled hruns hevent hfinish =>
    exact hevent.sameConfiguration.trans (sameConfiguration_finishHandler hfinish)
  | software hkeeps => exact ⟨hkeeps.cfg, hkeeps.dev⟩
  | presented addr read data => exact ⟨rfl, rfl⟩
  | gieSet b => exact ⟨rfl, rfl⟩
  | polled => exact ⟨rfl, rfl⟩

/-! ### Leaving for the application (R28, R208) -/

theorem dataReqEvent_run {s t : State} (h : dataReqEvent s = .next t) : t.run = s.run := by
  obtain ⟨-, -, rfl⟩ | rfl := dataReqEvent_next h <;> rfl

theorem finishHandler_run {i : Instr} {u t : State} (h : finishHandler i u = .next t) : t.run = u.run := by
  obtain rfl | rfl | ⟨-, -, rfl⟩ := finishHandler_next h
  · rfl
  · rfl
  · show (firstReplyByte u).run = u.run
    obtain hreq | hsame := firstReplyByte_cases u
    · exact dataReqEvent_run hreq
    · rw [hsame]

/-- Only REBOOT, run by a read addressing, leaves (R208). -/
theorem EventEffect.left {i : Instr} {s u : State} (e : EventEffect s i u) (hactive : s.run = .active)
    (hleft : u.run = .left) : i = .addrRead ∧ selectedCommand s = .reboot := by
  have hstay : u.run ≠ s.run := by simp [hactive, hleft]
  cases e with
  | addrRead hcommand =>
    cases hcommand with
    | replied hkeeps hws hn => exact absurd hkeeps.run hstay
    | rebooted hsel => exact ⟨rfl, hsel⟩
    | reentered => exact nomatch hleft
  | dataReq hphase hreq => exact absurd (dataReqEvent_run hreq) hstay
  | addrWrite | dataRxStored hphase hlen hwr | dataRxFull | dataRxWrongPhase | dataReqWrongPhase => exact absurd rfl hstay

/-- Settles O55: of the cases of a step only a handled event can leave. -/
theorem onlyRebootLeaves : Obligations.OnlyRebootLeaves := by
  intro s t h hactive hleft
  have hstay : t.run ≠ s.run := by simp [hactive, hleft]
  cases stepEffect_of_step h with
  | reset struck => exact nomatch hleft
  | handled hruns hevent hfinish =>
    obtain ⟨hread, hsel⟩ := hevent.left hactive ((finishHandler_run hfinish).symm.trans hleft)
    exact ⟨⟨hruns, fetchEvent_eq_addrRead hread⟩, hsel⟩
  | software hkeeps => exact absurd hkeeps.run hstay
  | presented addr read data => exact absurd rfl hstay
  | gieSet b => exact absurd rfl hstay
  | polled => exact absurd rfl hstay

/-! ### The invariant (R26, R43) -/

/-- An emptied buffer is sound in every phase. -/
theorem cursorsSound_of_zero {s : State} (hlen : s.len = 0) (hwr : s.wrPtr = 0) (hrd : s.rdPtr = 0) : CursorsSound s := by
  simp [CursorsSound, hlen, hwr, hrd]

theorem nvmconHeld_zero : nvmconHeld 0 = 0 := by decide

theorem sound_resetOf (c : Config) : Sound (State.resetOf c) :=
  ⟨wf_resetOf c, cursorsSound_of_zero rfl rfl rfl, nvmconHeld_zero⟩

/-- Settles O52: `State.reset` is `State.resetOf` of one device. -/
theorem resetIsSound : Obligations.ResetIsSound := ⟨sound_resetOf Config.device, sound_resetOf⟩

theorem sound_hardReset {s : State} (h : Sound s) (struck : Option Word) : Sound (hardReset struck s) :=
  ⟨wf_hardReset h.1 struck, cursorsSound_of_zero rfl rfl rfl, nvmconHeld_zero⟩

theorem CursorsSound.of_keeps {s t : State} (k : Keeps s t) (h : CursorsSound s) : CursorsSound t := by
  unfold CursorsSound at h ⊢
  rw [k.len, k.wrPtr, k.rdPtr, k.phase]
  exact h

theorem Sound.of_keeps {s t : State} (k : Keeps s t) (h : Sound s) : Sound t := by
  obtain ⟨hwf, hcur, hcon⟩ := h
  exact ⟨k.wf hwf, hcur.of_keeps k, k.nvmcon hcon⟩

/-- A read addressing may come in any phase: what stands in the buffer then fits, and is read from where the cursor is. -/
theorem Sound.to_replying {s : State} (h : Sound s) : Sound { s with phase := .replying } := by
  obtain ⟨hwf, ⟨hlen, hwr, hrd, haddress, hreceiving, hreplying⟩, hcon⟩ := h
  have hfits : s.rdPtr.toNat + s.len.toNat ≤ capBytes := by
    cases hphase : s.phase with
    | address => obtain ⟨hlen0, -, hrd0⟩ := haddress hphase; simp [hlen0, hrd0]
    | receiving => obtain ⟨-, hrd0⟩ := hreceiving hphase; simpa [hrd0] using hlen
    | replying => exact hreplying hphase
  exact ⟨hwf, ⟨hlen, hwr, hrd, nofun, nofun, fun _ => hfits⟩, hcon⟩

/-- A reply that fits in the buffer, read from its start. -/
theorem Sound.to_reply {s : State} (h : Sound s) (hphase : s.phase = .replying) {ws : List Word} (hws : ws.length ≤ capWords)
    {n : BitVec 8} (hn : n.toNat ≤ capBytes) : Sound { setBufWords 0 ws s with rdPtr := 0, len := n } := by
  obtain ⟨hwf, ⟨-, hwr, -, -, -, -⟩, hcon⟩ := h
  have hwf' : Memory.wf (setBufWords 0 ws s) = true := wf_setBufWords hwf (by omega)
  refine ⟨hwf', ⟨hn, hwr, Nat.zero_le _, ?_, ?_, fun _ => by simpa using hn⟩, hcon⟩
  · simp [hphase]
  · simp [hphase]

theorem CommandEffect.sound {s u : State} (e : CommandEffect s u) (hphase : s.phase = .replying) (h : Sound s) : Sound u := by
  cases e with
  | replied hkeeps hws hn => exact (h.of_keeps hkeeps).to_reply (hkeeps.phase.trans hphase) hws hn
  | rebooted hsel => exact h
  | reentered => exact ⟨wf_reenterBootloader h.1, cursorsSound_of_zero rfl rfl rfl, h.2.2⟩

/-- A byte supplied moves the read cursor and the counter against each other. -/
theorem sound_dataReqEvent {s t : State} (hphase : s.phase = .replying) (h : Sound s) (hreq : dataReqEvent s = .next t) :
    Sound t := by
  obtain ⟨hpos, hlt, rfl⟩ | rfl := dataReqEvent_next hreq
  · obtain ⟨hwf, ⟨hlen, hwr, hrd, -, -, hreplying⟩, hcon⟩ := h
    have hfits := hreplying hphase
    have hlen' : (s.len - 1).toNat = s.len.toNat - 1 := by bv_omega
    have hrd' : (s.rdPtr + 1).toNat = s.rdPtr.toNat + 1 := by simp only [capBytes, capWords] at hlt; bv_omega
    refine ⟨hwf, ⟨?_, hwr, ?_, ?_, ?_, fun _ => ?_⟩, hcon⟩
    · show (s.len - 1).toNat ≤ capBytes
      omega
    · show (s.rdPtr + 1).toNat ≤ capBytes
      omega
    · simp [hphase]
    · simp [hphase]
    · show (s.rdPtr + 1).toNat + (s.len - 1).toNat ≤ capBytes
      omega
  · exact h

/-- A byte stored moves the write cursor and the counter together. -/
theorem Sound.to_stored {s : State} (h : Sound s) (hphase : s.phase = .receiving) (hlen : s.len.toNat < capBytes) (b : Byte) :
    Sound { setBufByte s.wrPtr.toNat b s with wrPtr := s.wrPtr + 1, len := s.len + 1 } := by
  obtain ⟨hwf, ⟨-, -, hrd, -, hreceiving, -⟩, hcon⟩ := h
  obtain ⟨hwr, hrd0⟩ := hreceiving hphase
  have hlen' : (s.len + 1).toNat ≤ capBytes := by simp only [capBytes, capWords] at hlen ⊢; bv_omega
  have hwf' : Memory.wf (setBufByte s.wrPtr.toNat b s) = true := wf_setBufByte hwf (by rw [hwr]; exact hlen) b
  refine ⟨hwf', ⟨hlen', ?_, hrd, ?_, fun _ => ⟨?_, hrd0⟩, ?_⟩, hcon⟩
  · show (s.wrPtr + 1).toNat ≤ capBytes
    rw [hwr]
    exact hlen'
  · simp [hphase]
  · show s.wrPtr + 1 = s.len + 1
    rw [hwr]
  · simp [hphase]

theorem EventEffect.sound {i : Instr} {s u : State} (e : EventEffect s i u) (h : Sound s) : Sound u := by
  cases e with
  | addrWrite => exact ⟨h.1, cursorsSound_of_zero rfl rfl rfl, h.2.2⟩
  | addrRead hcommand => exact hcommand.sound rfl h.to_replying
  | dataRxStored hphase hlen hwr => exact h.to_stored hphase hlen _
  | dataReq hphase hreq => exact sound_dataReqEvent hphase h hreq
  | dataRxFull | dataRxWrongPhase | dataReqWrongPhase => exact h

theorem sound_firstReplyByte {s : State} (hphase : s.phase = .replying) (h : Sound s) : Sound (firstReplyByte s) := by
  obtain hreq | hsame := firstReplyByte_cases s
  · exact sound_dataReqEvent hphase h hreq
  · rw [hsame]; exact h

/-- A whole handler invocation: the event's rule, then the end of the invocation. -/
theorem sound_handler {i : Instr} {s u t : State} (h : Sound s) (hevent : EventEffect s i u)
    (hfinish : finishHandler i u = .next t) : Sound t := by
  have hu : Sound u := hevent.sound h
  obtain rfl | rfl | ⟨rfl, hret, rfl⟩ := finishHandler_next hfinish
  · exact hu
  · exact hu
  · exact sound_firstReplyByte (hevent.phase_of_returned hret) hu

/-- Settles O51, along the cases of a step; the event lines, the outputs, `GIE` and the inputs are no part of the invariant. -/
theorem stepKeepsSound : Obligations.StepKeepsSound := by
  intro s t hs h
  have hclear : Sound (clearOutputs s) := hs
  have htake : Sound (takeInput (clearOutputs s)) := hs
  cases stepEffect_of_step h with
  | reset struck => exact sound_hardReset hs struck
  | handled hruns hevent hfinish => exact sound_handler hclear hevent hfinish
  | software hkeeps => exact htake.of_keeps hkeeps
  | presented addr read data => exact htake
  | gieSet b => exact htake
  | polled => exact hclear

end Sys2Proof.Machine
end

section
/-! SUPPORT. Which writes of `NVMCON` and which handler invocations leave program memory as it was; O41 and O56. -/

namespace Sys2Proof.Machine

/-! ### A write of `NVMCON` through its row (R111) -/

/-- A byte is put together again from its bits. -/
theorem byteOfBits_getLsbD (v : Byte) :
    byteOfBits (v.getLsbD 7) (v.getLsbD 6) (v.getLsbD 5) (v.getLsbD 4) (v.getLsbD 3) (v.getLsbD 2) (v.getLsbD 1)
      (v.getLsbD 0) = v := by
  revert v; decide

/-- The split follows the decoder's: the request bits, then `SPACE` and `EN`, then the operation. A row's fixed bits are then the
byte's own. -/
theorem exec_decodeNvmcon_byteOfBits (r sp l f r2 e c d : Bool) (s : State) :
    exec (decodeNvmcon (byteOfBits r sp l f r2 e c d)) s = regWriteCon (byteOfBits r sp l f r2 e c d) s := by
  cases c <;> cases d
  case false.false | true.true => simp [decodeNvmcon, exec, execNvmNop, execNvmUndefined]
  case false.true => cases sp <;> simp [decodeNvmcon, exec, execNvmReadCfg, execNvmReadPm]
  case true.false =>
    cases sp <;> cases e
    case false.true =>
      cases f <;> cases l <;> simp [decodeNvmcon, exec, execNvmErase, execNvmLatch, execNvmCommit]
    all_goals simp [decodeNvmcon, exec, execNvmIgnored]

/-- What the decoder makes of a byte written to `NVMCON` does what the write of the byte does. -/
theorem exec_decodeNvmcon (v : Byte) (s : State) : exec (decodeNvmcon v) s = regWriteCon v s := by
  have h := exec_decodeNvmcon_byteOfBits (v.getLsbD 7) (v.getLsbD 6) (v.getLsbD 5) (v.getLsbD 4) (v.getLsbD 3)
    (v.getLsbD 2) (v.getLsbD 1) (v.getLsbD 0) s
  rwa [byteOfBits_getLsbD] at h

/-! ### What a write of `NVMCON` does without an unlock or without `EN` (R83, R131) -/

/-- Program memory, the latches and the sequencer are as they were. -/
def SameFlash (s t : State) : Prop := t.pm = s.pm ∧ t.latch = s.latch ∧ t.loaded = s.loaded ∧ t.unlock = s.unlock

/-- A read changes `NVMDAT` alone, and the count of free words (R132). -/
theorem sameFlash_readPm (s : State) : SameFlash s (readPm s) := by
  unfold readPm; split <;> exact ⟨rfl, rfl, rfl, rfl⟩

/-- As `sameFlash_readPm`, of the configuration space (R133). -/
theorem sameFlash_readCfg (s : State) : SameFlash s (readCfg s) := by
  unfold readCfg; split <;> exact ⟨rfl, rfl, rfl, rfl⟩

/-- Unless a request is performed, a write of `NVMCON` relocks, and reads if it asks for that. -/
theorem sameFlash_regWriteCon {v : Byte} {s t : State} (hnot : s.unlock ≠ .unlocked ∨ conEn v = false)
    (h : regWriteCon v s = .next t) : SameFlash (updateFields v s) t := by
  obtain rfl | rfl | rfl | ⟨hunlocked, hen, -⟩ := regWriteCon_next h
  · exact ⟨rfl, rfl, rfl, rfl⟩
  · exact sameFlash_readCfg _
  · exact sameFlash_readPm _
  · obtain hlocked | hdisabled := hnot
    · exact absurd hunlocked hlocked
    · simp [hdisabled] at hen

/-- Settles O41: the row writes its byte, and `updateFields` touches the fields and the sequencer alone. -/
theorem flashNeedsUnlockAndEnable : Obligations.FlashNeedsUnlockAndEnable := by
  intro s t v hnot h
  rw [exec_decodeNvmcon] at h
  exact sameFlash_regWriteCon hnot h

/-! ### The handler's way to program memory (R70) -/

/-- Of the commands only WRITE and ERASE call an operation that changes program memory. -/
theorem dispatch_pm {s u : State} (hsel : ¬(selectedCommand s = .write ∨ selectedCommand s = .erase))
    (h : dispatch s = .next u) : u.pm = s.pm := by
  unfold dispatch at h
  cases hcmd : selectedCommand s with
  | write => exact absurd (.inl hcmd) hsel
  | erase => exact absurd (.inr hcmd) hsel
  | incomplete | sync | info | boot | reboot | unknown => rw [hcmd] at h; cases h; rfl

theorem dataReqEvent_pm {s t : State} (h : dataReqEvent s = .next t) : t.pm = s.pm := by
  obtain ⟨-, -, rfl⟩ | rfl := dataReqEvent_next h <;> rfl

/-- An event that is no read addressing runs no command. -/
theorem EventEffect.pm_of_ne_addrRead {i : Instr} {s u : State} (e : EventEffect s i u) (hi : i ≠ .addrRead) :
    u.pm = s.pm := by
  cases e with
  | addrRead hcommand => exact absurd rfl hi
  | dataReq hphase hreq => exact dataReqEvent_pm hreq
  | addrWrite | dataRxStored hphase hlen hwr | dataRxFull | dataRxWrongPhase | dataReqWrongPhase => rfl

/-- The end of an invocation supplies a byte at most (R240). -/
theorem finishHandler_pm {i : Instr} {u t : State} (h : finishHandler i u = .next t) : t.pm = u.pm := by
  obtain rfl | rfl | ⟨-, -, rfl⟩ := finishHandler_next h
  · rfl
  · rfl
  · show (firstReplyByte u).pm = u.pm
    obtain hreq | hsame := firstReplyByte_cases u
    · exact dataReqEvent_pm hreq
    · rw [hsame]

/-- Settles O56: a read addressing runs the command in the buffer, no other event runs one, and the end of the invocation
leaves program memory. -/
theorem onlyWriteAndEraseChangeFlash : Obligations.OnlyWriteAndEraseChangeFlash := by
  intro s t hruns h hnot
  rw [step_handle hruns] at h
  obtain ⟨u, hexec, hfinish⟩ := andThen_eq_next.1 h
  rw [finishHandler_pm hfinish]
  by_cases hread : fetchEvent s = .addrRead
  · have hsel : ¬(selectedCommand s = .write ∨ selectedCommand s = .erase) :=
      fun hcmd => hnot ⟨⟨hruns, fetchEvent_eq_addrRead hread⟩, hcmd⟩
    rw [hread] at hexec
    exact dispatch_pm (s := { clearOutputs s with phase := .replying }) hsel hexec
  · exact (eventEffect_of_exec (s := clearOutputs s) hexec).pm_of_ne_addrRead hread

end Sys2Proof.Machine
end

section
/-! SUPPORT. What the decoder can answer, one place after another (30_encoding.md); O2, O3, O4 and O5. -/

namespace Sys2Proof

open Machine

/-- Some encoding stands for the instruction, and its row stands at that place. -/
def Instr.FitsAt (i : Instr) (src : Source) : Prop := i.wellFormed = true ∧ i.standsAt src

/-! ### Commands (R104, R105) -/

theorem commandKind_of_lt {len : Nat} (hlen : len < minCmdBytes) (opcode : Word) :
    commandKind len opcode = .incomplete := if_pos hlen

theorem lt_of_commandKind_eq_incomplete {len : Nat} {opcode : Word} (h : commandKind len opcode = .incomplete) :
    len < minCmdBytes := by
  unfold commandKind at h
  split_ifs at h with hlen
  exact hlen

theorem le_of_commandKind_ne_incomplete {len : Nat} {opcode : Word} (h : commandKind len opcode ≠ .incomplete) :
    minCmdBytes ≤ len :=
  Nat.le_of_not_lt fun hlen => h (commandKind_of_lt hlen opcode)

/-- A defined opcode is never selected as UNKNOWN. -/
theorem not_definedOpcodes_of_commandKind_eq_unknown {len : Nat} {opcode : Word} (h : commandKind len opcode = .unknown) :
    definedOpcodes.contains opcode = false := by
  unfold commandKind at h
  split_ifs at h with hlen h1 h2 h3 h4 h11 h21
  simp only [definedOpcodes, List.contains_cons, Bool.or_eq_false_iff, beq_eq_false_iff_ne]
  exact ⟨h1, h2, h3, h4, h11, h21, rfl⟩

theorem frameWords_length (bs : List Byte) (i n : Nat) : (frameWords bs i n).length = n := by simp [frameWords]

theorem decodeCommand_fitsAt (len : Nat) (bs : List Byte) : (decodeCommand len bs).FitsAt (.buffer len) := by
  unfold decodeCommand
  cases hkind : commandKind len (frameWord bs 0) with
  | incomplete => exact ⟨rfl, len, lt_of_commandKind_eq_incomplete hkind, rfl⟩
  | sync | info | boot | reboot | erase =>
    exact ⟨rfl, len, le_of_commandKind_ne_incomplete (hkind.trans_ne nofun), rfl⟩
  | write =>
    have hdata : (framePayload bs).length = min (frameCount bs).toNat maxPayload := frameWords_length ..
    exact ⟨beq_iff_eq.2 hdata, len, le_of_commandKind_ne_incomplete (hkind.trans_ne nofun), rfl⟩
  | unknown =>
    have hop := not_definedOpcodes_of_commandKind_eq_unknown hkind
    exact ⟨congrArg (!·) hop, len, le_of_commandKind_ne_incomplete (hkind.trans_ne nofun), rfl⟩

/-- Settles O5: the first comparison of `commandKind` is the completeness check, and each later one is of the whole opcode. -/
theorem completenessBeforeOpcode : Obligations.CompletenessBeforeOpcode := by
  intro len bs
  refine ⟨fun hlen => ?incomplete, fun hlen => ?complete⟩
  case incomplete => simp only [decodeCommand, commandKind_of_lt hlen]
  case complete =>
    have hge : ¬len < minCmdBytes := Nat.not_lt.2 hlen
    refine ⟨fun hop => ?_, fun hop => ?_, fun hop => ?_, fun hop => ?_, fun hop => ?_, fun hop => ?_, fun hop => ?unknown⟩
    case unknown =>
      have hnot : definedOpcodes.contains (frameWord bs 0) = false := by simpa [definedOpcodes] using hop
      simp only [decodeCommand, commandKind_unknown hge hnot]
    all_goals simp [decodeCommand, commandKind, hge, hop, frameAddress, frameCount, framePayload, maxPayload, capWords]

/-! ### Bus events (R112) -/

theorem decodeEvent_fitsAt (phase : Phase) (addr read : Bool) (data : Byte) :
    (decodeEvent phase addr read data).FitsAt (.busEvent phase) := by
  unfold decodeEvent
  split
  · exact ⟨rfl, phase, rfl⟩
  · exact ⟨rfl, phase, rfl⟩
  · split
    · next hphase => exact ⟨rfl, congrArg _ hphase⟩
    · next hphase => exact ⟨rfl, phase, hphase, rfl⟩
  · split
    · next hphase => exact ⟨rfl, congrArg _ hphase⟩
    · next hphase => exact ⟨rfl, phase, hphase, rfl⟩

theorem decodeEventBytes_fitsAt {phase : Phase} {bs : List Byte} {i : Instr} (h : decodeEventBytes phase bs = .ok i) :
    i.FitsAt (.busEvent phase) := by
  unfold decodeEventBytes at h
  split at h
  · cases h
  · split at h
    · cases h; exact decodeEvent_fitsAt ..
    · cases h

/-! ### Accesses to `NVMCON` and `NVMKEY` (R111, R113) -/

/-- The row of a commit request depends on `SPACE` and `EN` first: NVM.IGNORED's is the one the others do not match. -/
theorem decodeNvmcon_fitsAt (v : Byte) : (decodeNvmcon v).FitsAt .nvmcon := by
  simp only [decodeNvmcon]
  split
  · exact ⟨rfl, rfl⟩
  · split <;> exact ⟨rfl, rfl⟩
  · exact ⟨rfl, rfl⟩
  · split_ifs with hignored
    · exact ⟨hignored, rfl⟩
    all_goals exact ⟨rfl, rfl⟩

theorem decodeNvmkey_fitsAt {k : Keys} {v : Byte} {i : Instr} (h : decodeNvmkey k v = .ok i) : i.FitsAt .nvmkey := by
  unfold decodeNvmkey at h
  split_ifs at h <;> cases h <;> exact ⟨rfl, rfl⟩

/-- The split follows the decoder's: the request bits, then `SPACE` and `EN`, then the operation. -/
theorem encode_decodeNvmcon_byteOfBits (k : Keys) (r sp l f r2 e c d : Bool) :
    encode k (decodeNvmcon (byteOfBits r sp l f r2 e c d)) = [byteOfBits r sp l f r2 e c d] := by
  cases c <;> cases d
  case false.false | true.true => simp [decodeNvmcon, encode]
  case false.true => cases sp <;> simp [decodeNvmcon, encode]
  case true.false =>
    cases sp <;> cases e
    case false.true => cases f <;> cases l <;> simp [decodeNvmcon, encode]
    all_goals simp [decodeNvmcon, encode]

theorem encode_decodeNvmcon (k : Keys) (v : Byte) : encode k (decodeNvmcon v) = [v] := by
  have h := encode_decodeNvmcon_byteOfBits k (v.getLsbD 7) (v.getLsbD 6) (v.getLsbD 5) (v.getLsbD 4) (v.getLsbD 3)
    (v.getLsbD 2) (v.getLsbD 1) (v.getLsbD 0)
  rwa [byteOfBits_getLsbD] at h

/-- Settles O3: the byte is the one its bits make. -/
theorem nvmconByteIsItsRow : Obligations.NvmconByteIsItsRow := fun k v =>
  ⟨encode_decodeNvmcon k v, (decodeNvmcon_fitsAt v).2⟩

/-! ### Driver calls -/

theorem callOf_fitsAt {code want : Byte} {args : List Byte} {need : Nat} {i j : Instr}
    (h : callOf code want args need j = .ok i) (hj : j.FitsAt .call) : i.FitsAt .call :=
  callOf_ok h ▸ hj

/-- A call's word count is 16 bits wide, so it names at most 65535 words. -/
theorem rowWrite_fitsAt (address count : Word) (args : List Byte) :
    (Instr.rowWrite address (frameWords args 2 count.toNat)).FitsAt .call := by
  refine ⟨?_, rfl⟩
  have hcount : count.toNat < 65536 := count.isLt
  simpa [Instr.wellFormed, frameWords_length] using hcount

theorem decodeCall_fitsAt {bs : List Byte} {i : Instr} (h : decodeCall bs = .ok i) : i.FitsAt .call := by
  unfold decodeCall at h
  split at h
  · iterate 6
      split at h
      · exact callOf_fitsAt h ⟨rfl, rfl⟩
    split at h
    · exact callOf_fitsAt h (rowWrite_fitsAt ..)
    · split at h
      · exact callOf_fitsAt h ⟨rfl, rfl⟩
      · cases h
  · cases h

/-! ### The decoder -/

/-- Settles O2: one lemma for each place. -/
theorem decodedInstructionFits : Obligations.DecodedInstructionFits := by
  intro k src bs i h
  cases src with
  | buffer len => exact Except.ok.inj h ▸ decodeCommand_fitsAt len bs
  | busEvent phase => exact decodeEventBytes_fitsAt h
  | nvmcon =>
    cases bs with
    | nil => cases h
    | cons v rest => exact Except.ok.inj h ▸ decodeNvmcon_fitsAt v
  | nvmkey =>
    cases bs with
    | nil => cases h
    | cons v rest => exact decodeNvmkey_fitsAt h
  | call => exact decodeCall_fitsAt h

/-- Settles O4: each word is decoded by evaluation. -/
theorem tableWordsDecode : Obligations.TableWordsDecode :=
  ⟨rfl, rfl, rfl, rfl, rfl, rfl, rfl, rfl, rfl⟩

end Sys2Proof
end

section
/-! SUPPORT. A frame sent over the bus, byte by byte, and the command it then is (43_transport_events.md); O30 and O31. -/

namespace Sys2Proof.Machine

/-! ### One byte (R243) -/

/-- The state after a byte that had room was received. -/
def storedByte (b : Byte) (s : State) : State :=
  { setBufByte s.wrPtr.toNat b s with wrPtr := s.wrPtr + 1, len := s.len + 1 }

theorem exec_dataRx_storedByte {s : State} (b : Byte) (hphase : s.phase = .receiving) (hlen : s.len.toNat < capBytes)
    (hwr : s.wrPtr.toNat < capBytes) : exec (.dataRx b) s = .next (storedByte b s) := by
  simp only [exec, execDataRx, dataRxEvent, hphase, hlen, hwr, if_true, storedByte]

theorem bufByte_storedByte (b : Byte) (s : State) (j : Nat) :
    bufByte (storedByte b s) j = if j = s.wrPtr.toNat then b else bufByte s j :=
  bufByte_setBufByte s.wrPtr.toNat j b s

theorem storedByte_len_toNat (b : Byte) {s : State} (hlen : s.len.toNat < capBytes) :
    (storedByte b s).len.toNat = s.len.toNat + 1 := by
  show (s.len + 1).toNat = s.len.toNat + 1
  simp only [capBytes, capWords] at hlen
  bv_omega

/-! ### A frame (R100) -/

/-- `t` is `s` after the bytes `bs` were stored at `s`'s write cursor, and nothing else happened. -/
structure Received (s : State) (bs : List Byte) (t : State) : Prop where
  len : t.len.toNat = s.len.toNat + bs.length
  wrPtr : t.wrPtr = t.len
  stored : ∀ k, k < bs.length → bufByte t (s.len.toNat + k) = bs.getD k 0
  before : ∀ j, j < s.len.toNat → bufByte t j = bufByte s j
  after : ∀ j, s.len.toNat + bs.length ≤ j → bufByte t j = bufByte s j
  frame : t = { s with buf := t.buf, len := t.len, wrPtr := t.wrPtr }

theorem Received.nil {s : State} (hwr : s.wrPtr = s.len) : Received s [] s :=
  ⟨rfl, hwr, nofun, fun _ _ => rfl, fun _ _ => rfl, rfl⟩

/-- The bytes after the first are received where the first one left the cursor. -/
theorem Received.cons {s t : State} {b : Byte} {bs : List Byte} (hwr : s.wrPtr = s.len) (hlen : s.len.toNat < capBytes)
    (h : Received (storedByte b s) bs t) : Received s (b :: bs) t := by
  obtain ⟨htlen, htwr, hstored, hbefore, hafter, hframe⟩ := h
  simp only [storedByte_len_toNat b hlen, bufByte_storedByte, hwr] at htlen hstored hbefore hafter
  refine ⟨?len, htwr, fun k hk => ?stored, fun j hj => ?before, fun j hj => ?after, hframe⟩
  case len =>
    rw [htlen, List.length_cons]
    omega
  case stored =>
    cases k with
    | zero => simpa using hbefore s.len.toNat (by omega)
    | succ k =>
      have hat := hstored k (Nat.lt_of_succ_lt_succ hk)
      rwa [Nat.add_right_comm] at hat
  case before => rw [hbefore j (by omega), if_neg (by omega)]
  case after =>
    rw [List.length_cons] at hj
    rw [hafter j (by omega), if_neg (by omega)]

/-- Bytes that have room are all received, in `ReceivingPhase` with the cursor where R26 has it. -/
theorem receiveAll_received (bs : List Byte) : ∀ {s : State}, s.phase = .receiving → s.wrPtr = s.len →
    s.len.toNat + bs.length ≤ capBytes → ∃ t, receiveAll bs s = .next t ∧ Received s bs t := by
  induction bs with
  | nil => exact fun {s} _ hwr _ => ⟨s, rfl, .nil hwr⟩
  | cons b bs ih =>
    intro s hphase hwr hfits
    rw [List.length_cons] at hfits
    have hlen : s.len.toNat < capBytes := by omega
    have hnext := storedByte_len_toNat b hlen
    obtain ⟨t, hrun, ht⟩ := ih (s := storedByte b s) hphase (congrArg (· + 1) hwr) (by omega)
    refine ⟨t, ?_, ht.cons hwr hlen⟩
    rw [receiveAll, exec_dataRx_storedByte b hphase hlen (hwr ▸ hlen), andThen_next, hrun]

/-- The buffer emptied for a new frame (R241). -/
def emptied (s : State) : State := { s with phase := .receiving, len := 0, wrPtr := 0, rdPtr := 0 }

theorem exec_addrWrite (s : State) : exec .addrWrite s = .next (emptied s) := rfl

/-- A whole frame, from its addressing on, in any state. -/
theorem addrWrite_received (s : State) {bs : List Byte} (hfits : bs.length ≤ capBytes) :
    ∃ t, andThen (exec .addrWrite s) (receiveAll bs) = .next t ∧ Received (emptied s) bs t := by
  have hroom : (emptied s).len.toNat + bs.length ≤ capBytes := (Nat.zero_add bs.length).symm ▸ hfits
  simpa only [exec_addrWrite, andThen_next] using receiveAll_received bs (s := emptied s) rfl rfl hroom

/-- In an emptied buffer frame byte `k` is `buf[k]`. -/
theorem Received.bufByte_emptied {s t : State} {bs : List Byte} (h : Received (emptied s) bs t) {k : Nat}
    (hk : k < bs.length) : bufByte t k = bs.getD k 0 := by
  have hat := h.stored k hk
  rwa [show (emptied s).len.toNat = 0 from rfl, Nat.zero_add] at hat

theorem Received.len_emptied {s t : State} {bs : List Byte} (h : Received (emptied s) bs t) : t.len.toNat = bs.length :=
  h.len.trans (Nat.zero_add _)

/-- Settles O30, by `receiveAll_received` from the emptied buffer. -/
theorem frameBytesLandInOrder : Obligations.FrameBytesLandInOrder := by
  intro s bs hfits
  obtain ⟨t, hrun, ht⟩ := addrWrite_received s hfits
  have hframe := ht.frame
  refine ⟨t, hrun, ht.len_emptied, ht.wrPtr, ?rdPtr, ?phase, fun k => ht.bufByte_emptied, fun k hk => ?after, hframe⟩
  case rdPtr => rw [hframe]; rfl
  case phase => rw [hframe]; rfl
  case after => exact ht.after k ((Nat.zero_add _).trans_le hk)

/-! ### The command in the buffer (R101 to R105) -/

/-- A buffer whose first bytes are a frame is that frame and whatever follows it. -/
theorem bufBytes_eq_append {t : State} {bs : List Byte} (hfits : bs.length ≤ capBytes)
    (hbytes : ∀ k, k < bs.length → bufByte t k = bs.getD k 0) : bufBytes t = bs ++ (bufBytes t).drop bs.length := by
  have htake : (bufBytes t).take bs.length = bs := by
    refine List.ext_getElem (by simpa [bufBytes] using hfits) fun k _ hk => ?_
    simpa [bufBytes, hk] using hbytes k hk
  calc bufBytes t = (bufBytes t).take bs.length ++ (bufBytes t).drop bs.length := (List.take_append_drop ..).symm
    _ = bs ++ (bufBytes t).drop bs.length := by rw [htake]

/-- A well-formed command's encoding fits in the buffer, and is complete by its length alone: INCOMPLETE's is empty, every other
command's has its opcode. -/
theorem encode_command {i : Instr} {len : Nat} (k : Keys) (hwf : i.wellFormed = true) (hat : i.standsAt (.buffer len)) :
    (encode k i).length ≤ capBytes ∧ i.standsAt (.buffer (encode k i).length) := by
  cases i with
  | incomplete => exact ⟨Nat.zero_le _, 0, by decide, rfl⟩
  | sync | info | boot | reboot | unknown => exact ⟨show 2 ≤ capBytes by decide, 2, by decide, rfl⟩
  | erase => exact ⟨show 4 ≤ capBytes by decide, 4, by decide, rfl⟩
  | write address count data =>
    have hdata : data.length = min count.toNat maxPayload := beq_iff_eq.1 hwf
    have hlength : (encode k (.write address count data)).length = 6 + 2 * data.length :=
      Laws.EncodedLength.write address count data k
    have hpayload : maxPayload = 61 := rfl
    have hcap : capBytes = 128 := rfl
    rw [hlength]
    refine ⟨by omega, _, ?_, rfl⟩
    show 2 ≤ 6 + 2 * data.length
    omega
  | _ => simp [Instr.standsAt] at hat

/-- Settles O31: the frame lands at the buffer's start (`addrWrite_received`), decoding an encoding gives the command back
(`decodeCommand_encode`), and a read addressing runs what the buffer decodes to (`addrRead_eq`). -/
theorem sentFrameIsTheCommandRun : Obligations.SentFrameIsTheCommandRun := by
  intro k s i hwf ⟨len, hat⟩
  obtain ⟨hfits, hstands⟩ := encode_command k hwf hat
  obtain ⟨t, hrun, ht⟩ := addrWrite_received s hfits
  have hfetch : fetchCommand t = i := by
    rw [fetchCommand, ht.len_emptied, bufBytes_eq_append hfits fun _ => ht.bufByte_emptied]
    exact decodeCommand_encode k _ hwf hstands
  refine ⟨t, hrun, hfetch, ?_⟩
  rw [addrRead_eq, hfetch]

end Sys2Proof.Machine
end

section
/-! SUPPORT. What a write of `NVMCON` does, one equation for each kind of request, and the accesses that have no row
(40_nvm_controller.md); O9, O32 to O39 and O49. -/

namespace Sys2Proof.Machine

/-! ### The fields a written byte leaves (R43, R138) -/

/-- `NVMCON` with these fields and no other bit set, and the sequencer relocked: what every write of `NVMCON` leaves before the
operation it requests. -/
def withFields (sp l f e : Bool) (s : State) : State :=
  { s with nvmcon := byteOfBits false sp l f false e false false, unlock := .locked }

theorem updateFields_byteOfBits (r sp l f r2 e c d : Bool) (s : State) :
    updateFields (byteOfBits r sp l f r2 e c d) s = withFields sp l f e s := by
  rw [updateFields, nvmconHeld_byteOfBits, withFields]

/-- The register holds its four fields and nothing else. -/
theorem nvmconHeld_eq_fields (v : Byte) :
    nvmconHeld v = byteOfBits false (conSpace v) (conLatchOnly v) (conErase v) false (conEn v) false false := by
  have h := nvmconHeld_byteOfBits (v.getLsbD 7) (v.getLsbD 6) (v.getLsbD 5) (v.getLsbD 4) (v.getLsbD 3) (v.getLsbD 2)
    (v.getLsbD 1) (v.getLsbD 0)
  rwa [byteOfBits_getLsbD] at h

/-! ### A write of `NVMCON`, by its request bits (R111) -/

section
variable (r sp l f r2 e : Bool) (s : State)

theorem regWriteCon_noRequest :
    regWriteCon (byteOfBits r sp l f r2 e false false) s = .next (withFields sp l f e s) := by
  rw [regWriteCon_fields (by simp) (by simp), updateFields_byteOfBits]

theorem regWriteCon_readRequest :
    regWriteCon (byteOfBits r sp l f r2 e false true) s =
      .next (if sp then readCfg (withFields sp l f e s) else readPm (withFields sp l f e s)) := by
  rw [regWriteCon_read (by simp) (by simp), updateFields_byteOfBits, conSpace_byteOfBits]

theorem regWriteCon_bothRequests :
    regWriteCon (byteOfBits r sp l f r2 e true true) s = .refused .readWithCommit := by
  simp [regWriteCon]

variable {e s} in
theorem regWriteCon_requestIgnored (hnot : s.unlock ≠ .unlocked ∨ e = false) :
    regWriteCon (byteOfBits r sp l f r2 e true false) s = .next (withFields sp l f e s) := by
  rw [regWriteCon_ignored (by simp) (by simp) (by simpa using hnot), updateFields_byteOfBits]

variable {s} in
/-- The request an unlocked sequencer performs: none on the configuration space, and `ERASE` before `LATCHONLY`. -/
theorem regWriteCon_requestPerformed (hunlocked : s.unlock = .unlocked) :
    regWriteCon (byteOfBits r sp l f r2 true true false) s =
      if sp then .refused .commitToConfig
      else if f then doErase (withFields sp l f true s)
      else if l then .next (doLatch (withFields sp l f true s))
      else doCommit (withFields sp l f true s) := by
  rw [regWriteCon_performed (by simp) (by simp) hunlocked (by simp), updateFields_byteOfBits, commitOperation,
    conSpace_byteOfBits, conErase_byteOfBits, conLatchOnly_byteOfBits]

end

/-! ### The operations in and out of range (R132, R133, R135, R136, R142(c)) -/

section
variable {s : State}

theorem readPm_inRange (h : s.nvmadr.toNat < s.dev.flashWords) : readPm s = setDat (pmWord s s.nvmadr.toNat) s := if_pos h

theorem readPm_outOfRange (h : s.dev.flashWords ≤ s.nvmadr.toNat) : readPm s = setDatAny s := if_neg (Nat.not_lt.2 h)

theorem readCfg_populated (h : inCfg s.dev s.nvmadr.toNat = true) : readCfg s = setDat (cfgWord s s.nvmadr.toNat) s :=
  if_pos h

theorem readCfg_unpopulated (h : inCfg s.dev s.nvmadr.toNat = false) : readCfg s = setDatAny s :=
  if_neg (Bool.eq_false_iff.1 h)

theorem doCommit_inRange (h : s.nvmadr.toNat < s.dev.flashWords) :
    doCommit s = .next (commitRow (rowBase s.dev s.nvmadr.toNat) (doLatch s)) := if_pos h

theorem doCommit_outOfRange (h : s.dev.flashWords ≤ s.nvmadr.toNat) : doCommit s = .refused .invalidTarget :=
  if_neg (Nat.not_lt.2 h)

theorem doErase_inRange (h : s.nvmadr.toNat < s.dev.flashWords) :
    doErase s = .next (setPmRow (rowBase s.dev s.nvmadr.toNat) (fun _ => some s.dev.eraseValue) s) := if_pos h

theorem doErase_outOfRange (h : s.dev.flashWords ≤ s.nvmadr.toNat) : doErase s = .refused .invalidTarget :=
  if_neg (Nat.not_lt.2 h)

end

/-! ### The rows that request a commit, while `Unlocked` (R134 to R136) -/

section
variable {s : State}

theorem exec_nvmLatch_unlocked (hunlocked : s.unlock = .unlocked) (r r2 : Bool) :
    exec (.nvmLatch r r2) s = .next (doLatch (withFields false true false true s)) :=
  regWriteCon_requestPerformed r false true false r2 hunlocked

theorem exec_nvmCommit_unlocked (hunlocked : s.unlock = .unlocked) (r r2 : Bool) :
    exec (.nvmCommit r r2) s = doCommit (withFields false false false true s) :=
  regWriteCon_requestPerformed r false false false r2 hunlocked

theorem exec_nvmErase_unlocked (hunlocked : s.unlock = .unlocked) (r l r2 : Bool) :
    exec (.nvmErase r l r2) s = doErase (withFields false l true true s) :=
  regWriteCon_requestPerformed r false l true r2 hunlocked

end

/-- Settles O34: the operation loads one latch of the state whose fields and sequencer alone were changed. -/
theorem nvmLatchLoadsOneLatch : Obligations.NvmLatchLoadsOneLatch := by
  intro s r r2 hunlocked
  refine ⟨_, exec_nvmLatch_unlocked hunlocked r r2, fun i => ?latch, fun i => ?loaded, rfl⟩
  case latch => exact latchWord_loadLatch (latchIndex s.dev s.nvmadr.toNat) i s.nvmdat (withFields false true false true s)
  case loaded => exact isLoaded_loadLatch (latchIndex s.dev s.nvmadr.toNat) i s.nvmdat (withFields false true false true s)

/-- Settles O35: the commit is of the row as it is after the addressed latch was loaded. -/
theorem nvmCommitProgramsTheRow : Obligations.NvmCommitProgramsTheRow := by
  intro s r r2 hunlocked hrange
  have hexec := (exec_nvmCommit_unlocked hunlocked r r2).trans (doCommit_inRange hrange)
  refine ⟨_, hexec, fun x => ?pm, fun i => ?latch, rfl⟩
  case pm => exact pmWord_commitRow_loadLatch (withFields false false false true s) s.nvmadr.toNat s.nvmdat x
  case latch => exact latchWord_loadLatch (latchIndex s.dev s.nvmadr.toNat) i s.nvmdat (withFields false false false true s)

/-- Settles O36: an erase is a row change with the erased word at every cell. -/
theorem nvmEraseErasesTheRow : Obligations.NvmEraseErasesTheRow := by
  intro s r l r2 hunlocked hrange
  have hexec := (exec_nvmErase_unlocked hunlocked r l r2).trans (doErase_inRange hrange)
  exact ⟨_, hexec, pmWord_setPmRow_erase (withFields false l true true s) s.nvmadr.toNat, rfl⟩

/-! ### The handshake (R143) -/

/-- What a failed or empty handshake leaves: the request byte's fields are those `NVMCON` held. -/
theorem updateFields_withCommit (s : State) :
    updateFields (withCommit (nvmconHeld s.nvmcon)) s = { s with nvmcon := nvmconHeld s.nvmcon, unlock := .locked } := by
  obtain ⟨-, -, -, -, -, -, hheld⟩ := withCommit_fields s.nvmcon
  rw [updateFields, hheld]

/-- From `Locked` the handshake runs, unlocked, the row of the byte it writes. -/
theorem exec_unlockAndCommit_locked {s : State} (hgie : s.gie = false) (hlocked : s.unlock = .locked) :
    exec .unlockAndCommit s = exec (decodeNvmcon (nvmconHeld s.nvmcon ||| 0x02)) { s with unlock := .unlocked } := by
  rw [exec_decodeNvmcon]
  exact unlockThenCommit_locked hgie hlocked

theorem exec_unlockAndCommit_disabled {s : State} (hgie : s.gie = false) (hlocked : s.unlock = .locked)
    (hen : conEn s.nvmcon = false) :
    exec .unlockAndCommit s = .next { s with nvmcon := nvmconHeld s.nvmcon, unlock := .locked } := by
  obtain ⟨hcommit, hread, -, -, -, hen', -⟩ := withCommit_fields s.nvmcon
  calc exec .unlockAndCommit s
      = regWriteCon (withCommit (nvmconHeld s.nvmcon)) { s with unlock := .unlocked } :=
        unlockThenCommit_locked hgie hlocked
    _ = .next (updateFields (withCommit (nvmconHeld s.nvmcon)) { s with unlock := .unlocked }) :=
        regWriteCon_ignored hcommit hread (.inr (hen'.trans hen))
    _ = _ := congrArg _ (updateFields_withCommit { s with unlock := .unlocked })

/-- Settles O49: while `Locked` the request is the row the fields select, so that O34, O35 and O36 say what it does. -/
theorem handshakePerformsTheRequest : Obligations.HandshakePerformsTheRequest := by
  intro s
  refine ⟨unlockThenCommit_preemptible, fun hgie hunlock => ?notLocked, fun hgie hlocked => ?locked⟩
  case notLocked => exact (unlockThenCommit_notLocked hgie hunlock).trans (congrArg _ (updateFields_withCommit s))
  case locked =>
    have hrow := exec_unlockAndCommit_locked hgie hlocked
    refine ⟨hrow, exec_unlockAndCommit_disabled hgie hlocked, fun hheld => ?latch, fun hheld hrange => ?commit,
      fun hheld hrange => ?erase⟩
    case latch =>
      obtain ⟨t, hexec, hlatch, hloaded, hframe⟩ := nvmLatchLoadsOneLatch { s with unlock := .unlocked } false false rfl
      rw [hheld] at hrow
      exact ⟨t, hrow.trans hexec, hlatch, hloaded, by rwa [← hlocked] at hframe⟩
    case commit =>
      obtain ⟨t, hexec, hpm, hlatch, hframe⟩ :=
        nvmCommitProgramsTheRow { s with unlock := .unlocked } false false rfl hrange
      rw [hheld] at hrow
      exact ⟨t, hrow.trans hexec, hpm, hlatch, by rwa [← hlocked] at hframe⟩
    case erase =>
      obtain ⟨t, hexec, hpm, hframe⟩ :=
        nvmEraseErasesTheRow { s with unlock := .unlocked } false false false rfl hrange
      rw [hheld] at hrow
      exact ⟨t, hrow.trans hexec, hpm, by rwa [← hlocked] at hframe⟩

/-! ### The rows that read (R132, R133) -/

theorem exec_nvmReadPm (r l f r2 e : Bool) (s : State) :
    exec (.nvmReadPm r l f r2 e) s = .next (readPm (withFields false l f e s)) :=
  regWriteCon_readRequest r false l f r2 e s

theorem exec_nvmReadCfg (r l f r2 e : Bool) (s : State) :
    exec (.nvmReadCfg r l f r2 e) s = .next (readCfg (withFields true l f e s)) :=
  regWriteCon_readRequest r true l f r2 e s

/-- Settles O32: the fields are no part of what is read. -/
theorem nvmReadsProgramSpace : Obligations.NvmReadsProgramSpace := by
  intro s r l f r2 e
  rw [exec_nvmReadPm]
  refine ⟨fun hrange => ?inRange, fun hrange => ?outOfRange⟩
  case inRange => exact congrArg _ (readPm_inRange (s := withFields false l f e s) hrange)
  case outOfRange => exact congrArg _ (readPm_outOfRange (s := withFields false l f e s) hrange)

/-- Settles O33, as O32. -/
theorem nvmReadsConfigurationSpace : Obligations.NvmReadsConfigurationSpace := by
  intro s r l f r2 e
  rw [exec_nvmReadCfg]
  refine ⟨fun hpopulated => ?populated, fun hpopulated => ?unpopulated⟩
  case populated => exact congrArg _ (readCfg_populated (s := withFields true l f e s) hpopulated)
  case unpopulated => exact congrArg _ (readCfg_unpopulated (s := withFields true l f e s) hpopulated)

/-! ### Requests that are ignored or refused (R137, R142) -/

/-- Settles O37: the four rows are commit requests that differ in their fields alone. -/
theorem commitRequestIgnored : Obligations.CommitRequestIgnored := by
  intro s r sp l f r2 e
  refine ⟨fun hlocked => ⟨?latch, ?commit, ?erase⟩, fun hnot => ?ignored⟩
  case latch => exact regWriteCon_requestIgnored r false true false r2 (.inl hlocked)
  case commit => exact regWriteCon_requestIgnored r false false false r2 (.inl hlocked)
  case erase => exact regWriteCon_requestIgnored r false l true r2 (.inl hlocked)
  case ignored => exact regWriteCon_requestIgnored r sp l f r2 hnot

/-- Settles O39: `SPACE` is decided first, and the two operations on program memory look at the address. -/
theorem undefinedRequestsAreRefused : Obligations.UndefinedRequestsAreRefused := by
  intro s r sp l f r2 e
  refine ⟨regWriteCon_bothRequests r sp l f r2 e s, fun hunlocked => ⟨?space, fun hrange => ⟨?commit, ?erase⟩⟩⟩
  case space => exact regWriteCon_requestPerformed r true l f r2 hunlocked
  case commit => exact (exec_nvmCommit_unlocked hunlocked r r2).trans (doCommit_outOfRange hrange)
  case erase => exact (exec_nvmErase_unlocked hunlocked r l r2).trans (doErase_outOfRange hrange)

/-! ### Accesses without a request (R138, R139, R141) -/

/-- A read of a register has no row, whatever the register. -/
theorem step_read {s : State} {x : NvmReg} (h : TakesInput s (.access (.read x))) :
    step s = .next { takeInput (clearOutputs s) with result := [regValue s x], unlock := .locked } := by
  rw [step_access_plain h rfl]
  rfl

/-- Settles O38: `regWriteCon_noRequest` for the write, and the held fields for the read. -/
theorem nvmconFieldsAreWrittenAndRead : Obligations.NvmconFieldsAreWrittenAndRead := by
  intro s r sp l f r2 e
  refine ⟨regWriteCon_noRequest r sp l f r2 e s, fun htake => ?read⟩
  case read => rw [step_read htake, regValue, nvmconHeld_eq_fields]

/-- A change of `GIE` is taken as it stands (R44). -/
theorem step_setGie {s : State} {b : Bool} (h : TakesInput s (.setGie b)) :
    step s = .next { takeInput (clearOutputs s) with gie := b } := by
  obtain ⟨hrun, hevt, hhead⟩ := h
  obtain ⟨rest, hin⟩ := List.head?_eq_some_iff.1 hhead
  have hjob : nextJob s = .setGie b := by simp [nextJob, hin, hrun, hevt]
  simp [step, hjob]

/-- Settles O9: none of the accesses has a row, so the step makes it as it stands. -/
theorem plainAccesses : Obligations.PlainAccesses := by
  intro s
  refine ⟨fun v htake => ?writeAdr, fun v htake => ?writeDat, fun htake => ?readAdr, fun htake => ?readDat,
    fun htake => ?idle, fun b htake => ?setGie⟩
  case writeAdr => exact step_access_plain htake rfl
  case writeDat => exact step_access_plain htake rfl
  case readAdr => exact step_read htake
  case readDat => exact step_read htake
  case idle => exact step_access_plain htake rfl
  case setGie => exact step_setGie htake

end Sys2Proof.Machine
end

section
/-! SUPPORT. The net effect of each driver operation (41_nvm_driver_ops.md), assembled from what its accesses do, and that every
instruction but a re-entry gives `GIE` back; O42 to O48 and O50. -/

namespace Sys2Proof.Machine

/-! ### One word (R171, R172) -/

/-- Settles O42: the word read is the one the accesses left in `NVMDAT`. -/
theorem readWordNetEffect : Obligations.ReadWordNetEffect := by
  intro s address
  have hexec : exec (.readWord address) s =
      andThen (readWordAccesses address s) fun u => .next { u with result := [u.nvmdat] } := rfl
  rw [hexec, readWordAccesses_eq, andThen_next]
  refine ⟨fun hrange => ?inRange, fun hrange => ?outOfRange⟩
  case inRange => rw [if_pos hrange]
  case outOfRange => rw [if_neg (Nat.not_lt.2 hrange)]

/-- The state in which `readConfigWord`'s read request is performed. -/
def addressedConfig (address : Word) (s : State) : State :=
  { s with nvmadr := address, nvmcon := 0x40, unlock := .locked }

/-- `readConfigWord` returns what the request left in `NVMDAT`. -/
theorem exec_readConfigWord (address : Word) (s : State) :
    exec (.readConfigWord address) s =
      .next { readCfg (addressedConfig address s) with
        unlock := .locked, result := [(readCfg (addressedConfig address s)).nvmdat] } := by
  have hspace : conSpace 0x41 = true := by decide
  have hheld : updateFields 0x41 (regWriteAdr address s) = addressedConfig address s := rfl
  have hexec : exec (.readConfigWord address) s =
      andThen (regWriteCon 0x41 (regWriteAdr address s)) fun u => .next { regRead .dat u with result := [u.nvmdat] } := rfl
  rw [hexec, regWriteCon_read (by decide) (by decide), hspace, if_pos rfl, hheld]
  rfl

/-- Settles O43: the fields are no part of what is read, as in O33. -/
theorem readConfigWordNetEffect : Obligations.ReadConfigWordNetEffect := by
  intro s address
  rw [exec_readConfigWord]
  refine ⟨fun hpopulated => ?populated, fun hpopulated => ?unpopulated⟩
  case populated => rw [readCfg_populated (s := addressedConfig address s) hpopulated]; rfl
  case unpopulated => rw [readCfg_unpopulated (s := addressedConfig address s) hpopulated]; rfl

/-! ### A block of words (R173) -/

/-- `t` is `s` but for the controller's registers and its sequencer, and for the free words drawn. -/
def SameButReads (s t : State) : Prop :=
  t = { s with
    nvmadr := t.nvmadr, nvmdat := t.nvmdat, nvmcon := t.nvmcon, unlock := t.unlock, draws := t.draws }

theorem SameButReads.trans {s t u : State} (h : SameButReads s t) (k : SameButReads t u) : SameButReads s u := by
  unfold SameButReads at h
  refine Eq.trans k ?_
  rw [h]

theorem SameButReads.dev {s t : State} (h : SameButReads s t) : t.dev = s.dev := by rw [h]

theorem SameButReads.pmWord {s t : State} (h : SameButReads s t) (x : Nat) : pmWord t x = pmWord s x :=
  pmWord_congr h.dev (by rw [h]) x

/-- What one word's accesses at `address` leave (R171). -/
structure WordRead (s : State) (address : Word) (t : State) : Prop where
  nvmadr : t.nvmadr = address
  nvmcon : t.nvmcon = 0x00
  unlock : t.unlock = .locked
  inRange : address.toNat < s.dev.flashWords → t.nvmdat = pmWord s address.toNat
  trunc : s.dev.trunc t.nvmdat = t.nvmdat
  frame : SameButReads s t

theorem readWordAccesses_wordRead (address : Word) (s : State) :
    ∃ t, readWordAccesses address s = .next t ∧ WordRead s address t := by
  refine ⟨_, readWordAccesses_eq address s, ?_⟩
  split
  · exact ⟨rfl, rfl, rfl, fun _ => rfl, s.dev.trunc_trunc _, rfl⟩
  · next hrange => exact ⟨rfl, rfl, rfl, fun h => absurd h hrange, s.dev.trunc_trunc _, rfl⟩

/-- `ws` are the words that reads from `address` on find one after another, and `t` is where they end. -/
inductive BlockRead : State → Word → List Word → State → Prop
  | nil {s : State} {address : Word} : BlockRead s address [] s
  | cons {s u t : State} {address : Word} {ws : List Word} (hread : WordRead s address u)
      (hrest : BlockRead u (address + 1) ws t) : BlockRead s address (u.nvmdat :: ws) t

/-- The loop reads as many words as it is asked for and appends them to those it has. -/
theorem readBlockLoop_blockRead (n : Nat) : ∀ (address : Word) (out : List Word) (s : State),
    ∃ ws t, readBlockLoop n address out s = .next { t with result := out ++ ws } ∧ ws.length = n ∧
      BlockRead s address ws t := by
  induction n with
  | zero => exact fun address out s => ⟨[], s, by rw [List.append_nil]; rfl, rfl, .nil⟩
  | succ n ih =>
    intro address out s
    obtain ⟨u, hu, hread⟩ := readWordAccesses_wordRead address s
    obtain ⟨ws, t, hloop, hlen, hrest⟩ := ih (address + 1) (out ++ [u.nvmdat]) u
    refine ⟨u.nvmdat :: ws, t, ?_, congrArg (· + 1) hlen, .cons hread hrest⟩
    rw [readBlockLoop, hu, andThen_next, hloop, List.append_assoc]
    rfl

section
variable {s t : State} {address : Word} {ws : List Word}

theorem BlockRead.frame (h : BlockRead s address ws t) : SameButReads s t := by
  induction h with
  | nil => exact rfl
  | cons hread _ ih => exact hread.frame.trans ih

/-- Reading changes no program memory, so a later word is the one `s` holds. -/
theorem BlockRead.getD_inRange (h : BlockRead s address ws t) :
    ∀ i, i < ws.length → (address + BitVec.ofNat 16 i).toNat < s.dev.flashWords →
      ws.getD i 0 = pmWord s (address + BitVec.ofNat 16 i).toNat := by
  induction h with
  | nil => exact fun i hi => absurd hi (Nat.not_lt_zero i)
  | @cons s u t address ws hread hrest ih =>
    intro i hi hrange
    cases i with
    | zero =>
      rw [BitVec.add_zero] at hrange ⊢
      exact hread.inRange hrange
    | succ i =>
      have hnext : address + BitVec.ofNat 16 (i + 1) = address + 1 + BitVec.ofNat 16 i := by
        rw [BitVec.add_assoc, Nat.add_comm i 1, BitVec.ofNat_add]
        rfl
      rw [hnext] at hrange ⊢
      rw [List.getD_cons_succ, ih i (Nat.lt_of_succ_lt_succ hi) (by rwa [hread.frame.dev]), hread.frame.pmWord]

theorem BlockRead.trunc_getD (h : BlockRead s address ws t) :
    ∀ i, i < ws.length → s.dev.trunc (ws.getD i 0) = ws.getD i 0 := by
  induction h with
  | nil => exact fun i hi => absurd hi (Nat.not_lt_zero i)
  | cons hread hrest ih =>
    intro i hi
    cases i with
    | zero => exact hread.trunc
    | succ i =>
      rw [List.getD_cons_succ, ← hread.frame.dev]
      exact ih i (Nat.lt_of_succ_lt_succ hi)

/-- The registers are as the last word's accesses left them. -/
theorem BlockRead.registers (h : BlockRead s address ws t) (hws : ws ≠ []) :
    t.nvmadr = address + BitVec.ofNat 16 (ws.length - 1) ∧ t.nvmdat = ws.getD (ws.length - 1) 0 ∧
      t.nvmcon = 0x00 ∧ t.unlock = .locked := by
  induction h with
  | nil => exact absurd rfl hws
  | @cons s u t address ws hread hrest ih =>
    cases ws with
    | nil =>
      cases hrest
      exact ⟨hread.nvmadr.trans (BitVec.add_zero address).symm, rfl, hread.nvmcon, hread.unlock⟩
    | cons w ws =>
      obtain ⟨hadr, hdat, hcon, hunlock⟩ := ih (List.cons_ne_nil w ws)
      refine ⟨hadr.trans ?_, hdat, hcon, hunlock⟩
      simp only [List.length_cons, Nat.add_sub_cancel]
      rw [BitVec.add_assoc, Nat.add_comm ws.length 1, BitVec.ofNat_add]
      rfl

end

/-- Settles O44: one lemma about the words read for each clause. -/
theorem readBlockReadsCountWords : Obligations.ReadBlockReadsCountWords := by
  intro s address count
  refine ⟨fun hzero => by subst hzero; rfl, ?_⟩
  obtain ⟨ws, t, hloop, hlen, hread⟩ := readBlockLoop_blockRead count.toNat address [] s
  have hgetD := hread.getD_inRange
  have htrunc := hread.trunc_getD
  have hregisters := hread.registers
  rw [hlen] at hgetD htrunc hregisters
  refine ⟨_, hloop, hlen, hgetD, htrunc, fun hcount => ?registers, ?frame⟩
  case registers =>
    have hws : ws ≠ [] := by
      rintro rfl
      exact hcount (BitVec.eq_of_toNat_eq hlen.symm)
    obtain ⟨hadr, hdat, hcon, hunlock⟩ := hregisters hws
    have hlast : BitVec.ofNat 16 (count.toNat - 1) = count - 1 := by bv_omega
    exact ⟨hadr.trans (by rw [hlast]), hdat, hcon, hunlock⟩
  case frame => exact congrArg (fun v : State => { v with result := ws }) hread.frame

/-! ### One word staged, one row programmed or erased (R174 to R176) -/

/-- Settles O45: the operation loads one latch. -/
theorem writeWordLatchNetEffect : Obligations.WriteWordLatchNetEffect := by
  intro s address data
  refine ⟨_, writeWordLatch_eq address data s, fun i => ?latch, fun i => ?loaded, rfl⟩
  case latch => exact latchWord_loadLatch (latchIndex s.dev address.toNat) i data s
  case loaded => exact isLoaded_loadLatch (latchIndex s.dev address.toNat) i data s

/-- Settles O46: the commit is of the row as it is after the addressed latch was loaded. -/
theorem writeWordCommitNetEffect : Obligations.WriteWordCommitNetEffect := by
  intro s address data
  refine ⟨fun hrange => ⟨_, writeWordCommit_eq hrange data, fun x => ?pm, fun i => ?latch, rfl⟩,
    fun hrange => writeWordCommit_refused hrange data⟩
  case pm => exact pmWord_commitRow_loadLatch s address.toNat data x
  case latch => exact latchWord_loadLatch (latchIndex s.dev address.toNat) i data s

/-- Settles O47: the erase is a row change with the erased word at every cell. -/
theorem eraseRowNetEffect : Obligations.EraseRowNetEffect := fun s address =>
  ⟨fun hrange => ⟨_, eraseRow_eq hrange, pmWord_setPmRow_erase s address.toNat, rfl⟩, eraseRow_refused⟩

/-! ### A row write (R178) -/

section
variable {s : State} {address : Word} {words : List Word}

theorem rowWrite_rowCrossing (hwords : words ≠ []) (hrow : inOneRow s.dev address words.length = false) :
    rowWrite address words s = .refused .rowCrossing := by
  rw [rowWrite, if_neg hwords, hrow]
  rfl

theorem rowWrite_invalidTarget (hwords : words ≠ []) (hrow : inOneRow s.dev address words.length = true)
    (htarget : validTarget s.dev address words.length = false) :
    rowWrite address words s = .refused .invalidTarget := by
  rw [rowWrite, if_neg hwords, hrow, htarget]
  rfl

theorem rowWrite_allowed (hwords : words ≠ []) (hrow : inOneRow s.dev address words.length = true)
    (htarget : validTarget s.dev address words.length = true) :
    rowWrite address words s = rowWriteLoop address words s := by
  rw [rowWrite, if_neg hwords, hrow, htarget]
  rfl

end

/-- Settles O48: where no latch was loaded on entry, the loaded words of the row that `rowWriteLoop_spec` leaves room for are
none. -/
theorem rowWriteNetEffect : Obligations.RowWriteNetEffect := by
  intro s address words
  refine ⟨fun hwords => by subst hwords; rfl, fun hallowed hunloaded => ?allowed, rowWrite_rowCrossing,
    rowWrite_invalidTarget⟩
  case allowed =>
    obtain ⟨hlen, hrow, htarget⟩ := hallowed
    have hwords : words ≠ [] := List.ne_nil_of_length_pos hlen
    obtain ⟨t, hloop, hpm, hlatch, hframe⟩ :=
      rowWriteLoop_spec words address s hwords (of_decide_eq_true hrow) (validTarget_bound htarget)
    refine ⟨t, (rowWrite_allowed hwords hrow htarget).trans hloop, fun x => ?pm, hlatch, ?frame⟩
    case pm => simpa [hunloaded] using hpm x
    case frame =>
      have hsaved : t.gieSaved = s.gie := by rw [hframe]
      rwa [hsaved]

/-! ### The interrupt enable (R177, R216, R277, R321) -/

theorem writeCommand_gie {address count : Word} {data : List Word} {s t : State}
    (h : writeCommand address count data s = .next t) : t.gie = s.gie := by
  unfold writeCommand at h
  split at h
  · cases h
  · obtain ⟨v, hv, h⟩ := andThen_eq_next.1 h
    cases h
    exact (keeps_rowWrite hv).gie

theorem eraseCommand_gie {address : Word} {s t : State} (h : eraseCommand address s = .next t) : t.gie = s.gie := by
  unfold eraseCommand at h
  split at h
  · cases h
  · obtain ⟨v, hv, h⟩ := andThen_eq_next.1 h
    cases h
    exact (keeps_erase hv).gie

theorem dataReqEvent_gie {s t : State} (h : dataReqEvent s = .next t) : t.gie = s.gie := by
  rcases dataReqEvent_next h with ⟨-, -, rfl⟩ | rfl <;> rfl

theorem dataRxEvent_gie {b : Byte} {s t : State} (hphase : s.phase = .receiving) (h : dataRxEvent b s = .next t) :
    t.gie = s.gie := by
  cases eventEffect_dataRx hphase h <;> rfl

/-- The instructions that neither re-enter nor run the command in the buffer. -/
theorem exec_gie {i : Instr} {s t : State} (h : exec i s = .next t) (hunknown : ∀ opcode, i ≠ .unknown opcode)
    (hread : i ≠ .addrRead) : t.gie = s.gie := by
  cases i with
  | incomplete | sync | info | boot | reboot => cases h; rfl
  | write address count data => exact writeCommand_gie h
  | erase address => exact eraseCommand_gie h
  | unknown opcode => exact absurd rfl (hunknown opcode)
  | addrRead => exact absurd rfl hread
  | addrWrite | dataRxWrongPhase | dataReqWrongPhase => cases h; rfl
  | dataRx b =>
    simp only [exec, execDataRx] at h
    split at h
    · next hphase => exact dataRxEvent_gie hphase h
    · cases h; rfl
  | dataReq =>
    simp only [exec, execDataReq] at h
    split at h
    · exact dataReqEvent_gie h
    · cases h; rfl
  | _ => exact (keeps_nvm rfl h).gie

/-- The command a read addressing runs is itself no event, and UNKNOWN only where UNKNOWN is selected. -/
theorem fetchCommand_ne {s : State} (hselected : selectedCommand s ≠ .unknown) :
    (∀ opcode, fetchCommand s ≠ .unknown opcode) ∧ fetchCommand s ≠ .addrRead := by
  unfold fetchCommand decodeCommand
  cases hkind : commandKind s.len.toNat (frameWord (bufBytes s) 0) with
  | unknown => exact absurd hkind hselected
  | incomplete | sync | info | boot | reboot | write | erase => exact ⟨nofun, nofun⟩

/-- Settles O50: a read addressing runs the command in the buffer, and every other instruction is one of `exec_gie`'s. -/
theorem interruptEnableIsRestored : Obligations.InterruptEnableIsRestored := by
  intro i s t h hunknown hselected
  by_cases hread : i = .addrRead
  case neg => exact exec_gie h hunknown hread
  case pos =>
    subst hread
    rw [addrRead_eq] at h
    obtain ⟨hne, hevent⟩ := fetchCommand_ne (hselected rfl)
    exact exec_gie (s := { s with phase := .replying }) h hne hevent

end Sys2Proof.Machine
end

section
/-! SUPPORT. What each command of the dispatcher does (42_dispatcher_commands.md): the reply, and what else changes; O15 to O17
and O20 to O23. -/

namespace Sys2Proof.Machine

/-! ### Single-word replies (R202) -/

/-- A command that only replies. -/
theorem replies_of_exec_eq_reply {i : Instr} {v : Word} {s : State} (h : exec i s = .next (reply v s)) :
    ∃ t, exec i s = .next t ∧ RepliesWith v s t ∧ t = { s with buf := t.buf, rdPtr := 0, len := 2 } :=
  ⟨reply v s, h, reply_repliesWith v s⟩

/-- A command that replies after work that left the buffer alone. -/
theorem repliesWith_of_sameBuffer {s u : State} (hepoch : u.bufEpoch = s.bufEpoch) (hbuf : u.buf = s.buf) (v : Word) :
    RepliesWith v s (reply v u) := by
  obtain ⟨hword, hrest, hrdPtr, hlen⟩ := (reply_repliesWith v u).1
  exact ⟨hword, fun i hi => (hrest i hi).trans (bufByte_congr hepoch hbuf i), hrdPtr, hlen⟩

theorem exec_sync (s : State) : exec .sync s = .next (reply 0x0001 s) := rfl

theorem exec_boot (s : State) : exec .boot s = .next (reply 0x0003 s) := rfl

theorem exec_incomplete (s : State) : exec .incomplete s = .next (reply 0x0000 s) := rfl

/-- Settles O15: both commands are the reply primitive alone. -/
theorem syncAndBootEcho : Obligations.SyncAndBootEcho := fun s =>
  ⟨replies_of_exec_eq_reply (exec_sync s), replies_of_exec_eq_reply (exec_boot s)⟩

/-- Settles O16: the decoder looks at `len` before it looks at the buffer, as O5 says. -/
theorem incompleteRepliesZero : Obligations.IncompleteRepliesZero := by
  intro s
  refine ⟨replies_of_exec_eq_reply (exec_incomplete s), fun hlen => ?short⟩
  case short =>
    have hfetch : fetchCommand s = .incomplete := (completenessBeforeOpcode s.len.toNat (bufBytes s)).1 hlen
    rw [addrRead_eq, hfetch]

/-! ### The INFO record (R205, R206) -/

/-- The packed text, word by word; past its end both sides are zero. -/
theorem packText_getD : ∀ (text : List Byte) (j : Nat),
    (packText text).getD j 0 = wordOf (text.getD (2 * j) 0) (text.getD (2 * j + 1) 0)
  | [], _ => by simp only [packText, List.getD_nil]; rfl
  | [_], 0 => rfl
  | [_], j + 1 => packText_getD [] j
  | _ :: _ :: _, 0 => rfl
  | _ :: _ :: rest, j + 1 => packText_getD rest j

/-- The text stands after the fourteen words of markers, tags and values. -/
theorem infoRecord_getD_text (c : Config) (j : Nat) :
    (infoRecord c).getD (14 + j) 0 = wordOf (c.text.getD (2 * j) 0) (c.text.getD (2 * j + 1) 0) := by
  rw [infoRecord, List.getD_append_right _ _ _ _ (Nat.le_add_right 14 j)]
  simpa using packText_getD c.text j

/-- The state in which INFO's record is to be read from its start. -/
def infoReply (s : State) : State :=
  { setBufWords 0 (infoRecord s.dev) s with rdPtr := 0, len := BitVec.ofNat 8 s.dev.infoSize }

theorem exec_info (s : State) : exec .info s = .next (infoReply s) := rfl

theorem bufWord_infoReply (s : State) {k : Nat} (hk : k < s.dev.infoWords) :
    bufWord (infoReply s) k = (infoRecord s.dev).getD k 0 := by
  have hstored : 0 ≤ k ∧ k < 0 + (infoRecord s.dev).length := by rw [infoRecord_length]; omega
  exact (bufWord_setBufWords 0 (infoRecord s.dev) s k).trans (if_pos hstored)

/-- Markers, tags and values: every record has these fourteen words. -/
theorem bufWord_infoReply_head (s : State) (k : Fin 14) : bufWord (infoReply s) k = (infoRecord s.dev).getD k 0 :=
  bufWord_infoReply s (Nat.lt_of_lt_of_le k.isLt (Nat.le_add_right 14 _))

theorem bufByte_infoReply_past (s : State) {i : Nat} (hi : s.dev.infoSize ≤ i) :
    bufByte (infoReply s) i = bufByte s i := by
  have hpast : ¬(2 * 0 ≤ i ∧ i < 2 * (0 + (infoRecord s.dev).length)) := by
    rw [infoRecord_length]
    unfold Config.infoSize at hi
    omega
  exact (bufByte_setBufWords 0 (infoRecord s.dev) s i).trans (if_neg hpast)

/-- Settles O17: each word is read back from where INFO stored the record. -/
theorem infoBuildsTheRecord : Obligations.InfoBuildsTheRecord := by
  intro s
  have hhead := bufWord_infoReply_head s
  refine ⟨infoReply s, exec_info s, hhead 0, hhead 1, hhead 2, hhead 3, hhead 4, hhead 5, hhead 6, hhead 7, hhead 8,
    hhead 9, hhead 10, hhead 11, hhead 12, hhead 13, fun j hj => ?text, fun i hi => bufByte_infoReply_past s hi,
    infoSize_toNat s.dev, rfl⟩
  case text => rw [bufWord_infoReply s (Nat.add_lt_add_left hj 14), infoRecord_getD_text]

/-! ### WRITE (R209, R212) -/

section
variable {address count : Word} {data : List Word} {s : State}

theorem exec_write_pastBuffer (hcount : 61 < count.toNat) :
    exec (.write address count data) s = .refused .payloadPastBuffer := if_pos hcount

/-- A count the buffer can hold makes WRITE a row write and the echo. -/
theorem exec_write_fits (hcount : count.toNat ≤ 61) :
    exec (.write address count data) s = andThen (rowWrite address data s) fun u => .next (reply 0x000B u) :=
  if_neg (Nat.not_lt.2 hcount)

/-- The last word's address, as the driver counts it, is the one the command's count gives. -/
theorem ofNat_pred_toNat (hcount : 1 ≤ count.toNat) : BitVec.ofNat 16 (count.toNat - 1) = count - 1 := by
  bv_omega

end

/-- Settles O20: the row write is O48's, and the reply touches the buffer and its cursors alone. -/
theorem writeProgramsTheWords : Obligations.WriteProgramsTheWords := by
  intro s address count data hlen hcount hallowed hunloaded
  obtain ⟨-, hrowWrite, -, -⟩ := rowWriteNetEffect s address data
  obtain ⟨u, hexec, hpm, hlatch, hframe⟩ := hrowWrite (hlen ▸ hallowed) hunloaded
  have hrun : rowWrite address data s = .next u := hexec
  have hepoch : u.bufEpoch = s.bufEpoch := by rw [hframe]
  have hbuf : u.buf = s.buf := by rw [hframe]
  refine ⟨reply 0x000B u, ?exec, repliesWith_of_sameBuffer hepoch hbuf _, hpm, hlatch, ?frame⟩
  case exec => rw [exec_write_fits hcount, hrun, andThen_next]
  case frame =>
    rw [hlen, ofNat_pred_toNat hallowed.1, ← hlen] at hframe
    exact congrArg (fun w : State => { w with buf := (reply 0x000B u).buf, rdPtr := 0, len := 2 }) hframe

/-- Settles O21: a row write of no words does nothing (D14). -/
theorem writeOfNoWordsOnlyReplies : Obligations.WriteOfNoWordsOnlyReplies := by
  intro s address
  refine replies_of_exec_eq_reply ?_
  have hrun : rowWrite address [] s = .next s := (rowWriteNetEffect s address []).1 rfl
  rw [exec_write_fits (by decide), hrun, andThen_next]

/-! ### ERASE (R210, R213) -/

section
variable {address : Word} {s : State}

theorem exec_erase_invalidTarget (htarget : validTarget s.dev address 1 = false) :
    exec (.erase address) s = .refused .invalidTarget := by
  show eraseCommand address s = _
  rw [eraseCommand, htarget]
  rfl

/-- A valid target makes ERASE the driver's row erase and the echo. -/
theorem exec_erase_validTarget (htarget : validTarget s.dev address 1 = true) :
    exec (.erase address) s = andThen (eraseRow address s) fun u => .next (reply 0x0015 u) := by
  show eraseCommand address s = _
  rw [eraseCommand, htarget]
  rfl

end

/-- Settles O22: a valid target lies in program memory, so that the row erase completes as O47 says. -/
theorem eraseErasesTheRow : Obligations.EraseErasesTheRow := by
  intro s address htarget
  obtain ⟨u, hexec, hpm, hframe⟩ := (eraseRowNetEffect s address).1 (validTarget_bound htarget)
  have hrun : eraseRow address s = .next u := hexec
  have hepoch : u.bufEpoch = s.bufEpoch := by rw [hframe]
  have hbuf : u.buf = s.buf := by rw [hframe]
  refine ⟨reply 0x0015 u, ?exec, repliesWith_of_sameBuffer hepoch hbuf _, hpm, ?frame⟩
  case exec => rw [exec_erase_validTarget htarget, hrun, andThen_next]
  case frame =>
    exact congrArg (fun w : State => { w with buf := (reply 0x0015 u).buf, rdPtr := 0, len := 2 }) hframe

/-! ### Outside the obligations (R212, R213, R274) -/

/-- Settles O23: WRITE looks at the count itself and leaves the rows and the target to the row write, whose refusals O48's
lemmas give. -/
theorem undefinedTargetsAreRefused : Obligations.UndefinedTargetsAreRefused := by
  intro s address count data
  have hwords (hone : 1 ≤ count.toNat) (hlen : data.length = count.toNat) : data ≠ [] :=
    List.ne_nil_of_length_pos (by omega)
  refine ⟨exec_write_pastBuffer, fun hone hcount hlen hrow => ?rows, fun hone hcount hlen hrow htarget => ?target,
    exec_erase_invalidTarget⟩
  case rows =>
    rw [exec_write_fits hcount, rowWrite_rowCrossing (hwords hone hlen) (hlen ▸ hrow), andThen_refused]
  case target =>
    rw [exec_write_fits hcount, rowWrite_invalidTarget (hwords hone hlen) (hlen ▸ hrow) (hlen ▸ htarget), andThen_refused]

end Sys2Proof.Machine
end

section
/-! SUPPORT. A handler invocation from the event on the lines to its end, the block after REBOOT, and what a read addressing finds
in the buffer, the first time and again (43_transport_events.md); O6, O7, O10, O11 and O24 to O29. -/

namespace Sys2Proof.Machine

/-! ### The event on the event lines (R112, R240) -/

/-- The two event lines and the data byte, read as an encoded event. -/
theorem decode_eventLines (k : Keys) (phase : Phase) (addr read : Bool) (data : Byte) :
    decode k (.busEvent phase) [byteOfBits false false false false false false addr read, data] =
      .ok (decodeEvent phase addr read data) := by
  cases addr <;> cases read <;> rfl

/-- The event the decoder reads from the event lines is the one the handler handles. -/
theorem fetchEvent_of_decode {s : State} {i : Instr} (h : decode s.dev.keys (.busEvent s.phase)
    [byteOfBits false false false false false false s.evAddr s.evRead, s.evData] = .ok i) : fetchEvent s = i :=
  Except.ok.inj ((decode_eventLines ..).symm.trans h)

theorem fetchEvent_addrRead {s : State} (h : HandlesAddrRead s) : fetchEvent s = .addrRead := by
  obtain ⟨-, haddr, hread⟩ := h
  simp only [fetchEvent, decodeEvent, haddr, hread]

/-- Where the event's rule completes, the step is the end of the invocation. -/
theorem step_eq_finishHandler {s u : State} {i : Instr} (hruns : HandlerRuns s) (hi : fetchEvent s = i)
    (hexec : exec i (clearOutputs s) = .next u) : step s = finishHandler i u := by
  rw [step_handle hruns, hi, hexec, andThen_next]

/-! ### Rules that return to the handler, and the two that do not (R246) -/

/-- The event's rule came back to the handler: it neither left for the application nor re-entered. -/
structure RuleReturned (s u : State) : Prop where
  run : u.run = s.run
  goBoot : u.goBoot = s.goBoot
  dev : u.dev = s.dev

theorem returned_dataReqEvent {s t : State} (h : dataReqEvent s = .next t) : RuleReturned s t := by
  obtain ⟨-, -, rfl⟩ | rfl := dataReqEvent_next h <;> exact ⟨rfl, rfl, rfl⟩

/-- An event that runs no command returns. -/
theorem EventEffect.returned {i : Instr} {s u : State} (e : EventEffect s i u) (hi : i ≠ .addrRead) : RuleReturned s u := by
  cases e with
  | addrRead hcommand => exact absurd rfl hi
  | dataReq hphase hreq => exact returned_dataReqEvent hreq
  | addrWrite | dataRxStored hphase hlen hwr | dataRxFull | dataRxWrongPhase | dataReqWrongPhase => exact ⟨rfl, rfl, rfl⟩

section
variable {s u : State}

/-- The command decoded is REBOOT or UNKNOWN where the dispatcher selects one of them. -/
theorem fetchCommand_leaves_iff : (fetchCommand s = .reboot ∨ ∃ opcode, fetchCommand s = .unknown opcode) ↔
    (selectedCommand s = .reboot ∨ selectedCommand s = .unknown) := by
  unfold fetchCommand decodeCommand selectedCommand
  cases commandKind s.len.toNat (frameWord (bufBytes s) 0) <;> simp

/-- Every other command replies (R215). -/
theorem replies_fetchCommand (hsel : ¬(selectedCommand s = .reboot ∨ selectedCommand s = .unknown)) :
    replies (fetchCommand s) = true := by
  unfold fetchCommand decodeCommand
  cases hkind : commandKind s.len.toNat (frameWord (bufBytes s) 0) with
  | reboot => exact absurd (.inl hkind) hsel
  | unknown => exact absurd (.inr hkind) hsel
  | incomplete | sync | info | boot | write | erase => rfl

/-- A read addressing that finds any other command returns, with a reply to be read from its start. -/
theorem addrRead_returned (hsel : ¬(selectedCommand s = .reboot ∨ selectedCommand s = .unknown))
    (h : exec .addrRead s = .next u) : RuleReturned s u ∧ u.rdPtr = 0 ∧ 0 < u.len.toNat := by
  rw [addrRead_eq] at h
  obtain ⟨hrun, hboot, hdev, hrdPtr, hlen⟩ := replies_next (replies_fetchCommand hsel) h
  exact ⟨⟨hrun, hboot, hdev⟩, hrdPtr, hlen⟩

/-- Of all events' rules only a read addressing's may not return, by REBOOT or UNKNOWN. -/
theorem exec_fetchEvent_returned
    (hstay : ¬(fetchEvent s = .addrRead ∧ (selectedCommand s = .reboot ∨ selectedCommand s = .unknown)))
    (h : exec (fetchEvent s) s = .next u) : RuleReturned s u := by
  by_cases hread : fetchEvent s = .addrRead
  · rw [hread] at h
    exact (addrRead_returned (fun hsel => hstay ⟨hread, hsel⟩) h).1
  · exact (eventEffect_of_exec h).returned hread

theorem exec_addrRead_reboot (hsel : selectedCommand s = .reboot) :
    exec .addrRead s = .next (leaveForApplication { s with phase := .replying }) := by
  have hsel' : selectedCommand { s with phase := .replying } = .reboot := hsel
  show dispatch _ = _
  rw [dispatch, hsel']
  rfl

theorem exec_addrRead_unknown (hsel : selectedCommand s = .unknown) :
    exec .addrRead s = .next (reenterBootloader { s with phase := .replying }) := by
  have hsel' : selectedCommand { s with phase := .replying } = .unknown := hsel
  show dispatch _ = _
  rw [dispatch, hsel']
  rfl

/-- REBOOT and UNKNOWN do not return. -/
theorem addrRead_gone (hsel : selectedCommand s = .reboot ∨ selectedCommand s = .unknown)
    (h : exec .addrRead s = .next u) : u.run = .left ∨ u.goBoot = true := by
  obtain hreboot | hunknown := hsel
  · cases (exec_addrRead_reboot hreboot).symm.trans h; exact .inl rfl
  · cases (exec_addrRead_unknown hunknown).symm.trans h; exact .inr rfl

end

/-- The block after a rule that returned: active, and not re-entered in this step. -/
theorem RuleReturned.active {s u : State} (h : RuleReturned (clearOutputs s) u) (hruns : HandlerRuns s) :
    u.run = .active ∧ u.goBoot = false := by
  obtain ⟨hactive, -, -⟩ := hruns
  exact ⟨h.run.trans hactive, h.goBoot⟩

/-- Settles O6: the decoder's event is the handler's, and the end of the invocation looks only at whether the rule returned. -/
theorem stepRunsPendingEvent : Obligations.StepRunsPendingEvent := by
  intro s i hruns hdec
  have hi := fetchEvent_of_decode hdec
  subst hi
  refine ⟨step_handle hruns, fun u hexec => ?_⟩
  rw [step_eq_finishHandler hruns rfl hexec]
  refine ⟨fun ⟨hread, hsel⟩ => ?gone, fun hstay hone => ?returned⟩
  case gone =>
    rw [hread] at hexec
    exact finishHandler_gone _ (addrRead_gone (s := clearOutputs s) hsel hexec)
  case returned =>
    have hret : RuleReturned (clearOutputs s) u := exec_fetchEvent_returned (s := clearOutputs s) hstay hexec
    obtain ⟨hrun, hboot⟩ := hret.active hruns
    have hdev : u.dev = s.dev := hret.dev
    exact finishHandler_released hrun hboot (hdev ▸ hone)

/-- Settles O7: O6 for the read addressing, and `finishHandler_combined` where the first byte is supplied with it. -/
theorem stepRunsBufferedCommand : Obligations.StepRunsBufferedCommand := by
  intro s i haddr hdec
  have hi : fetchCommand s = i := Except.ok.inj hdec
  subst hi
  have hread : exec .addrRead (clearOutputs s) = exec (fetchCommand s) { clearOutputs s with phase := .replying } :=
    addrRead_eq (clearOutputs s)
  have hevent := fetchEvent_addrRead haddr
  obtain ⟨hstep, hends⟩ := stepRunsPendingEvent s .addrRead haddr.1 ((decode_eventLines ..).trans (congrArg _ hevent))
  rw [← hread]
  refine ⟨hstep, fun u hexec => ?_⟩
  obtain ⟨hgone, hreturned⟩ := hends u hexec
  refine ⟨fun hleaves => hgone ⟨rfl, fetchCommand_leaves_iff.1 hleaves⟩, fun hreboot hunknown => ?_⟩
  have hsel : ¬(selectedCommand s = .reboot ∨ selectedCommand s = .unknown) := fun hsel =>
    (fetchCommand_leaves_iff.2 hsel).elim hreboot fun ⟨opcode, hopcode⟩ => hunknown opcode hopcode
  refine ⟨fun hone => hreturned (fun h => hsel h.2) (.inr hone), fun hcombined => ?combined⟩
  case combined =>
    obtain ⟨hret, hrdPtr, hlen⟩ := addrRead_returned (s := clearOutputs s) hsel hexec
    obtain ⟨hrun, hboot⟩ := hret.active haddr.1
    rw [step_eq_finishHandler haddr.1 hevent hexec]
    exact finishHandler_combined hrun hboot (hret.dev.symm ▸ hcombined) hlen hrdPtr

/-! ### The release (R240, R246) and its exception (R276) -/

/-- After a rule that returned, whatever byte is supplied first. -/
theorem finishHandler_releases {i : Instr} {u t : State} (hrun : u.run = .active) (hboot : u.goBoot = false)
    (h : finishHandler i u = .next t) : t.clkHold = false ∧ t.evtPending = false := by
  have hret : returned u = true := by simp [returned, hrun, hboot]
  rw [finishHandler, if_pos hret] at h
  cases h
  exact ⟨rfl, rfl⟩

/-- Settles O11: REBOOT's step is its rule alone, UNKNOWN's release is the re-entry's, and every other rule returns. -/
theorem handlerReleasesTheClock : Obligations.HandlerReleasesTheClock := by
  intro s t hruns h
  have ⟨_, hpending, _⟩ := hruns
  refine ⟨fun ⟨haddr, hsel⟩ => ?reboot, fun hnot => ?released⟩
  case reboot =>
    have hexec := exec_addrRead_reboot (s := clearOutputs s) hsel
    rw [step_eq_finishHandler hruns (fetchEvent_addrRead haddr) hexec, finishHandler_gone _ (.inl rfl)] at h
    cases h
    exact ⟨rfl, rfl, hpending, rfl, rfl⟩
  case released =>
    by_cases hunknown : fetchEvent s = .addrRead ∧ selectedCommand s = .unknown
    case pos =>
      obtain ⟨hevent, hsel⟩ := hunknown
      have hexec := exec_addrRead_unknown (s := clearOutputs s) hsel
      rw [step_eq_finishHandler hruns hevent hexec, finishHandler_gone _ (.inr rfl)] at h
      cases h
      exact ⟨rfl, rfl, rfl⟩
    case neg =>
      have hstay : ¬(fetchEvent s = .addrRead ∧ (selectedCommand s = .reboot ∨ selectedCommand s = .unknown)) :=
        fun ⟨hevent, hsel⟩ => hsel.elim (fun hreboot => hnot ⟨⟨hruns, fetchEvent_eq_addrRead hevent⟩, hreboot⟩)
          fun hsel => hunknown ⟨hevent, hsel⟩
      rw [step_handle hruns] at h
      obtain ⟨u, hexec, hfinish⟩ := andThen_eq_next.1 h
      obtain ⟨hrun, hboot⟩ := (exec_fetchEvent_returned (s := clearOutputs s) hstay hexec).active hruns
      exact ⟨(finishHandler_run hfinish).trans hrun, finishHandler_releases hrun hboot hfinish⟩

/-- Settles O10: the run state is looked at before anything but a reset. -/
theorem leftBlockTakesNoStep : Obligations.LeftBlockTakesNoStep := by
  intro s hleft hreset
  have hjob : nextJob s = .ended := by
    unfold nextJob
    split
    · next struck rest hin => exact absurd (congrArg List.head? hin) (hreset struck)
    · rw [hleft]
  rw [step, hjob]

/-! ### The events' rules (R241 to R245) -/

/-- Settles O26: `emptied` is the state the statement names. -/
theorem addrWriteResetsTheCursors : Obligations.AddrWriteResetsTheCursors := exec_addrWrite

/-- Settles O27: the byte that has room is `storedByte`'s; the overflow class does nothing (R272). -/
theorem dataRxStoresOrDrops : Obligations.DataRxStoresOrDrops := by
  intro s b hphase
  have hcap : capBytes = 128 := rfl
  have hexec : exec (.dataRx b) s = dataRxEvent b s := if_pos hphase
  refine ⟨fun hlen hwr => ?stored, fun hlen hwr => ?bounds, fun hfull => ?dropped⟩
  case stored => exact ⟨storedByte b s, exec_dataRx_storedByte b hphase hlen hwr, bufByte_storedByte b s, rfl⟩
  case bounds => rw [hexec, dataRxEvent, hcap, if_pos hlen, if_neg (Nat.not_lt.2 hwr)]
  case dropped => rw [hexec, dataRxEvent, hcap, if_neg (Nat.not_lt.2 hfull)]; rfl

/-- Settles O28: the counter decides whether a byte is left, then the cursor whether it is in the buffer. -/
theorem dataReqStreamsTheReply : Obligations.DataReqStreamsTheReply := by
  intro s hphase
  have hcap : capBytes = 128 := rfl
  have hexec : exec .dataReq s = dataReqEvent s := if_pos hphase
  refine ⟨fun hlen hrd => ?supplied, fun hlen hrd => ?bounds, fun hempty => ?zero⟩
  case supplied => rw [hexec, dataReqEvent, hcap, if_pos hlen, if_pos hrd]
  case bounds => rw [hexec, dataReqEvent, hcap, if_pos hlen, if_neg (Nat.not_lt.2 hrd)]
  case zero =>
    have hnone : ¬0 < s.len.toNat := by simp [hempty]
    rw [hexec, dataReqEvent, if_neg hnone]

/-- Where the rule of an event other than a read addressing returns, the release follows it. -/
theorem step_released {s u : State} {i : Instr} (hruns : HandlerRuns s) (hi : fetchEvent s = i) (hread : i ≠ .addrRead)
    (hexec : exec i (clearOutputs s) = .next u) : step s = .next { u with evtPending := false, clkHold := false } := by
  subst hi
  obtain ⟨hrun, hboot⟩ := ((eventEffect_of_exec (s := clearOutputs s) hexec).returned hread).active hruns
  rw [step_eq_finishHandler hruns rfl hexec, finishHandler_released hrun hboot (.inl hread)]

/-- Settles O29: each wrong-phase row has one effect, and the row of the other two in such a phase is the wrong-phase row's. -/
theorem wrongPhaseEventsChangeNothing : Obligations.WrongPhaseEventsChangeNothing := by
  intro s b
  refine ⟨rfl, rfl, fun hphase => if_neg hphase, fun hphase => if_neg hphase,
    fun hruns haddr hread hphase => ?dropped, fun hruns haddr hread hphase => ?zero⟩
  case dropped =>
    have hevent : fetchEvent s = .dataRxWrongPhase s.evData := by
      simp only [fetchEvent, decodeEvent, haddr, hread, if_neg hphase]
    exact step_released hruns hevent nofun rfl
  case zero =>
    have hevent : fetchEvent s = .dataReqWrongPhase := by
      simp only [fetchEvent, decodeEvent, haddr, hread, if_neg hphase]
    exact step_released hruns hevent nofun rfl

/-! ### The command a read addressing runs (R242, R200) -/

section
variable {s t : State}

/-- The opcode of the commands that answer with it (R204, R207, R209, R210). -/
def echoOpcode : CommandKind → Option Word
  | .sync => some 1
  | .boot => some 3
  | .write => some 11
  | .erase => some 21
  | .incomplete | .info | .reboot | .unknown => none

/-- The dispatcher selects an echoing command by its opcode, in a buffer that holds at least that. -/
theorem opcode_of_echoOpcode {v : Word} (hecho : echoOpcode (selectedCommand s) = some v) :
    2 ≤ s.len.toNat ∧ bufWord s 0 = v := by
  rw [← frameWord_bufBytes s (by decide)]
  unfold selectedCommand commandKind at hecho
  split_ifs at hecho with hlen h1 h2 h3 h4 h11 h21 <;> cases hecho
  all_goals exact ⟨Nat.le_of_not_lt hlen, ‹_›⟩

theorem fetchCommand_write (hsel : selectedCommand s = .write) :
    fetchCommand s = .write (bufWord s 1) (bufWord s 2) (framePayload (bufBytes s)) := by
  have hkind : commandKind s.len.toNat (frameWord (bufBytes s) 0) = .write := hsel
  simp only [fetchCommand, decodeCommand, hkind, frameAddress, frameCount,
    frameWord_bufBytes s (show 1 < capWords by decide), frameWord_bufBytes s (show 2 < capWords by decide)]

theorem fetchCommand_erase (hsel : selectedCommand s = .erase) : fetchCommand s = .erase (bufWord s 1) := by
  have hkind : commandKind s.len.toNat (frameWord (bufBytes s) 0) = .erase := hsel
  simp only [fetchCommand, decodeCommand, hkind, frameAddress, frameWord_bufBytes s (show 1 < capWords by decide)]

/-- The payload the decoder gives has as many words as the count says, where the buffer can hold them (R103). -/
theorem framePayload_length (hcount : (bufWord s 2).toNat ≤ 61) :
    (framePayload (bufBytes s)).length = (bufWord s 2).toNat := by
  have hmax : maxPayload = 61 := rfl
  rw [framePayload, frameWords_length, frameCount, frameWord_bufBytes s (by decide), hmax]
  omega

/-- A command that replies after work by the driver. -/
theorem repliesWith_of_keeps {u : State} (hkeeps : Keeps s u) (v : Word) :
    RepliesWith v s (reply v u) ∧ (reply v u).phase = s.phase :=
  ⟨repliesWith_of_sameBuffer hkeeps.bufEpoch hkeeps.buf v, hkeeps.phase⟩

/-- A row write under its obligations completes, whatever latches were loaded before. -/
theorem rowWrite_completes {address : Word} {words : List Word} (h : RowWriteAllowed s address words.length) :
    ∃ u, rowWrite address words s = .next u := by
  obtain ⟨hlen, hrow, htarget⟩ := h
  have hwords : words ≠ [] := List.ne_nil_of_length_pos hlen
  obtain ⟨u, hloop, -⟩ := rowWriteLoop_spec words address s hwords (of_decide_eq_true hrow) (validTarget_bound htarget)
  exact ⟨u, (rowWrite_allowed hwords hrow htarget).trans hloop⟩

theorem exec_write_completes {address count : Word} {data : List Word} (hcount : count.toNat ≤ 61)
    (hallowed : RowWriteAllowed s address data.length) :
    ∃ t, exec (.write address count data) s = .next t ∧ t.phase = s.phase ∧ RepliesWith 0x000B s t := by
  obtain ⟨u, hu⟩ := rowWrite_completes hallowed
  obtain ⟨hreply, hphase⟩ := repliesWith_of_keeps (keeps_rowWrite hu) 0x000B
  exact ⟨_, by rw [exec_write_fits hcount, hu, andThen_next], hphase, hreply⟩

theorem exec_erase_completes {address : Word} (htarget : validTarget s.dev address 1 = true) :
    ∃ t, exec (.erase address) s = .next t ∧ t.phase = s.phase ∧ RepliesWith 0x0015 s t := by
  have hu := eraseRow_eq (s := s) (validTarget_bound htarget)
  obtain ⟨hreply, hphase⟩ := repliesWith_of_keeps (keeps_erase hu) 0x0015
  exact ⟨_, by rw [exec_erase_validTarget htarget, hu, andThen_next], hphase, hreply⟩

/-- The commands without obligations complete (R200). -/
theorem dispatch_completes (hwrite : selectedCommand s ≠ .write) (herase : selectedCommand s ≠ .erase) :
    ∃ t, dispatch s = .next t ∧ t.phase = if selectedCommand s = .unknown then .address else s.phase := by
  unfold dispatch
  cases hsel : selectedCommand s with
  | write => exact absurd hsel hwrite
  | erase => exact absurd hsel herase
  | incomplete | sync | info | boot | reboot | unknown => exact ⟨_, rfl, rfl⟩

end

/-- Settles O24: the dispatcher's branches, in `ReplyingPhase`; WRITE and ERASE are completed by their driver operations. -/
theorem addrReadRunsTheCommand : Obligations.AddrReadRunsTheCommand := by
  intro s
  refine ⟨addrRead_eq s, dispatch_completes (s := { s with phase := .replying }), fun hsel htarget => ?erase,
    fun hsel hcount hallowed => ?write⟩
  case erase =>
    rw [addrRead_eq, fetchCommand_erase hsel]
    exact exec_erase_completes (s := { s with phase := .replying }) htarget
  case write =>
    rw [addrRead_eq, fetchCommand_write hsel]
    rw [← framePayload_length hcount] at hallowed
    exact exec_write_completes (s := { s with phase := .replying }) hcount hallowed

/-! ### A further read addressing (R251) -/

section
variable {s t : State} {v : Word}

/-- An echo leaves every byte of the buffer as the command had it. -/
theorem bufBytes_of_repliesWith (h : RepliesWith v s t) (hopcode : bufWord s 0 = v) : bufBytes t = bufBytes s := by
  obtain ⟨hword, hrest, -, -⟩ := h
  have hsame : bufWord t 0 = bufWord s 0 := hword.trans hopcode.symm
  have hlo : bufByte t 0 = bufByte s 0 := by simpa [bufWord] using congrArg loByte hsame
  have hhi : bufByte t 1 = bufByte s 1 := by simpa [bufWord] using congrArg hiByte hsame
  refine List.map_congr_left fun i _ => ?_
  match i with
  | 0 => exact hlo
  | 1 => exact hhi
  | i + 2 => exact hrest (i + 2) (Nat.le_add_left 2 i)

/-- Past the completeness check the command does not depend on how many bytes are held (R105). -/
theorem decodeCommand_congr_len {m n : Nat} (hm : minCmdBytes ≤ m) (hn : minCmdBytes ≤ n) (bs : List Byte) :
    decodeCommand m bs = decodeCommand n bs := by
  have hkind : commandKind m (frameWord bs 0) = commandKind n (frameWord bs 0) := by
    rw [commandKind, commandKind, if_neg (Nat.not_lt.2 hm), if_neg (Nat.not_lt.2 hn)]
  rw [decodeCommand, decodeCommand, hkind]

theorem repliesWith_of_exec_write {address count : Word} {data : List Word}
    (h : exec (.write address count data) s = .next t) : RepliesWith 0x000B s t := by
  by_cases hcount : count.toNat ≤ 61
  · rw [exec_write_fits hcount] at h
    obtain ⟨u, hu, h⟩ := andThen_eq_next.1 h
    cases h
    exact (repliesWith_of_keeps (keeps_rowWrite hu) 0x000B).1
  · rw [exec_write_pastBuffer (Nat.lt_of_not_le hcount)] at h
    cases h

theorem repliesWith_of_exec_erase {address : Word} (h : exec (.erase address) s = .next t) : RepliesWith 0x0015 s t := by
  cases htarget : validTarget s.dev address 1 with
  | true =>
    rw [exec_erase_validTarget htarget] at h
    obtain ⟨u, hu, h⟩ := andThen_eq_next.1 h
    cases h
    exact (repliesWith_of_keeps (keeps_erase hu) 0x0015).1
  | false =>
    rw [exec_erase_invalidTarget htarget] at h
    cases h

/-- The commands that answer with their opcode do so whenever they complete. -/
theorem repliesWith_echoOpcode (hecho : echoOpcode (selectedCommand s) = some v)
    (h : exec (fetchCommand s) s = .next t) : RepliesWith v s t := by
  cases hsel : selectedCommand s <;> rw [hsel] at hecho <;> cases hecho
  case sync | boot =>
    rw [← dispatch_eq_exec, dispatch, hsel] at h
    cases h
    exact (reply_repliesWith _ s).1
  case write =>
    rw [fetchCommand_write hsel] at h
    exact repliesWith_of_exec_write h
  case erase =>
    rw [fetchCommand_erase hsel] at h
    exact repliesWith_of_exec_erase h

/-- After an echo the buffer still holds the command, and decodes to it while two bytes are left. -/
theorem fetchCommand_after_echo {n : BitVec 8} (hn : 2 ≤ n.toNat) (hecho : echoOpcode (selectedCommand s) = some v)
    (h : exec (fetchCommand s) s = .next t) : fetchCommand { t with len := n } = fetchCommand s := by
  obtain ⟨hlen, hopcode⟩ := opcode_of_echoOpcode hecho
  have hbytes : bufBytes { t with len := n } = bufBytes s :=
    bufBytes_of_repliesWith (t := t) (repliesWith_echoOpcode hecho h) hopcode
  rw [fetchCommand, hbytes]
  exact decodeCommand_congr_len hn hlen (bufBytes s)

/-- A reply whose first word is no defined opcode decodes to that word, unknown. -/
theorem fetchCommand_undefined {n : BitVec 8} (hn : 2 ≤ n.toNat) (hword : bufWord t 0 = v)
    (hundefined : v ∉ ([1, 2, 3, 4, 11, 21] : List Word)) : fetchCommand { t with len := n } = .unknown v := by
  have hop : frameWord (bufBytes t) 0 = v := (frameWord_bufBytes t (by decide)).trans hword
  obtain ⟨-, -, -, -, -, -, hunknown⟩ := (completenessBeforeOpcode n.toNat (bufBytes t)).2 hn
  rw [hop] at hunknown
  exact hunknown hundefined

/-- The size of the INFO record is at least 28 and at most 128 (R9), and none of the six opcodes is. -/
theorem infoSize_undefined (c : Config) : BitVec.ofNat 16 c.infoSize ∉ ([1, 2, 3, 4, 11, 21] : List Word) := by
  have hge := c.infoSize_ge
  have hle : c.infoSize ≤ 128 := c.infoSize_le
  simp only [List.mem_cons, List.not_mem_nil, or_false, not_or]
  refine ⟨?_, ?_, ?_, ?_, ?_, ?_⟩ <;> bv_omega

end

/-- Settles O25: what the reply left in the buffer is a command again, and says which. -/
theorem repeatedAddrReadRedispatches : Obligations.RepeatedAddrReadRedispatches := by
  intro s t n
  obtain ⟨hincomplete, -⟩ := completenessBeforeOpcode n.toNat (bufBytes t)
  refine ⟨hincomplete, fun hn => ⟨fun hsel h => ?echo, fun h => ?ack, fun h => ?info⟩⟩
  case echo =>
    obtain ⟨v, hecho⟩ : ∃ v, echoOpcode (selectedCommand s) = some v := by
      obtain hsel | hsel | hsel | hsel := hsel <;> exact ⟨_, congrArg echoOpcode hsel⟩
    exact fetchCommand_after_echo hn hecho h
  case ack =>
    cases (exec_incomplete s).symm.trans h
    obtain ⟨⟨hword, -, -, -⟩, -⟩ := reply_repliesWith 0x0000 s
    exact fetchCommand_undefined hn hword (by decide)
  case info =>
    cases (exec_info s).symm.trans h
    exact fetchCommand_undefined hn (bufWord_infoReply_head s 0) (infoSize_undefined s.dev)

end Sys2Proof.Machine
end

section
/-! SUPPORT. The arrival of an event and the turn of the poll loop, and the two transfers of control (60_exceptions.md); O12, O18
and O19. -/

namespace Sys2Proof.Machine

/-! ### The bus interface and the poll loop (R286, R32, R278) -/

/-- An event is the step's job while the clock is free; while it is held the step waits. -/
theorem nextJob_event {s : State} {addr read : Bool} {data : Byte} (h : TakesInput s (.event addr read data)) :
    nextJob s = if s.clkHold then .idle else .present addr read data := by
  obtain ⟨hrun, hevt, hhead⟩ := h
  obtain ⟨rest, hin⟩ := List.head?_eq_some_iff.1 hhead
  simp [nextJob, hin, hrun, hevt]

theorem nextJob_nothing {s : State} (hrun : s.run = .active) (hevt : s.evtPending = false) (hin : s.inputs = []) :
    nextJob s = .idle := by
  simp [nextJob, hin, hrun, hevt]

theorem step_present {s : State} {addr read : Bool} {data : Byte} (hjob : nextJob s = .present addr read data) :
    step s = .next (presentEvent addr read data (takeInput (clearOutputs s))) := by
  rw [step, hjob]

/-- A step with nothing to do only ends the last step's outputs: no input is taken. -/
theorem step_idle {s : State} (hjob : nextJob s = .idle) : step s = .next (clearOutputs s) := by
  rw [step, hjob]

/-- Settles O12: the hold decides whether the event is the step's job. -/
theorem busPresentsOneEventAtATime : Obligations.BusPresentsOneEventAtATime := by
  intro s addr read data
  refine ⟨fun htake hfree => ?presented, fun htake hheld => ?waits, fun hrun hevt hin => ?polls⟩
  case presented => exact step_present ((nextJob_event htake).trans (if_neg (ne_true_of_eq_false hfree)))
  case waits => exact step_idle ((nextJob_event htake).trans (if_pos hheld))
  case polls => exact step_idle (nextJob_nothing hrun hevt hin)

/-! ### The two transfers of control (R276, R277) -/

theorem exec_reboot (s : State) : exec .reboot s = .next (leaveForApplication s) := rfl

theorem exec_unknown (opcode : Word) (s : State) : exec (.unknown opcode) s = .next (reenterBootloader s) := rfl

/-- An unlisted byte has no value but its epoch's free one, and the re-entry leaves no byte listed. -/
theorem bufByte_reenterBootloader (s : State) (i : Nat) :
    bufByte (reenterBootloader s) i = Config.anyByte (s.bufEpoch + 1) i := rfl

/-- Settles O18: `leaveForApplication` is the state the statement names. -/
theorem rebootLeavesForApplication : Obligations.RebootLeavesForApplication := exec_reboot

/-- Settles O19: the unknown opcode's error class is the re-entry, and records nothing of the opcode (R273). -/
theorem unknownReentersBootloader : Obligations.UnknownReentersBootloader := fun s opcode =>
  ⟨reenterBootloader s, exec_unknown opcode s, rfl, bufByte_reenterBootloader s⟩

end Sys2Proof.Machine
end

section
/-! SUPPORT. What a hardware reset leaves, the hazards the driver guards, and what a handler invocation leaves of the sequencer and
the latches (70_reset_and_hazards.md); O13, O14, O53 and O57 to O59. -/

namespace Sys2Proof.Machine

/-! ### Between handler invocations no latch is loaded and the sequencer is locked (R328) -/

section
variable {s t : State}

/-- A commit by the driver ends with the row's latches cleared, whatever was loaded before (R135). -/
theorem latchesQuiet_writeWordCommit {address data : Word} (h : writeWordCommit address data s = .next t) :
    LatchesQuiet t := by
  by_cases hrange : address.toNat < s.dev.flashWords
  · rw [writeWordCommit_eq hrange] at h
    cases h
    exact ⟨rfl, fun _ => rfl⟩
  · rw [writeWordCommit_refused (Nat.le_of_not_lt hrange)] at h
    cases h

/-- The loop's last word commits, so the latches its other words loaded are cleared again (R178). -/
theorem latchesQuiet_rowWriteLoop {w : Word} {words : List Word} {address : Word}
    (h : rowWriteLoop address (w :: words) s = .next t) : LatchesQuiet t := by
  induction words generalizing w address s with
  | nil => exact latchesQuiet_writeWordCommit h
  | cons w' words ih =>
    obtain ⟨u, -, hrest⟩ := andThen_eq_next.1 h
    exact ih hrest

theorem LatchesQuiet.of_rowWrite {address : Word} {words : List Word} (hquiet : LatchesQuiet s)
    (h : rowWrite address words s = .next t) : LatchesQuiet t := by
  cases words with
  | nil => cases h; exact hquiet
  | cons w words =>
    rw [rowWrite, if_neg (List.cons_ne_nil w words)] at h
    split_ifs at h
    exact latchesQuiet_rowWriteLoop h

/-- An erase loads no latch, and the close of its window relocks (R176, R177). -/
theorem LatchesQuiet.of_eraseRow {address : Word} (hquiet : LatchesQuiet s) (h : eraseRow address s = .next t) :
    LatchesQuiet t := by
  obtain ⟨-, hunloaded⟩ := hquiet
  by_cases hrange : address.toNat < s.dev.flashWords
  · rw [eraseRow_eq hrange] at h
    cases h
    exact ⟨rfl, hunloaded⟩
  · rw [eraseRow_refused (Nat.le_of_not_lt hrange)] at h
    cases h

theorem LatchesQuiet.of_writeCommand {address count : Word} {data : List Word} (hquiet : LatchesQuiet s)
    (h : writeCommand address count data s = .next t) : LatchesQuiet t := by
  unfold writeCommand at h
  split_ifs at h
  obtain ⟨u, hu, hreply⟩ := andThen_eq_next.1 h
  cases hreply
  have hwritten : LatchesQuiet u := hquiet.of_rowWrite hu
  exact hwritten

theorem LatchesQuiet.of_eraseCommand {address : Word} (hquiet : LatchesQuiet s)
    (h : eraseCommand address s = .next t) : LatchesQuiet t := by
  unfold eraseCommand at h
  split_ifs at h
  obtain ⟨u, hu, hreply⟩ := andThen_eq_next.1 h
  cases hreply
  have herased : LatchesQuiet u := hquiet.of_eraseRow hu
  exact herased

/-- Only WRITE and ERASE reach the controller; a reply and the two transfers of control leave it alone (R277). -/
theorem LatchesQuiet.of_dispatch (hquiet : LatchesQuiet s) (h : dispatch s = .next t) : LatchesQuiet t := by
  unfold dispatch at h
  cases hsel : selectedCommand s with
  | write => rw [hsel] at h; exact hquiet.of_writeCommand h
  | erase => rw [hsel] at h; exact hquiet.of_eraseCommand h
  | incomplete | sync | info | boot | reboot | unknown => rw [hsel] at h; cases h; exact hquiet

theorem LatchesQuiet.of_dataReqEvent (hquiet : LatchesQuiet s) (h : dataReqEvent s = .next t) : LatchesQuiet t := by
  obtain ⟨-, -, rfl⟩ | rfl := dataReqEvent_next h <;> exact hquiet

/-- An event that is no read addressing runs no command. -/
theorem EventEffect.latchesQuiet {i : Instr} (e : EventEffect s i t) (hi : i ≠ .addrRead) (hquiet : LatchesQuiet s) :
    LatchesQuiet t := by
  cases e with
  | addrRead hcommand => exact absurd rfl hi
  | dataReq hphase hreq => exact hquiet.of_dataReqEvent hreq
  | addrWrite | dataRxStored hphase hlen hwr | dataRxFull | dataRxWrongPhase | dataReqWrongPhase => exact hquiet

theorem LatchesQuiet.of_fetchEvent (hquiet : LatchesQuiet s) (h : exec (fetchEvent s) s = .next t) : LatchesQuiet t := by
  by_cases hread : fetchEvent s = .addrRead
  · rw [hread] at h
    exact LatchesQuiet.of_dispatch (s := { s with phase := .replying }) hquiet h
  · exact (eventEffect_of_exec h).latchesQuiet hread hquiet

theorem LatchesQuiet.of_finishHandler {i : Instr} (hquiet : LatchesQuiet s) (h : finishHandler i s = .next t) :
    LatchesQuiet t := by
  obtain rfl | rfl | ⟨-, -, rfl⟩ := finishHandler_next h
  · exact hquiet
  · exact hquiet
  · show LatchesQuiet (firstReplyByte s)
    obtain hreq | hsame := firstReplyByte_cases s
    · exact hquiet.of_dataReqEvent hreq
    · rwa [hsame]

end

/-- Settles O53: an invocation is the event's rule, of which only a read addressing's runs a command, and then its end. -/
theorem handlerKeepsLatchesQuiet : Obligations.HandlerKeepsLatchesQuiet := by
  intro s t hruns hquiet h
  rw [step_handle hruns] at h
  obtain ⟨u, hexec, hfinish⟩ := andThen_eq_next.1 h
  have hcleared : LatchesQuiet (clearOutputs s) := hquiet
  exact (hcleared.of_fetchEvent hexec).of_finishHandler hfinish

/-! ### A hardware reset (R311, R312) -/

/-- The row a reset struck is the only one whose words it leaves open (U12). -/
theorem pmWord_scrambleRow_of_not_inRowOf {s : State} {a : Word} {x : Nat} (hx : ¬InRowOf s.dev a.toNat x) :
    pmWord (scrambleRow a s) x = pmWord s x := by
  unfold scrambleRow
  split
  · exact (pmWord_setPmRow _ _ s x).trans (if_neg hx)
  · rfl

theorem scrambleRow_dev (a : Word) (s : State) : (scrambleRow a s).dev = s.dev := by
  unfold scrambleRow
  split <;> rfl

theorem pmWord_hardReset {s : State} {struck : Option Word} {x : Nat}
    (hx : ∀ a, struck = some a → ¬InRowOf s.dev a.toNat x) : pmWord (hardReset struck s) x = pmWord s x := by
  cases struck with
  | none => rfl
  | some a =>
    have hdev : (hardReset (some a) s).dev = (scrambleRow a s).dev := (scrambleRow_dev a s).symm
    calc pmWord (hardReset (some a) s) x
        = pmWord (scrambleRow a s) x := pmWord_congr hdev rfl x
      _ = pmWord s x := pmWord_scrambleRow_of_not_inRowOf (hx a rfl)

theorem cfgWord_hardReset (struck : Option Word) (s : State) (x : Nat) : cfgWord (hardReset struck s) x = cfgWord s x := by
  obtain ⟨hcfg, hdev⟩ := sameConfiguration_hardReset struck s
  exact cfgWord_congr hdev hcfg x

/-- Settles O13: all but `pm`, `cfg`, the inputs and the model's counters is the state after reset. -/
theorem hardResetKeepsFlash : Obligations.HardResetKeepsFlash := by
  intro s struck hhead
  exact ⟨hardReset struck s, step_reset hhead, rfl, rfl, rfl, rfl, rfl, rfl, rfl, rfl, rfl, fun _ => rfl, rfl, rfl, rfl, rfl,
    rfl, cfgWord_hardReset struck s, fun _ => pmWord_hardReset⟩

/-- Of the contents given by a list, each stored as `f` makes it, an address reads as its first entry there says. -/
theorem cellsLoad_cellsOf_map {α : Type} [DecidableEq α] {d : Nat → α} {ok : Nat → Bool} {f : α → α} {m : List (Nat × α)}
    {a : Nat} {v : α} (hok : ok a = true) (hv : m.lookup a = some v) :
    cellsLoad d (cellsOf d ok (m.map fun p => (p.1, f p.2))) a = f v := by
  induction m with
  | nil => cases hv
  | cons p m ih =>
    obtain ⟨k, w⟩ := p
    simp only [List.map_cons, cellsOf]
    by_cases hak : a = k
    · subst hak
      have hw : w = v := by simpa [List.lookup] using hv
      rw [if_pos hok, cellsLoad_store, if_pos rfl, hw]
    · have hrest : m.lookup a = some v := by simpa [List.lookup, beq_false_of_ne hak] using hv
      split_ifs
      · rw [cellsLoad_store, if_neg hak, ih hrest]
      · exact ih hrest

theorem pmWord_resetOf {c : Config} {a : Nat} {v : Word} (ha : a < c.flashWords) (hv : c.pmInit.lookup a = some v) :
    pmWord (State.resetOf c) a = c.trunc v := by
  have hload : cellsLoad (pmDefault c) (initialPm c) a = c.trunc v := cellsLoad_cellsOf_map (decide_eq_true ha) hv
  exact (congrArg c.trunc hload).trans (c.trunc_trunc v)

theorem cfgWord_resetOf {c : Config} {a : Nat} {v : Word} (ha : inCfg c a = true) (hv : c.cfgInit.lookup a = some v) :
    cfgWord (State.resetOf c) a = c.trunc v := by
  have hload : cellsLoad (cfgDefault c) (initialCfg c) a = c.trunc v := cellsLoad_cellsOf_map ha hv
  exact (congrArg c.trunc hload).trans (c.trunc_trunc v)

/-- Settles O14: the values are `State.resetOf`'s own, and the initial memories are read back from their lists. -/
theorem resetStateValues : Obligations.ResetStateValues :=
  ⟨rfl, fun _ => ⟨rfl, rfl, rfl, rfl, rfl, rfl, rfl, rfl, rfl, fun _ => rfl, rfl, rfl, rfl, rfl,
    fun _ _ => pmWord_resetOf, fun _ _ => cfgWord_resetOf⟩⟩

/-! ### The handshake inside the unlock discipline (R177, R321, R322) -/

/-- The state the discipline hands to the handshake: interrupts off, the operands loaded, the window open. -/
def handshakeStart (load : State → State) (con : Byte) (s : State) : State := updateFields con (load (saveAndDisable s))

theorem discipline_eq_handshake {con : Byte} (hcommit : conCommit con = false) (hread : conRead con = false)
    (load : State → State) (close : Bool) (s : State) :
    discipline load con close s =
      andThen (exec .unlockAndCommit (handshakeStart load con s)) fun t =>
      andThen (if close then closeWindow t else .next t) fun v => .next (restoreInterrupts v) := by
  rw [discipline, regWriteCon_fields hcommit hread, andThen_next]
  rfl

theorem exec_writeWordCommit_handshake (s : State) (address data : Word) :
    ∃ u, InterruptsSavedAndOff s u ∧
      exec (.writeWordCommit address data) s =
        andThen (exec .unlockAndCommit u) fun t => .next { t with gie := t.gieSaved } := by
  have hexec := discipline_eq_handshake (con := 0x04) (by decide) (by decide)
    (fun t => regWriteDat data (regWriteAdr address t)) false s
  exact ⟨_, ⟨rfl, rfl, rfl⟩, hexec⟩

theorem exec_eraseRow_handshake (s : State) (address : Word) :
    ∃ u, InterruptsSavedAndOff s u ∧
      exec (.eraseRow address) s =
        andThen (exec .unlockAndCommit u) fun t => andThen (closeWindow t) fun v => .next { v with gie := v.gieSaved } := by
  have hexec := discipline_eq_handshake (con := 0x14) (by decide) (by decide) (regWriteAdr address) true s
  exact ⟨_, ⟨rfl, rfl, rfl⟩, hexec⟩

/-- The handshake touches neither `GIE` nor its saved copy. -/
theorem InterruptsSavedAndOff.after_handshake {s u t : State} (h : InterruptsSavedAndOff s u)
    (hexec : exec .unlockAndCommit u = .next t) : t.gie = false ∧ t.gieSaved = s.gie := by
  obtain ⟨-, hsaved, -⟩ := h
  obtain ⟨-, hoff, hkept⟩ := unlockThenCommit_interrupts hexec
  exact ⟨hoff, hkept.trans hsaved⟩

/-- Settles O57: the discipline of each operation up to and from its handshake, and the driver's frame. -/
theorem handshakeRunsWithInterruptsOff : Obligations.HandshakeRunsWithInterruptsOff := by
  intro s address data
  obtain ⟨u, hcommitOff, hcommit⟩ := exec_writeWordCommit_handshake s address data
  obtain ⟨v, heraseOff, herase⟩ := exec_eraseRow_handshake s address
  refine ⟨⟨u, hcommitOff, hcommit, fun _ => hcommitOff.after_handshake⟩,
    ⟨v, heraseOff, herase, fun _ => heraseOff.after_handshake⟩, fun words i t hdriver hexec => ?restored⟩
  case restored =>
    have hnvm : isNvm i = true := List.all_eq_true.1 rfl i hdriver
    exact (keeps_nvm hnvm hexec).gie

theorem conEn_withoutEn (v : Byte) : conEn (withoutEn v) = false := by
  revert v; decide

/-- Settles O58: step 4 follows the handshake in any state, and an erase in program memory goes through it. -/
theorem eraseClosesTheWindowAtOnce : Obligations.EraseClosesTheWindowAtOnce := by
  intro s address
  refine ⟨exec_eraseRow_handshake s address, fun t => ?close, fun hrange => ?erase⟩
  case close => exact ⟨_, closeWindow_eq t, conEn_withoutEn _, rfl⟩
  case erase => exact ⟨_, eraseRow_eq hrange, conEn_withoutEn 0x14⟩

/-! ### The release of the clock (R246, R324) -/

/-- The end of an invocation stops nothing. -/
theorem finishHandler_completes (i : Instr) (u : State) : ∃ t, finishHandler i u = .next t := by
  unfold finishHandler
  split <;> exact ⟨_, rfl⟩

/-- Settles O59: the invocation completes because its end always does, and O11 says with what. -/
theorem returningHandlerReleasesTheClock : Obligations.ReturningHandlerReleasesTheClock := by
  intro s u i hruns hdec hexec hreturns
  have hevent := fetchEvent_of_decode hdec
  obtain ⟨t, hfinish⟩ := finishHandler_completes i u
  have hstep : step s = .next t := (step_eq_finishHandler hruns hevent hexec).trans hfinish
  have hnotReboot : ¬(HandlesAddrRead s ∧ selectedCommand s = .reboot) := fun ⟨haddr, hreboot⟩ =>
    hreturns ⟨hevent.symm.trans (fetchEvent_addrRead haddr), .inl hreboot⟩
  obtain ⟨-, hreleased⟩ := handlerReleasesTheClock s t hruns hstep
  obtain ⟨-, hclock, -⟩ := hreleased hnotReboot
  exact ⟨t, hstep, hclock⟩

end Sys2Proof.Machine
end
